-- ==== Sys2Proof/Word.lean ====
section
/-! DEFINITION. The word types of the core and the two construction-time sizes that fix them:
the register width XLEN and the register count NREG (spec/00_scope.md R7, R8). -/

namespace Sys2Proof

/-- One byte of memory. -/
abbrev Byte := BitVec 8

/-- One instruction word: every instruction is exactly 32 bits (30_encoding.md R60). -/
abbrev InsnWord := BitVec 32

/-- The register width, which is also the address width and the pc width (00_scope.md R7). -/
inductive Xlen where
  | rv32
  | rv64
  deriving DecidableEq, Repr

/-- XLEN as a number of bits. -/
def Xlen.bits : Xlen → Nat
  | .rv32 => 32
  | .rv64 => 64

/-- The number of general registers (00_scope.md R7, 10_state.md R20). -/
inductive Nreg where
  /-- 16 registers, x0 to x15. -/
  | e16
  /-- 32 registers, x0 to x31, the reference value. -/
  | i32
  deriving DecidableEq, Repr

/-- NREG as a number. -/
def Nreg.count : Nreg → Nat
  | .e16 => 16
  | .i32 => 32

/-- A register number as an instruction carries it: a 5-bit field, 0 to 31 (30_encoding.md R66). -/
abbrev Reg := Fin 32

end Sys2Proof
end

