-- ==== Sys2Proof/Config.lean ====
section
/-! DEFINITION. The configuration of one run (spec/00_scope.md R7): everything that is fixed when an
interpreter state is built and that no step changes (10_state.md R35), and the parameters a state is
built from. The spec leaves each of them open to the embedder, so the model takes each as data.
What the embedder decides by a function of its own (what its hook does, what its accessor refuses)
is also available as an uninterpreted constant, of which nothing can be proved but what holds for
every such function. -/

namespace Sys2Proof

/-! ## Leaf sets, variants and composite declarations (30_encoding.md R78, R80) -/

/-- The leaf extension sets (00_scope.md R3). -/
inductive LeafSet where
  | I | M | Zmmul | Zba | Zbs | Zbc | Zbkc
  deriving DecidableEq, Repr

/-- The mnemonics of opcode_table.json, in the table's order. -/
inductive Op where
  | lui | auipc
  | addi | slti | sltiu | xori | ori | andi | slli | srli | srai
  | add | sub | sll | slt | sltu | xor | srl | sra | or | and
  | addiw | slliw | srliw | sraiw | addw | subw | sllw | srlw | sraw
  | jal | jalr | beq | bne | blt | bge | bltu | bgeu
  | lb | lh | lw | lbu | lhu | lwu | ld
  | sb | sh | sw | sd
  | fence | ecall | ebreak
  | mul | mulh | mulhsu | mulhu | mulw | div | divu | rem | remu | divw | divuw | remw | remuw
  | sh1add | sh2add | sh3add | addUw | sh1addUw | sh2addUw | sh3addUw | slliUw
  | bset | bclr | binv | bext | bseti | bclri | binvi | bexti
  | clmul | clmulr | clmulh
  deriving DecidableEq, Repr

/-- A variant is an instruction of a set, written `Set.mnemonic` (R80). -/
structure Variant where
  set : LeafSet
  op : Op
  deriving DecidableEq, Repr

/-- A set a declaration can name: a leaf set, or an earlier composite of the same list of
declarations, by its position in that list, counted from 0 (R80: "leaf sets or other composites"). -/
inductive SetName where
  | leaf (s : LeafSet)
  | composite (k : Nat)
  deriving DecidableEq, Repr

/-- The declaration of one composite instruction set (R80). -/
structure Declaration where
  inherits : List SetName
  ignore : List SetName
  reorder : List Variant
  deriving DecidableEq, Repr

/-- Why a declaration is refused when the composite is built (R84). -/
inductive CompositeError where
  /-- There is no declaration to build. -/
  | noDeclaration
  /-- `inherit` names a composite that no earlier declaration gives. -/
  | unknownSet (k : Nat)
  /-- A name in `reorder` is not in the list after `ignore` (R84 item 1). -/
  | unknownReorderName (v : Variant)
  /-- Two variants match a common word and the earlier one is not reordered (R84 item 2). -/
  | unresolvedOverlap (u v : Variant)
  deriving DecidableEq, Repr

/-- The first reference composite (R88). -/
def refFull : List Declaration :=
  [⟨[.leaf .I, .leaf .M, .leaf .Zba, .leaf .Zbs, .leaf .Zbc], [], []⟩]

/-- The second reference composite (R88). -/
def refCrypto : List Declaration :=
  [⟨[.leaf .I, .leaf .Zmmul, .leaf .Zba, .leaf .Zbs, .leaf .Zbkc], [], []⟩]

/-- The head of the ISA string of a reference composite (00_scope.md R7). -/
def isaBase (x : Xlen) (n : Nreg) : String :=
  (match x with | .rv32 => "rv32" | .rv64 => "rv64") ++ (match n with | .i32 => "i" | .e16 => "e")

/-- The ISA string of REF_FULL (00_scope.md R7). -/
def isaStringFull (x : Xlen) (n : Nreg) : String := isaBase x n ++ "_m_zba_zbs_zbc"

/-- The ISA string of REF_CRYPTO (00_scope.md R7). -/
def isaStringCrypto (x : Xlen) (n : Nreg) : String := isaBase x n ++ "_zmmul_zba_zbs_zbkc"

/-! ## Data accesses -/

/-- What a misaligned load or store does (20_memory.md R47). -/
inductive MisalignedPolicy where
  /-- The access is made like an aligned one; only the accessor may refuse it. -/
  | delegate
  /-- The accessor is not called and the step raises `MisalignedAccess`. -/
  | fault
  deriving DecidableEq, Repr

/-- What the core asks the accessor for (20_memory.md R41 to R43). -/
inductive AccessKind where
  | fetch
  | load
  | store
  deriving DecidableEq, Repr

/-- A range of addresses the accessor serves, and for what. -/
structure Region where
  base : Nat
  size : Nat
  fetchable : Bool
  readable : Bool
  writable : Bool
  deriving DecidableEq, Repr

/-- Which accesses the memory accessor grants (20_memory.md R40: "The accessor decides which
addresses exist and which may be read, written or fetched"). DESIGN CHOICE, log 4. -/
inductive Accessor where
  /-- Every address exists and every access is granted. -/
  | everything
  /-- An access is granted when each of its bytes lies in a region that grants its kind. -/
  | regions (rs : List Region)
  /-- An embedder's own rule, the uninterpreted `Config.embedderGrants`. -/
  | embedder
  deriving DecidableEq, Repr

/-- What a byte of memory that nothing has written reads as: the one definition of it.
DESIGN CHOICE, log 3 (unsafe). -/
def unlistedByte : Byte := 0

/-! ## The hook (60_exceptions.md R308 to R312) -/

/-- The parameter `CustomError` (00_scope.md R7, 93 I20), a type of the embedder's: the model takes it by how
many values it has, because the core carries a value and never looks into one. DESIGN CHOICE, log 7. -/
inductive CustomErrorType where
  /-- A type of `k` values; with `k` = 0 the hook has no custom error to report. -/
  | finite (k : Nat)
  /-- A type of as many values as there are natural numbers. -/
  | countable
  deriving DecidableEq, Repr

/-- The type has a value of this number. -/
def CustomErrorType.has : CustomErrorType → Nat → Bool
  | .finite k, code => code < k
  | .countable, _ => true

/-- A value of the embedder's error type. -/
structure CustomError (t : CustomErrorType) where
  code : Nat
  valid : t.has code = true
  deriving DecidableEq, Repr

/-- The payload of a host fault, as a number. DESIGN CHOICE, log 7. -/
abbrev HostFault := Nat

/-- The number of bytes of one data access (20_memory.md R48). -/
inductive AccessSize where
  | byte | half | word | double
  deriving DecidableEq, Repr

def AccessSize.bytes : AccessSize → Nat
  | .byte => 1
  | .half => 2
  | .word => 4
  | .double => 8

/-- One thing the hook does to the interpreter state (R310). Values are XLEN bits; with XLEN = 32
their upper half is dropped. DESIGN CHOICE, logs 5 and 6. -/
inductive HookEffect where
  /-- A write of a register. One of a register number that NREG = 16 does not have changes nothing (log 18). -/
  | setReg (r : Reg) (v : BitVec 64)
  | setPc (v : BitVec 64)
  /-- A write through the accessor; a refused one changes nothing (log 6). -/
  | store (addr : BitVec 64) (size : AccessSize) (v : BitVec 64)
  deriving DecidableEq, Repr

/-- How a hook that did not decline ends (R308). -/
inductive HookEnd (t : CustomErrorType) where
  | cont
  | brk
  | fault (h : HostFault)
  | custom (c : CustomError t)
  deriving DecidableEq, Repr

/-- What a hook answers. A hook that declines has changed nothing, and no answer can touch the
configuration: a hook that breaks its duties (R310) cannot be written (93 I9: `refuse`). -/
inductive HookAnswer (t : CustomErrorType) where
  | decline
  | done (effects : List HookEffect) (out : HookEnd t)
  deriving DecidableEq, Repr, Inhabited

/-- What the hook sees of the interpreter state without the accessor (R310): registers and pc,
zero-extended to 64 bits. -/
structure HookView where
  xlen : Xlen
  regs : List (BitVec 64)
  pc : BitVec 64
  deriving DecidableEq, Repr

/-- The configured hook. DESIGN CHOICE, log 5. -/
inductive Hook (t : CustomErrorType) where
  /-- No hook is configured. -/
  | none
  /-- A hook given as a table: the answer for each listed word, `decline` for every other. -/
  | scripted (rules : List (InsnWord × HookAnswer t))
  /-- An embedder's own hook, the uninterpreted `Config.embedderHook`. -/
  | embedder
  deriving DecidableEq, Repr

/-! ## The configuration -/

/-- What is fixed for the life of a state (10_state.md R35, 70_reset_and_hazards.md R350). -/
structure Config where
  xlen : Xlen
  nreg : Nreg
  /-- The final variant list of the composite, in decode priority (30_encoding.md R83, R87). -/
  composite : List Variant
  misaligned : MisalignedPolicy
  accessor : Accessor
  customErrors : CustomErrorType
  hook : Hook customErrors
  deriving DecidableEq, Repr

/-- Whether an embedder's accessor grants an access of `n` bytes at `addr`: any function of the kind,
the address and the size (93 I6: `parameter`). No body: nothing can be proved of it. Log 4. -/
opaque Config.embedderGrants : AccessKind → (addr n : Nat) → Bool

/-- What an embedder's hook answers: any function of the word and the state (93 I8: `parameter`,
R310: "a function of the word and the state only"). Memory reaches it through the accessor alone: `read` is the
accessor's answer to a read, a refusal included, and `stores` whether it would serve a write. No body. Log 5. -/
opaque Config.embedderHook (t : CustomErrorType) :
    InsnWord → HookView → (read : BitVec 64 → AccessSize → Option (BitVec 64)) →
      (stores : BitVec 64 → AccessSize → Bool) → HookAnswer t

/-- What an interpreter state is built from (00_scope.md R7). -/
structure Parameters where
  xlen : Xlen
  nreg : Nreg
  /-- The declarations; the last one is the core's composite. -/
  composite : List Declaration
  misaligned : MisalignedPolicy
  accessor : Accessor
  customErrors : CustomErrorType
  hook : Hook customErrors
  entryPc : BitVec xlen.bits
  initialRegs : Vector (BitVec xlen.bits) nreg.count
  /-- The memory image the embedder's accessor holds; a later cell wins over an earlier one. -/
  image : List Host.Cell
  deriving DecidableEq, Repr

end Sys2Proof
end

