-- ==== Sys2Proof/Syntax.lean ====
section
/-! DEFINITION. The instructions: one constructor for each instruction of spec/opcode_table.json,
with the operands its format gives (30_encoding.md R64 to R67, R77).

An operand is carried as its field: a register number, a 12-bit I- or S-immediate, the 20 bits
31:12 of a U-immediate, a shift amount or bit index. The even immediates of branches and of JAL
are carried without their unencoded bit 0 (R65): `off` is bits 12:1 of B-imm, or 20:1 of J-imm. -/

namespace Sys2Proof

inductive Instr where
  -- Upper immediates (40_integer_computational.md R101, R102)
  | lui (rd : Reg) (imm : BitVec 20)
  | auipc (rd : Reg) (imm : BitVec 20)
  -- Register-immediate operations (R103 to R111)
  | addi (rd rs1 : Reg) (imm : BitVec 12)
  | slti (rd rs1 : Reg) (imm : BitVec 12)
  | sltiu (rd rs1 : Reg) (imm : BitVec 12)
  | xori (rd rs1 : Reg) (imm : BitVec 12)
  | ori (rd rs1 : Reg) (imm : BitVec 12)
  | andi (rd rs1 : Reg) (imm : BitVec 12)
  | slli (rd rs1 : Reg) (shamt : BitVec 6)
  | srli (rd rs1 : Reg) (shamt : BitVec 6)
  | srai (rd rs1 : Reg) (shamt : BitVec 6)
  -- Register-register operations (R112 to R121)
  | add (rd rs1 rs2 : Reg)
  | sub (rd rs1 rs2 : Reg)
  | sll (rd rs1 rs2 : Reg)
  | slt (rd rs1 rs2 : Reg)
  | sltu (rd rs1 rs2 : Reg)
  | xor (rd rs1 rs2 : Reg)
  | srl (rd rs1 rs2 : Reg)
  | sra (rd rs1 rs2 : Reg)
  | or (rd rs1 rs2 : Reg)
  | and (rd rs1 rs2 : Reg)
  -- Word operations, XLEN = 64 only (R122 to R130)
  | addiw (rd rs1 : Reg) (imm : BitVec 12)
  | slliw (rd rs1 : Reg) (shamt : BitVec 5)
  | srliw (rd rs1 : Reg) (shamt : BitVec 5)
  | sraiw (rd rs1 : Reg) (shamt : BitVec 5)
  | addw (rd rs1 rs2 : Reg)
  | subw (rd rs1 rs2 : Reg)
  | sllw (rd rs1 rs2 : Reg)
  | srlw (rd rs1 rs2 : Reg)
  | sraw (rd rs1 rs2 : Reg)
  -- Jumps and branches (41_control_transfer.md R151 to R158)
  | jal (rd : Reg) (off : BitVec 20)
  | jalr (rd rs1 : Reg) (imm : BitVec 12)
  | beq (rs1 rs2 : Reg) (off : BitVec 12)
  | bne (rs1 rs2 : Reg) (off : BitVec 12)
  | blt (rs1 rs2 : Reg) (off : BitVec 12)
  | bge (rs1 rs2 : Reg) (off : BitVec 12)
  | bltu (rs1 rs2 : Reg) (off : BitVec 12)
  | bgeu (rs1 rs2 : Reg) (off : BitVec 12)
  -- Loads (42_load_store.md R171 to R177)
  | lb (rd rs1 : Reg) (imm : BitVec 12)
  | lh (rd rs1 : Reg) (imm : BitVec 12)
  | lw (rd rs1 : Reg) (imm : BitVec 12)
  | lbu (rd rs1 : Reg) (imm : BitVec 12)
  | lhu (rd rs1 : Reg) (imm : BitVec 12)
  | lwu (rd rs1 : Reg) (imm : BitVec 12)
  | ld (rd rs1 : Reg) (imm : BitVec 12)
  -- Stores (R178 to R181)
  | sb (rs1 rs2 : Reg) (imm : BitVec 12)
  | sh (rs1 rs2 : Reg) (imm : BitVec 12)
  | sw (rs1 rs2 : Reg) (imm : BitVec 12)
  | sd (rs1 rs2 : Reg) (imm : BitVec 12)
  -- System (43_system.md R190 to R192)
  /-- FENCE carries the bits decode ignores, so that no bit of its word is lost (R93). -/
  | fence (fm pred succ : BitVec 4) (rs1 rd : BitVec 5)
  | ecall
  | ebreak
  -- Multiply and divide (44_mul_div.md R201 to R213)
  | mul (rd rs1 rs2 : Reg)
  | mulh (rd rs1 rs2 : Reg)
  | mulhsu (rd rs1 rs2 : Reg)
  | mulhu (rd rs1 rs2 : Reg)
  | mulw (rd rs1 rs2 : Reg)
  | div (rd rs1 rs2 : Reg)
  | divu (rd rs1 rs2 : Reg)
  | rem (rd rs1 rs2 : Reg)
  | remu (rd rs1 rs2 : Reg)
  | divw (rd rs1 rs2 : Reg)
  | divuw (rd rs1 rs2 : Reg)
  | remw (rd rs1 rs2 : Reg)
  | remuw (rd rs1 rs2 : Reg)
  -- Zba (45_zba.md R221 to R228)
  | sh1add (rd rs1 rs2 : Reg)
  | sh2add (rd rs1 rs2 : Reg)
  | sh3add (rd rs1 rs2 : Reg)
  | addUw (rd rs1 rs2 : Reg)
  | sh1addUw (rd rs1 rs2 : Reg)
  | sh2addUw (rd rs1 rs2 : Reg)
  | sh3addUw (rd rs1 rs2 : Reg)
  | slliUw (rd rs1 : Reg) (shamt : BitVec 6)
  -- Zbs (46_zbs.md R231 to R238)
  | bset (rd rs1 rs2 : Reg)
  | bclr (rd rs1 rs2 : Reg)
  | binv (rd rs1 rs2 : Reg)
  | bext (rd rs1 rs2 : Reg)
  | bseti (rd rs1 : Reg) (shamt : BitVec 6)
  | bclri (rd rs1 : Reg) (shamt : BitVec 6)
  | binvi (rd rs1 : Reg) (shamt : BitVec 6)
  | bexti (rd rs1 : Reg) (shamt : BitVec 6)
  -- Zbc and Zbkc (47_zbc_zbkc.md R241 to R243)
  | clmul (rd rs1 rs2 : Reg)
  | clmulr (rd rs1 rs2 : Reg)
  | clmulh (rd rs1 rs2 : Reg)
  deriving DecidableEq, Repr

end Sys2Proof
end

