-- ==== Sys2Proof/WellFormed.lean ====
section
/-! DEFINITION. Which instructions exist in a configuration: an instruction of an XLEN = 64-only row
needs XLEN = 64 (30_encoding.md R79), its register operands are below NREG (R66), and a 6-bit shift
amount or bit index is below 32 when XLEN = 32 (R67, R92). Whether the composite has the instruction is
Decode's. -/

namespace Sys2Proof

/-- The register operands, in the formats that have them; FENCE, ECALL and EBREAK have none (R66). -/
def Instr.registers : Instr → List Reg
  | .lui rd _ | .auipc rd _ => [rd]
  | .addi rd rs1 _ | .slti rd rs1 _ | .sltiu rd rs1 _ | .xori rd rs1 _ | .ori rd rs1 _
    | .andi rd rs1 _ | .slli rd rs1 _ | .srli rd rs1 _ | .srai rd rs1 _ => [rd, rs1]
  | .add rd rs1 rs2 | .sub rd rs1 rs2 | .sll rd rs1 rs2 | .slt rd rs1 rs2 | .sltu rd rs1 rs2
    | .xor rd rs1 rs2 | .srl rd rs1 rs2 | .sra rd rs1 rs2 | .or rd rs1 rs2 | .and rd rs1 rs2 => [rd, rs1, rs2]
  | .addiw rd rs1 _ | .slliw rd rs1 _ | .srliw rd rs1 _ | .sraiw rd rs1 _ => [rd, rs1]
  | .addw rd rs1 rs2 | .subw rd rs1 rs2 | .sllw rd rs1 rs2 | .srlw rd rs1 rs2 | .sraw rd rs1 rs2 => [rd, rs1, rs2]
  | .jal rd _ => [rd]
  | .jalr rd rs1 _ => [rd, rs1]
  | .beq rs1 rs2 _ | .bne rs1 rs2 _ | .blt rs1 rs2 _ | .bge rs1 rs2 _ | .bltu rs1 rs2 _
    | .bgeu rs1 rs2 _ => [rs1, rs2]
  | .lb rd rs1 _ | .lh rd rs1 _ | .lw rd rs1 _ | .lbu rd rs1 _ | .lhu rd rs1 _ | .lwu rd rs1 _
    | .ld rd rs1 _ => [rd, rs1]
  | .sb rs1 rs2 _ | .sh rs1 rs2 _ | .sw rs1 rs2 _ | .sd rs1 rs2 _ => [rs1, rs2]
  | .fence _ _ _ _ _ => []
  | .ecall | .ebreak => []
  | .mul rd rs1 rs2 | .mulh rd rs1 rs2 | .mulhsu rd rs1 rs2 | .mulhu rd rs1 rs2
    | .mulw rd rs1 rs2 | .div rd rs1 rs2 | .divu rd rs1 rs2 | .rem rd rs1 rs2 | .remu rd rs1 rs2
    | .divw rd rs1 rs2 | .divuw rd rs1 rs2 | .remw rd rs1 rs2 | .remuw rd rs1 rs2
    | .sh1add rd rs1 rs2 | .sh2add rd rs1 rs2 | .sh3add rd rs1 rs2 | .addUw rd rs1 rs2
    | .sh1addUw rd rs1 rs2 | .sh2addUw rd rs1 rs2 | .sh3addUw rd rs1 rs2 => [rd, rs1, rs2]
  | .slliUw rd rs1 _ => [rd, rs1]
  | .bset rd rs1 rs2 | .bclr rd rs1 rs2 | .binv rd rs1 rs2 | .bext rd rs1 rs2 => [rd, rs1, rs2]
  | .bseti rd rs1 _ | .bclri rd rs1 _ | .binvi rd rs1 _ | .bexti rd rs1 _ => [rd, rs1]
  | .clmul rd rs1 rs2 | .clmulr rd rs1 rs2 | .clmulh rd rs1 rs2 => [rd, rs1, rs2]

/-- The instructions that exist only with XLEN = 64 (R78, R79). -/
def Instr.only64 : Instr → Bool
  | .addiw _ _ _ | .slliw _ _ _ | .srliw _ _ _ | .sraiw _ _ _ | .addw _ _ _ | .subw _ _ _
  | .sllw _ _ _ | .srlw _ _ _ | .sraw _ _ _ | .lwu _ _ _ | .ld _ _ _ | .sd _ _ _ | .mulw _ _ _
  | .divw _ _ _ | .divuw _ _ _ | .remw _ _ _ | .remuw _ _ _ | .addUw _ _ _ | .sh1addUw _ _ _
  | .sh2addUw _ _ _ | .sh3addUw _ _ _ | .slliUw _ _ _ => true
  | .lui _ _ | .auipc _ _ | .addi _ _ _ | .slti _ _ _ | .sltiu _ _ _ | .xori _ _ _ | .ori _ _ _
  | .andi _ _ _ | .slli _ _ _ | .srli _ _ _ | .srai _ _ _ | .add _ _ _ | .sub _ _ _ | .sll _ _ _
  | .slt _ _ _ | .sltu _ _ _ | .xor _ _ _ | .srl _ _ _ | .sra _ _ _ | .or _ _ _ | .and _ _ _
  | .jal _ _ | .jalr _ _ _ | .beq _ _ _ | .bne _ _ _ | .blt _ _ _ | .bge _ _ _ | .bltu _ _ _
  | .bgeu _ _ _ | .lb _ _ _ | .lh _ _ _ | .lw _ _ _ | .lbu _ _ _ | .lhu _ _ _ | .sb _ _ _
  | .sh _ _ _ | .sw _ _ _ | .fence _ _ _ _ _ | .ecall | .ebreak | .mul _ _ _ | .mulh _ _ _
  | .mulhsu _ _ _ | .mulhu _ _ _ | .div _ _ _ | .divu _ _ _ | .rem _ _ _ | .remu _ _ _
  | .sh1add _ _ _ | .sh2add _ _ _ | .sh3add _ _ _ | .bset _ _ _ | .bclr _ _ _ | .binv _ _ _
  | .bext _ _ _ | .bseti _ _ _ | .bclri _ _ _ | .binvi _ _ _ | .bexti _ _ _ | .clmul _ _ _
  | .clmulr _ _ _ | .clmulh _ _ _ => false

/-- The 6-bit shift amount or bit index of the forms whose field is 5 bits wide with XLEN = 32
(I-shift64 and I-shift32, R64); the other instructions have none. -/
def Instr.wideShamt : Instr → Option (BitVec 6)
  | .slli _ _ shamt | .srli _ _ shamt | .srai _ _ shamt | .bseti _ _ shamt | .bclri _ _ shamt
  | .binvi _ _ shamt | .bexti _ _ shamt => some shamt
  | .lui _ _ | .auipc _ _ | .addi _ _ _ | .slti _ _ _ | .sltiu _ _ _ | .xori _ _ _ | .ori _ _ _
  | .andi _ _ _ | .add _ _ _ | .sub _ _ _ | .sll _ _ _ | .slt _ _ _ | .sltu _ _ _ | .xor _ _ _
  | .srl _ _ _ | .sra _ _ _ | .or _ _ _ | .and _ _ _ | .addiw _ _ _ | .slliw _ _ _
  | .srliw _ _ _ | .sraiw _ _ _ | .addw _ _ _ | .subw _ _ _ | .sllw _ _ _ | .srlw _ _ _
  | .sraw _ _ _ | .jal _ _ | .jalr _ _ _ | .beq _ _ _ | .bne _ _ _ | .blt _ _ _ | .bge _ _ _
  | .bltu _ _ _ | .bgeu _ _ _ | .lb _ _ _ | .lh _ _ _ | .lw _ _ _ | .lbu _ _ _ | .lhu _ _ _
  | .lwu _ _ _ | .ld _ _ _ | .sb _ _ _ | .sh _ _ _ | .sw _ _ _ | .sd _ _ _ | .fence _ _ _ _ _
  | .ecall | .ebreak | .mul _ _ _ | .mulh _ _ _ | .mulhsu _ _ _ | .mulhu _ _ _ | .mulw _ _ _
  | .div _ _ _ | .divu _ _ _ | .rem _ _ _ | .remu _ _ _ | .divw _ _ _ | .divuw _ _ _
  | .remw _ _ _ | .remuw _ _ _ | .sh1add _ _ _ | .sh2add _ _ _ | .sh3add _ _ _ | .addUw _ _ _
  | .sh1addUw _ _ _ | .sh2addUw _ _ _ | .sh3addUw _ _ _ | .slliUw _ _ _ | .bset _ _ _
  | .bclr _ _ _ | .binv _ _ _ | .bext _ _ _ | .clmul _ _ _ | .clmulr _ _ _ | .clmulh _ _ _ => none

/-- Every register operand names a register of the core (R66, 10_state.md R25). -/
def Instr.registersOk (n : Nreg) (i : Instr) : Bool := i.registers.all fun r => r.val < n.count

/-- The instruction exists at the width (R79). -/
def Instr.widthOk (x : Xlen) (i : Instr) : Bool :=
  match x with
  | .rv64 => true
  | .rv32 => !i.only64

/-- A shift amount or bit index fits the width (R67, R92). -/
def Instr.shamtOk (x : Xlen) (i : Instr) : Bool :=
  match x, i.wideShamt with
  | .rv32, some shamt => shamt.toNat < 32
  | _, _ => true

/-- The instruction can be decoded in a core of this width and register count. -/
def Instr.wf (x : Xlen) (n : Nreg) (i : Instr) : Bool :=
  i.registersOk n && i.widthOk x && i.shamtOk x

end Sys2Proof
end

