-- ==== Sys2Proof/Decode.lean ====
section
/-! DEFINITION. Decoding and encoding (spec/30_encoding.md): the rows of opcode_table.json, the leaf
sets, how a composite is built from its declaration, the composite decoder, and an encoder.

The rows are the table's `match` and `mask` numbers. The encoder is written from the format and the
function-code tables of R64 and R68 to R74, so that the two sources check each other. -/

namespace Sys2Proof

/-! ## Fields (R63, R65, R67) -/

def InsnWord.rd (w : InsnWord) : Reg := (w.extractLsb' 7 5).toFin
def InsnWord.rs1 (w : InsnWord) : Reg := (w.extractLsb' 15 5).toFin
def InsnWord.rs2 (w : InsnWord) : Reg := (w.extractLsb' 20 5).toFin

/-- inst[31:20]. -/
def InsnWord.iImm (w : InsnWord) : BitVec 12 := w.extractLsb' 20 12

/-- inst[31:25] ++ inst[11:7]. -/
def InsnWord.sImm (w : InsnWord) : BitVec 12 := w.extractLsb' 25 7 ++ w.extractLsb' 7 5

/-- B-imm without its bit 0: inst[31] ++ inst[7] ++ inst[30:25] ++ inst[11:8]. -/
def InsnWord.bOff (w : InsnWord) : BitVec 12 :=
  w.extractLsb' 31 1 ++ w.extractLsb' 7 1 ++ w.extractLsb' 25 6 ++ w.extractLsb' 8 4

/-- inst[31:12]. -/
def InsnWord.uImm (w : InsnWord) : BitVec 20 := w.extractLsb' 12 20

/-- J-imm without its bit 0: inst[31] ++ inst[19:12] ++ inst[20] ++ inst[30:21]. -/
def InsnWord.jOff (w : InsnWord) : BitVec 20 :=
  w.extractLsb' 31 1 ++ w.extractLsb' 12 8 ++ w.extractLsb' 20 1 ++ w.extractLsb' 21 10

/-- inst[25:20]. With XLEN = 32 the rows that use it fix inst[25] to 0. -/
def InsnWord.shamt6 (w : InsnWord) : BitVec 6 := w.extractLsb' 20 6

/-- inst[24:20]. -/
def InsnWord.shamt5 (w : InsnWord) : BitVec 5 := w.extractLsb' 20 5

/-! ## The opcode table -/

/-- The formats (R64); the two I-shift formats are named by the width of their shift amount. -/
inductive Format where
  | r | i | s | b | u | j | iShift5 | iShift6 | fence | system
  deriving DecidableEq, Repr

/-- One row of opcode_table.json: a word matches it when `word &&& mask = pattern` (R75). -/
structure Row where
  format : Format
  pattern : InsnWord
  mask : InsnWord
  deriving DecidableEq, Repr

/-- The row of an immediate shift or single-bit immediate, whose shift amount has 6 bits with
XLEN = 64 and 5 with XLEN = 32, where inst[25] is fixed to 0 (R64, R67). -/
def Row.shiftImm (x : Xlen) (pattern : InsnWord) : Row :=
  match x with
  | .rv64 => ⟨.iShift6, pattern, 0xFC00707F⟩
  | .rv32 => ⟨.iShift5, pattern, 0xFE00707F⟩

/-- A row that exists only with XLEN = 64 (R79). -/
def Row.only64 (x : Xlen) (r : Row) : Option Row :=
  match x with
  | .rv64 => some r
  | .rv32 => none

/-- The row of a mnemonic at a width: opcode_table.json. -/
def Op.row (x : Xlen) : Op → Option Row
  | .lui => some ⟨.u, 0x00000037, 0x0000007F⟩
  | .auipc => some ⟨.u, 0x00000017, 0x0000007F⟩
  | .addi => some ⟨.i, 0x00000013, 0x0000707F⟩
  | .slti => some ⟨.i, 0x00002013, 0x0000707F⟩
  | .sltiu => some ⟨.i, 0x00003013, 0x0000707F⟩
  | .xori => some ⟨.i, 0x00004013, 0x0000707F⟩
  | .ori => some ⟨.i, 0x00006013, 0x0000707F⟩
  | .andi => some ⟨.i, 0x00007013, 0x0000707F⟩
  | .slli => some (.shiftImm x 0x00001013)
  | .srli => some (.shiftImm x 0x00005013)
  | .srai => some (.shiftImm x 0x40005013)
  | .add => some ⟨.r, 0x00000033, 0xFE00707F⟩
  | .sub => some ⟨.r, 0x40000033, 0xFE00707F⟩
  | .sll => some ⟨.r, 0x00001033, 0xFE00707F⟩
  | .slt => some ⟨.r, 0x00002033, 0xFE00707F⟩
  | .sltu => some ⟨.r, 0x00003033, 0xFE00707F⟩
  | .xor => some ⟨.r, 0x00004033, 0xFE00707F⟩
  | .srl => some ⟨.r, 0x00005033, 0xFE00707F⟩
  | .sra => some ⟨.r, 0x40005033, 0xFE00707F⟩
  | .or => some ⟨.r, 0x00006033, 0xFE00707F⟩
  | .and => some ⟨.r, 0x00007033, 0xFE00707F⟩
  | .addiw => Row.only64 x ⟨.i, 0x0000001B, 0x0000707F⟩
  | .slliw => Row.only64 x ⟨.iShift5, 0x0000101B, 0xFE00707F⟩
  | .srliw => Row.only64 x ⟨.iShift5, 0x0000501B, 0xFE00707F⟩
  | .sraiw => Row.only64 x ⟨.iShift5, 0x4000501B, 0xFE00707F⟩
  | .addw => Row.only64 x ⟨.r, 0x0000003B, 0xFE00707F⟩
  | .subw => Row.only64 x ⟨.r, 0x4000003B, 0xFE00707F⟩
  | .sllw => Row.only64 x ⟨.r, 0x0000103B, 0xFE00707F⟩
  | .srlw => Row.only64 x ⟨.r, 0x0000503B, 0xFE00707F⟩
  | .sraw => Row.only64 x ⟨.r, 0x4000503B, 0xFE00707F⟩
  | .jal => some ⟨.j, 0x0000006F, 0x0000007F⟩
  | .jalr => some ⟨.i, 0x00000067, 0x0000707F⟩
  | .beq => some ⟨.b, 0x00000063, 0x0000707F⟩
  | .bne => some ⟨.b, 0x00001063, 0x0000707F⟩
  | .blt => some ⟨.b, 0x00004063, 0x0000707F⟩
  | .bge => some ⟨.b, 0x00005063, 0x0000707F⟩
  | .bltu => some ⟨.b, 0x00006063, 0x0000707F⟩
  | .bgeu => some ⟨.b, 0x00007063, 0x0000707F⟩
  | .lb => some ⟨.i, 0x00000003, 0x0000707F⟩
  | .lh => some ⟨.i, 0x00001003, 0x0000707F⟩
  | .lw => some ⟨.i, 0x00002003, 0x0000707F⟩
  | .lbu => some ⟨.i, 0x00004003, 0x0000707F⟩
  | .lhu => some ⟨.i, 0x00005003, 0x0000707F⟩
  | .lwu => Row.only64 x ⟨.i, 0x00006003, 0x0000707F⟩
  | .ld => Row.only64 x ⟨.i, 0x00003003, 0x0000707F⟩
  | .sb => some ⟨.s, 0x00000023, 0x0000707F⟩
  | .sh => some ⟨.s, 0x00001023, 0x0000707F⟩
  | .sw => some ⟨.s, 0x00002023, 0x0000707F⟩
  | .sd => Row.only64 x ⟨.s, 0x00003023, 0x0000707F⟩
  | .fence => some ⟨.fence, 0x0000000F, 0x0000707F⟩
  | .ecall => some ⟨.system, 0x00000073, 0xFFFFFFFF⟩
  | .ebreak => some ⟨.system, 0x00100073, 0xFFFFFFFF⟩
  | .mul => some ⟨.r, 0x02000033, 0xFE00707F⟩
  | .mulh => some ⟨.r, 0x02001033, 0xFE00707F⟩
  | .mulhsu => some ⟨.r, 0x02002033, 0xFE00707F⟩
  | .mulhu => some ⟨.r, 0x02003033, 0xFE00707F⟩
  | .mulw => Row.only64 x ⟨.r, 0x0200003B, 0xFE00707F⟩
  | .div => some ⟨.r, 0x02004033, 0xFE00707F⟩
  | .divu => some ⟨.r, 0x02005033, 0xFE00707F⟩
  | .rem => some ⟨.r, 0x02006033, 0xFE00707F⟩
  | .remu => some ⟨.r, 0x02007033, 0xFE00707F⟩
  | .divw => Row.only64 x ⟨.r, 0x0200403B, 0xFE00707F⟩
  | .divuw => Row.only64 x ⟨.r, 0x0200503B, 0xFE00707F⟩
  | .remw => Row.only64 x ⟨.r, 0x0200603B, 0xFE00707F⟩
  | .remuw => Row.only64 x ⟨.r, 0x0200703B, 0xFE00707F⟩
  | .sh1add => some ⟨.r, 0x20002033, 0xFE00707F⟩
  | .sh2add => some ⟨.r, 0x20004033, 0xFE00707F⟩
  | .sh3add => some ⟨.r, 0x20006033, 0xFE00707F⟩
  | .addUw => Row.only64 x ⟨.r, 0x0800003B, 0xFE00707F⟩
  | .sh1addUw => Row.only64 x ⟨.r, 0x2000203B, 0xFE00707F⟩
  | .sh2addUw => Row.only64 x ⟨.r, 0x2000403B, 0xFE00707F⟩
  | .sh3addUw => Row.only64 x ⟨.r, 0x2000603B, 0xFE00707F⟩
  | .slliUw => Row.only64 x ⟨.iShift6, 0x0800101B, 0xFC00707F⟩
  | .bset => some ⟨.r, 0x28001033, 0xFE00707F⟩
  | .bclr => some ⟨.r, 0x48001033, 0xFE00707F⟩
  | .binv => some ⟨.r, 0x68001033, 0xFE00707F⟩
  | .bext => some ⟨.r, 0x48005033, 0xFE00707F⟩
  | .bseti => some (.shiftImm x 0x28001013)
  | .bclri => some (.shiftImm x 0x48001013)
  | .binvi => some (.shiftImm x 0x68001013)
  | .bexti => some (.shiftImm x 0x48005013)
  | .clmul => some ⟨.r, 0x0A001033, 0xFE00707F⟩
  | .clmulr => some ⟨.r, 0x0A002033, 0xFE00707F⟩
  | .clmulh => some ⟨.r, 0x0A003033, 0xFE00707F⟩

/-- The register fields a format has as operands; I-fence and I-system have none (R66). -/
def Format.operands (f : Format) (w : InsnWord) : List Reg :=
  match f with
  | .r => [w.rd, w.rs1, w.rs2]
  | .i | .iShift5 | .iShift6 => [w.rd, w.rs1]
  | .s | .b => [w.rs1, w.rs2]
  | .u | .j => [w.rd]
  | .fence | .system => []

/-- A word matches a row: the fixed bits agree and every operand register is below NREG (R75). -/
def Row.matches (n : Nreg) (r : Row) (w : InsnWord) : Bool :=
  w &&& r.mask == r.pattern && (r.format.operands w).all fun reg => reg.val < n.count

/-- The instruction a mnemonic makes of a word, with the operands of its format (R77). -/
def Op.instr (w : InsnWord) : Op → Instr
  | .lui => .lui w.rd w.uImm
  | .auipc => .auipc w.rd w.uImm
  | .addi => .addi w.rd w.rs1 w.iImm
  | .slti => .slti w.rd w.rs1 w.iImm
  | .sltiu => .sltiu w.rd w.rs1 w.iImm
  | .xori => .xori w.rd w.rs1 w.iImm
  | .ori => .ori w.rd w.rs1 w.iImm
  | .andi => .andi w.rd w.rs1 w.iImm
  | .slli => .slli w.rd w.rs1 w.shamt6
  | .srli => .srli w.rd w.rs1 w.shamt6
  | .srai => .srai w.rd w.rs1 w.shamt6
  | .add => .add w.rd w.rs1 w.rs2
  | .sub => .sub w.rd w.rs1 w.rs2
  | .sll => .sll w.rd w.rs1 w.rs2
  | .slt => .slt w.rd w.rs1 w.rs2
  | .sltu => .sltu w.rd w.rs1 w.rs2
  | .xor => .xor w.rd w.rs1 w.rs2
  | .srl => .srl w.rd w.rs1 w.rs2
  | .sra => .sra w.rd w.rs1 w.rs2
  | .or => .or w.rd w.rs1 w.rs2
  | .and => .and w.rd w.rs1 w.rs2
  | .addiw => .addiw w.rd w.rs1 w.iImm
  | .slliw => .slliw w.rd w.rs1 w.shamt5
  | .srliw => .srliw w.rd w.rs1 w.shamt5
  | .sraiw => .sraiw w.rd w.rs1 w.shamt5
  | .addw => .addw w.rd w.rs1 w.rs2
  | .subw => .subw w.rd w.rs1 w.rs2
  | .sllw => .sllw w.rd w.rs1 w.rs2
  | .srlw => .srlw w.rd w.rs1 w.rs2
  | .sraw => .sraw w.rd w.rs1 w.rs2
  | .jal => .jal w.rd w.jOff
  | .jalr => .jalr w.rd w.rs1 w.iImm
  | .beq => .beq w.rs1 w.rs2 w.bOff
  | .bne => .bne w.rs1 w.rs2 w.bOff
  | .blt => .blt w.rs1 w.rs2 w.bOff
  | .bge => .bge w.rs1 w.rs2 w.bOff
  | .bltu => .bltu w.rs1 w.rs2 w.bOff
  | .bgeu => .bgeu w.rs1 w.rs2 w.bOff
  | .lb => .lb w.rd w.rs1 w.iImm
  | .lh => .lh w.rd w.rs1 w.iImm
  | .lw => .lw w.rd w.rs1 w.iImm
  | .lbu => .lbu w.rd w.rs1 w.iImm
  | .lhu => .lhu w.rd w.rs1 w.iImm
  | .lwu => .lwu w.rd w.rs1 w.iImm
  | .ld => .ld w.rd w.rs1 w.iImm
  | .sb => .sb w.rs1 w.rs2 w.sImm
  | .sh => .sh w.rs1 w.rs2 w.sImm
  | .sw => .sw w.rs1 w.rs2 w.sImm
  | .sd => .sd w.rs1 w.rs2 w.sImm
  | .fence =>
    .fence (w.extractLsb' 28 4) (w.extractLsb' 24 4) (w.extractLsb' 20 4) (w.extractLsb' 15 5) (w.extractLsb' 7 5)
  | .ecall => .ecall
  | .ebreak => .ebreak
  | .mul => .mul w.rd w.rs1 w.rs2
  | .mulh => .mulh w.rd w.rs1 w.rs2
  | .mulhsu => .mulhsu w.rd w.rs1 w.rs2
  | .mulhu => .mulhu w.rd w.rs1 w.rs2
  | .mulw => .mulw w.rd w.rs1 w.rs2
  | .div => .div w.rd w.rs1 w.rs2
  | .divu => .divu w.rd w.rs1 w.rs2
  | .rem => .rem w.rd w.rs1 w.rs2
  | .remu => .remu w.rd w.rs1 w.rs2
  | .divw => .divw w.rd w.rs1 w.rs2
  | .divuw => .divuw w.rd w.rs1 w.rs2
  | .remw => .remw w.rd w.rs1 w.rs2
  | .remuw => .remuw w.rd w.rs1 w.rs2
  | .sh1add => .sh1add w.rd w.rs1 w.rs2
  | .sh2add => .sh2add w.rd w.rs1 w.rs2
  | .sh3add => .sh3add w.rd w.rs1 w.rs2
  | .addUw => .addUw w.rd w.rs1 w.rs2
  | .sh1addUw => .sh1addUw w.rd w.rs1 w.rs2
  | .sh2addUw => .sh2addUw w.rd w.rs1 w.rs2
  | .sh3addUw => .sh3addUw w.rd w.rs1 w.rs2
  | .slliUw => .slliUw w.rd w.rs1 w.shamt6
  | .bset => .bset w.rd w.rs1 w.rs2
  | .bclr => .bclr w.rd w.rs1 w.rs2
  | .binv => .binv w.rd w.rs1 w.rs2
  | .bext => .bext w.rd w.rs1 w.rs2
  | .bseti => .bseti w.rd w.rs1 w.shamt6
  | .bclri => .bclri w.rd w.rs1 w.shamt6
  | .binvi => .binvi w.rd w.rs1 w.shamt6
  | .bexti => .bexti w.rd w.rs1 w.shamt6
  | .clmul => .clmul w.rd w.rs1 w.rs2
  | .clmulr => .clmulr w.rd w.rs1 w.rs2
  | .clmulh => .clmulh w.rd w.rs1 w.rs2

/-- The mnemonic of an instruction. -/
def Instr.op : Instr → Op
  | .lui _ _ => .lui
  | .auipc _ _ => .auipc
  | .addi _ _ _ => .addi
  | .slti _ _ _ => .slti
  | .sltiu _ _ _ => .sltiu
  | .xori _ _ _ => .xori
  | .ori _ _ _ => .ori
  | .andi _ _ _ => .andi
  | .slli _ _ _ => .slli
  | .srli _ _ _ => .srli
  | .srai _ _ _ => .srai
  | .add _ _ _ => .add
  | .sub _ _ _ => .sub
  | .sll _ _ _ => .sll
  | .slt _ _ _ => .slt
  | .sltu _ _ _ => .sltu
  | .xor _ _ _ => .xor
  | .srl _ _ _ => .srl
  | .sra _ _ _ => .sra
  | .or _ _ _ => .or
  | .and _ _ _ => .and
  | .addiw _ _ _ => .addiw
  | .slliw _ _ _ => .slliw
  | .srliw _ _ _ => .srliw
  | .sraiw _ _ _ => .sraiw
  | .addw _ _ _ => .addw
  | .subw _ _ _ => .subw
  | .sllw _ _ _ => .sllw
  | .srlw _ _ _ => .srlw
  | .sraw _ _ _ => .sraw
  | .jal _ _ => .jal
  | .jalr _ _ _ => .jalr
  | .beq _ _ _ => .beq
  | .bne _ _ _ => .bne
  | .blt _ _ _ => .blt
  | .bge _ _ _ => .bge
  | .bltu _ _ _ => .bltu
  | .bgeu _ _ _ => .bgeu
  | .lb _ _ _ => .lb
  | .lh _ _ _ => .lh
  | .lw _ _ _ => .lw
  | .lbu _ _ _ => .lbu
  | .lhu _ _ _ => .lhu
  | .lwu _ _ _ => .lwu
  | .ld _ _ _ => .ld
  | .sb _ _ _ => .sb
  | .sh _ _ _ => .sh
  | .sw _ _ _ => .sw
  | .sd _ _ _ => .sd
  | .fence _ _ _ _ _ => .fence
  | .ecall => .ecall
  | .ebreak => .ebreak
  | .mul _ _ _ => .mul
  | .mulh _ _ _ => .mulh
  | .mulhsu _ _ _ => .mulhsu
  | .mulhu _ _ _ => .mulhu
  | .mulw _ _ _ => .mulw
  | .div _ _ _ => .div
  | .divu _ _ _ => .divu
  | .rem _ _ _ => .rem
  | .remu _ _ _ => .remu
  | .divw _ _ _ => .divw
  | .divuw _ _ _ => .divuw
  | .remw _ _ _ => .remw
  | .remuw _ _ _ => .remuw
  | .sh1add _ _ _ => .sh1add
  | .sh2add _ _ _ => .sh2add
  | .sh3add _ _ _ => .sh3add
  | .addUw _ _ _ => .addUw
  | .sh1addUw _ _ _ => .sh1addUw
  | .sh2addUw _ _ _ => .sh2addUw
  | .sh3addUw _ _ _ => .sh3addUw
  | .slliUw _ _ _ => .slliUw
  | .bset _ _ _ => .bset
  | .bclr _ _ _ => .bclr
  | .binv _ _ _ => .binv
  | .bext _ _ _ => .bext
  | .bseti _ _ _ => .bseti
  | .bclri _ _ _ => .bclri
  | .binvi _ _ _ => .binvi
  | .bexti _ _ _ => .bexti
  | .clmul _ _ _ => .clmul
  | .clmulr _ _ _ => .clmulr
  | .clmulh _ _ _ => .clmulh

/-! ## Leaf sets (R76, R78) -/

/-- The mnemonics of a leaf set at a width, in R78's order. -/
def LeafSet.ops (x : Xlen) (s : LeafSet) : List Op :=
  match s with
  | .I =>
      [.lui, .auipc, .addi, .slti, .sltiu, .xori, .ori, .andi, .slli, .srli, .srai, .add, .sub,
       .sll, .slt, .sltu, .xor, .srl, .sra, .or, .and, .jal, .jalr, .beq, .bne, .blt, .bge,
       .bltu, .bgeu, .lb, .lh, .lw, .lbu, .lhu, .sb, .sh, .sw, .fence, .ecall, .ebreak]
      ++ only64 [.addiw, .slliw, .srliw, .sraiw, .addw, .subw, .sllw, .srlw, .sraw, .lwu, .ld, .sd]
  | .M =>
      [.mul, .mulh, .mulhsu, .mulhu, .div, .divu, .rem, .remu]
      ++ only64 [.mulw, .divw, .divuw, .remw, .remuw]
  | .Zmmul =>
      [.mul, .mulh, .mulhsu, .mulhu]
      ++ only64 [.mulw]
  | .Zba =>
      [.sh1add, .sh2add, .sh3add]
      ++ only64 [.addUw, .sh1addUw, .sh2addUw, .sh3addUw, .slliUw]
  | .Zbs =>
      [.bset, .bclr, .binv, .bext, .bseti, .bclri, .binvi, .bexti]
  | .Zbc =>
      [.clmul, .clmulr, .clmulh]
  | .Zbkc =>
      [.clmul, .clmulh]
where
  only64 (ops : List Op) : List Op :=
    match x with
    | .rv64 => ops
    | .rv32 => []

/-- The variants of a leaf set at a width. -/
def LeafSet.variants (x : Xlen) (s : LeafSet) : List Variant := (s.ops x).map fun op => ⟨s, op⟩

/-! ## Decoding one word -/

/-- A decoded instruction: the set it came from, and the mnemonic with its operands (R77). -/
structure Decoded where
  set : LeafSet
  insn : Instr
  deriving DecidableEq, Repr

/-- A variant matches a word at this width and register count (R75). -/
def Variant.hits (x : Xlen) (n : Nreg) (w : InsnWord) (v : Variant) : Bool :=
  match v.op.row x with
  | some r => r.matches n w
  | none => false

/-- The first variant of a list that matches a word, with the operands of the word (R85). -/
def decodeFirst (x : Xlen) (n : Nreg) (vs : List Variant) (w : InsnWord) : Option Decoded :=
  (vs.find? (·.hits x n w)).map fun v => ⟨v.set, v.op.instr w⟩

/-- A leaf set's own decoder (R76). -/
def LeafSet.decode (x : Xlen) (n : Nreg) (s : LeafSet) (w : InsnWord) : Option Decoded :=
  decodeFirst x n (s.variants x) w

/-- The composite's decoder, `decode_C` (R85). -/
def decodeWord (c : Config) (w : InsnWord) : Option Decoded :=
  decodeFirst c.xlen c.nreg c.composite w

/-! ## Building a composite (R80 to R84) -/

/-- The bits that are 0 exactly when every operand register of a format is below NREG: with
NREG = 16, bit 4 of each register field (R66). -/
def Format.highRegisterBits (n : Nreg) (f : Format) : InsnWord :=
  match n, f with
  | .i32, _ => 0
  | .e16, .r => 0x01080800
  | .e16, .i | .e16, .iShift5 | .e16, .iShift6 => 0x00080800
  | .e16, .s | .e16, .b => 0x01080000
  | .e16, .u | .e16, .j => 0x00000800
  | .e16, .fence | .e16, .system => 0

/-- All the bits a row fixes, the register bound of NREG = 16 included: their values are the
pattern's. -/
def Row.fullMask (n : Nreg) (r : Row) : InsnWord := r.mask ||| r.format.highRegisterBits n

/-- Two rows match a common word: their patterns agree on the bits both of them fix (R84). -/
def Row.overlaps (n : Nreg) (r₁ r₂ : Row) : Bool :=
  (r₁.pattern ^^^ r₂.pattern) &&& (r₁.fullMask n &&& r₂.fullMask n) == 0

/-- Two variants match a common word at this width and register count. -/
def Variant.overlaps (x : Xlen) (n : Nreg) (u v : Variant) : Bool :=
  match u.op.row x, v.op.row x with
  | some r₁, some r₂ => r₁.overlaps n r₂
  | _, _ => false

/-- A list with every later repetition of a variant dropped (R81: "contributes once, at its first
position"). -/
def keepFirst : List Variant → List Variant
  | [] => []
  | v :: vs => v :: (keepFirst vs).filter (· ≠ v)

/-- A composite that has been built: its final list, and the composites its variants came through. -/
structure Built where
  variants : List Variant
  reaches : List Nat
  deriving DecidableEq, Repr

/-- What one inherited set contributes, given the composites built before (R81). -/
def SetName.contributes (x : Xlen) (earlier : List Built) : SetName → Except CompositeError Built
  | .leaf s => .ok ⟨s.variants x, []⟩
  | .composite k =>
    match earlier[k]? with
    | some b => .ok ⟨b.variants, k :: b.reaches⟩
    | none => .error (.unknownSet k)

/-- The concatenation of what the inherited sets contribute, in declaration order (R81). -/
def inheritAll (x : Xlen) (earlier : List Built) : List SetName → Except CompositeError Built
  | [] => .ok ⟨[], []⟩
  | s :: rest =>
    match s.contributes x earlier, inheritAll x earlier rest with
    | .ok b, .ok c => .ok ⟨b.variants ++ c.variants, b.reaches ++ c.reaches⟩
    | .error e, _ => .error e
    | _, .error e => .error e

/-- A variant comes from an ignored set (R82): from a leaf set at any depth, or from a composite that
was inherited at some depth. Log 11. -/
def Variant.comesFrom (earlier : List Built) (reaches : List Nat) (v : Variant) : SetName → Bool
  | .leaf s => v.set = s
  | .composite k =>
    reaches.contains k && match earlier[k]? with
      | some b => b.variants.contains v
      | none => false

/-- The first pair of a list that overlaps without the earlier one being reordered (R84 item 2). -/
def firstUnresolved (x : Xlen) (n : Nreg) (reorder : List Variant) :
    List Variant → Option (Variant × Variant)
  | [] => none
  | u :: vs =>
    match if reorder.contains u then none else vs.find? (u.overlaps x n ·) with
    | some v => some (u, v)
    | none => firstUnresolved x n reorder vs

/-- The variants left after `inherit` and `ignore` (R81, R82). -/
def Declaration.kept (earlier : List Built) (all : Built) (d : Declaration) : List Variant :=
  (keepFirst all.variants).filter fun v => !d.ignore.any (v.comesFrom earlier all.reaches)

/-- The list after `reorder`: the reordered variants in front, the others in their order (R83). -/
def Declaration.final (earlier : List Built) (all : Built) (d : Declaration) : List Variant :=
  keepFirst d.reorder ++ (d.kept earlier all).filter fun v => !d.reorder.contains v

/-- The final list of one declaration, or why it is refused (R81 to R84). -/
def Declaration.build (x : Xlen) (n : Nreg) (earlier : List Built) (d : Declaration) :
    Except CompositeError Built :=
  match inheritAll x earlier d.inherits with
  | .error e => .error e
  | .ok all =>
    match d.reorder.find? fun v => !(d.kept earlier all).contains v with
    | some v => .error (.unknownReorderName v)
    | none =>
      match firstUnresolved x n d.reorder (d.final earlier all) with
      | some (u, v) => .error (.unresolvedOverlap u v)
      | none => .ok ⟨d.final earlier all, all.reaches⟩

/-- Build a list of declarations in order, each of which may inherit the ones before it. An ill-formed one is
refused, and with it the whole list, also where no later declaration inherits it (DESIGN CHOICE, log 11). -/
def buildAll (x : Xlen) (n : Nreg) : List Built → List Declaration → Except CompositeError (List Built)
  | earlier, [] => .ok earlier
  | earlier, d :: ds =>
    match d.build x n earlier with
    | .ok b => buildAll x n (earlier ++ [b]) ds
    | .error e => .error e

/-- The final variant list of the composite the last declaration declares (R83, R84). -/
def buildComposite (x : Xlen) (n : Nreg) (ds : List Declaration) :
    Except CompositeError (List Variant) :=
  match buildAll x n [] ds with
  | .error e => .error e
  | .ok built =>
    match built.getLast? with
    | some b => .ok b.variants
    | none => .error .noDeclaration

/-- The final list of REF_FULL (R88). -/
def refFullVariants (x : Xlen) : List Variant :=
  LeafSet.I.variants x ++ LeafSet.M.variants x ++ LeafSet.Zba.variants x ++ LeafSet.Zbs.variants x
    ++ LeafSet.Zbc.variants x

/-- The final list of REF_CRYPTO (R88). -/
def refCryptoVariants (x : Xlen) : List Variant :=
  LeafSet.I.variants x ++ LeafSet.Zmmul.variants x ++ LeafSet.Zba.variants x
    ++ LeafSet.Zbs.variants x ++ LeafSet.Zbkc.variants x

/-- The reference configuration (R7's reference values, and 95_test_vectors.md's conventions):
XLEN = 64, 32 registers, REF_FULL, `Delegate`, every address served, no hook. Log 1. -/
def Config.reference : Config where
  xlen := .rv64
  nreg := .i32
  composite := refFullVariants .rv64
  misaligned := .delegate
  accessor := .everything
  customErrors := .countable
  hook := .none

/-! ## Decoding bytes -/

/-- Why a list of bytes does not decode. -/
inductive DecodeError where
  /-- Fewer than the four bytes of a word. -/
  | tooShort
  /-- No variant of the composite matches the word (R90). -/
  | noVariant (w : InsnWord)
  deriving DecidableEq, Repr

/-- Decode the instruction at the head of a list of bytes, lowest address first: the word is
little-endian (R61). -/
def decodeBytes (c : Config) : List Byte → Except DecodeError (Decoded × List Byte)
  | b0 :: b1 :: b2 :: b3 :: rest =>
    match decodeWord c (b3 ++ b2 ++ b1 ++ b0) with
    | some d => .ok (d, rest)
    | none => .error (.noVariant (b3 ++ b2 ++ b1 ++ b0))
  | _ => .error .tooShort

/-- The bytes of a word, lowest address first (R61). -/
def InsnWord.bytes (w : InsnWord) : List Byte :=
  [w.extractLsb' 0 8, w.extractLsb' 8 8, w.extractLsb' 16 8, w.extractLsb' 24 8]

/-- The word whose low `nbits` bits are those of `w` and whose others are 0. -/
def wordOfTableBits (nbits w : Nat) : InsnWord := BitVec.ofNat 32 (w % 2 ^ nbits)

/-- The instruction the reference composite's decoder reads from the bytes of a table row's word. -/
def decodeTableWord (nbits w : Nat) : Option Instr :=
  match decodeBytes Config.reference (wordOfTableBits nbits w).bytes with
  | .ok (d, _) => some d.insn
  | .error _ => none

/-! ## Encoding -/

/-- A register number as its 5-bit field. -/
def Reg.bits (r : Reg) : BitVec 5 := BitVec.ofFin r

/-- Format R (R64). -/
def encR (funct7 : BitVec 7) (rs2 rs1 : Reg) (funct3 : BitVec 3) (rd : Reg) (opcode : BitVec 7) :
    InsnWord :=
  funct7 ++ Reg.bits rs2 ++ Reg.bits rs1 ++ funct3 ++ Reg.bits rd ++ opcode

/-- Format I (R64). -/
def encI (imm : BitVec 12) (rs1 : Reg) (funct3 : BitVec 3) (rd : Reg) (opcode : BitVec 7) : InsnWord :=
  imm ++ Reg.bits rs1 ++ funct3 ++ Reg.bits rd ++ opcode

/-- Format I-shift64 (R64); with XLEN = 32 shamt[5] is 0 and the word is the I-shift32 one. -/
def encShift6 (funct6 : BitVec 6) (shamt : BitVec 6) (rs1 : Reg) (funct3 : BitVec 3) (rd : Reg)
    (opcode : BitVec 7) : InsnWord :=
  funct6 ++ shamt ++ Reg.bits rs1 ++ funct3 ++ Reg.bits rd ++ opcode

/-- Format I-shift32 (R64). -/
def encShift5 (funct7 : BitVec 7) (shamt : BitVec 5) (rs1 : Reg) (funct3 : BitVec 3) (rd : Reg)
    (opcode : BitVec 7) : InsnWord :=
  funct7 ++ shamt ++ Reg.bits rs1 ++ funct3 ++ Reg.bits rd ++ opcode

/-- Format S (R64). -/
def encS (imm : BitVec 12) (rs2 rs1 : Reg) (funct3 : BitVec 3) (opcode : BitVec 7) : InsnWord :=
  imm.extractLsb' 5 7 ++ Reg.bits rs2 ++ Reg.bits rs1 ++ funct3 ++ imm.extractLsb' 0 5 ++ opcode

/-- Format B (R64), from bits 12:1 of the immediate. -/
def encB (off : BitVec 12) (rs2 rs1 : Reg) (funct3 : BitVec 3) (opcode : BitVec 7) : InsnWord :=
  (off.extractLsb' 11 1 ++ off.extractLsb' 4 6) ++ Reg.bits rs2 ++ Reg.bits rs1 ++ funct3
    ++ (off.extractLsb' 0 4 ++ off.extractLsb' 10 1) ++ opcode

/-- Format U (R64). -/
def encU (imm : BitVec 20) (rd : Reg) (opcode : BitVec 7) : InsnWord :=
  imm ++ Reg.bits rd ++ opcode

/-- Format J (R64), from bits 20:1 of the immediate. -/
def encJ (off : BitVec 20) (rd : Reg) (opcode : BitVec 7) : InsnWord :=
  off.extractLsb' 19 1 ++ off.extractLsb' 0 10 ++ off.extractLsb' 10 1 ++ off.extractLsb' 11 8
    ++ Reg.bits rd ++ opcode

/-- The word of an instruction. -/
def encode : Instr → InsnWord
  | .lui rd imm => encU imm rd 0b0110111
  | .auipc rd imm => encU imm rd 0b0010111
  | .addi rd rs1 imm => encI imm rs1 0b000 rd 0b0010011
  | .slti rd rs1 imm => encI imm rs1 0b010 rd 0b0010011
  | .sltiu rd rs1 imm => encI imm rs1 0b011 rd 0b0010011
  | .xori rd rs1 imm => encI imm rs1 0b100 rd 0b0010011
  | .ori rd rs1 imm => encI imm rs1 0b110 rd 0b0010011
  | .andi rd rs1 imm => encI imm rs1 0b111 rd 0b0010011
  | .slli rd rs1 shamt => encShift6 0b000000 shamt rs1 0b001 rd 0b0010011
  | .srli rd rs1 shamt => encShift6 0b000000 shamt rs1 0b101 rd 0b0010011
  | .srai rd rs1 shamt => encShift6 0b010000 shamt rs1 0b101 rd 0b0010011
  | .add rd rs1 rs2 => encR 0b0000000 rs2 rs1 0b000 rd 0b0110011
  | .sub rd rs1 rs2 => encR 0b0100000 rs2 rs1 0b000 rd 0b0110011
  | .sll rd rs1 rs2 => encR 0b0000000 rs2 rs1 0b001 rd 0b0110011
  | .slt rd rs1 rs2 => encR 0b0000000 rs2 rs1 0b010 rd 0b0110011
  | .sltu rd rs1 rs2 => encR 0b0000000 rs2 rs1 0b011 rd 0b0110011
  | .xor rd rs1 rs2 => encR 0b0000000 rs2 rs1 0b100 rd 0b0110011
  | .srl rd rs1 rs2 => encR 0b0000000 rs2 rs1 0b101 rd 0b0110011
  | .sra rd rs1 rs2 => encR 0b0100000 rs2 rs1 0b101 rd 0b0110011
  | .or rd rs1 rs2 => encR 0b0000000 rs2 rs1 0b110 rd 0b0110011
  | .and rd rs1 rs2 => encR 0b0000000 rs2 rs1 0b111 rd 0b0110011
  | .addiw rd rs1 imm => encI imm rs1 0b000 rd 0b0011011
  | .slliw rd rs1 shamt => encShift5 0b0000000 shamt rs1 0b001 rd 0b0011011
  | .srliw rd rs1 shamt => encShift5 0b0000000 shamt rs1 0b101 rd 0b0011011
  | .sraiw rd rs1 shamt => encShift5 0b0100000 shamt rs1 0b101 rd 0b0011011
  | .addw rd rs1 rs2 => encR 0b0000000 rs2 rs1 0b000 rd 0b0111011
  | .subw rd rs1 rs2 => encR 0b0100000 rs2 rs1 0b000 rd 0b0111011
  | .sllw rd rs1 rs2 => encR 0b0000000 rs2 rs1 0b001 rd 0b0111011
  | .srlw rd rs1 rs2 => encR 0b0000000 rs2 rs1 0b101 rd 0b0111011
  | .sraw rd rs1 rs2 => encR 0b0100000 rs2 rs1 0b101 rd 0b0111011
  | .jal rd off => encJ off rd 0b1101111
  | .jalr rd rs1 imm => encI imm rs1 0b000 rd 0b1100111
  | .beq rs1 rs2 off => encB off rs2 rs1 0b000 0b1100011
  | .bne rs1 rs2 off => encB off rs2 rs1 0b001 0b1100011
  | .blt rs1 rs2 off => encB off rs2 rs1 0b100 0b1100011
  | .bge rs1 rs2 off => encB off rs2 rs1 0b101 0b1100011
  | .bltu rs1 rs2 off => encB off rs2 rs1 0b110 0b1100011
  | .bgeu rs1 rs2 off => encB off rs2 rs1 0b111 0b1100011
  | .lb rd rs1 imm => encI imm rs1 0b000 rd 0b0000011
  | .lh rd rs1 imm => encI imm rs1 0b001 rd 0b0000011
  | .lw rd rs1 imm => encI imm rs1 0b010 rd 0b0000011
  | .lbu rd rs1 imm => encI imm rs1 0b100 rd 0b0000011
  | .lhu rd rs1 imm => encI imm rs1 0b101 rd 0b0000011
  | .lwu rd rs1 imm => encI imm rs1 0b110 rd 0b0000011
  | .ld rd rs1 imm => encI imm rs1 0b011 rd 0b0000011
  | .sb rs1 rs2 imm => encS imm rs2 rs1 0b000 0b0100011
  | .sh rs1 rs2 imm => encS imm rs2 rs1 0b001 0b0100011
  | .sw rs1 rs2 imm => encS imm rs2 rs1 0b010 0b0100011
  | .sd rs1 rs2 imm => encS imm rs2 rs1 0b011 0b0100011
  | .fence fm pred succ rs1 rd => fm ++ pred ++ succ ++ rs1 ++ 0b000#3 ++ rd ++ 0b0001111#7
  | .ecall => 0x00000073
  | .ebreak => 0x00100073
  | .mul rd rs1 rs2 => encR 0b0000001 rs2 rs1 0b000 rd 0b0110011
  | .mulh rd rs1 rs2 => encR 0b0000001 rs2 rs1 0b001 rd 0b0110011
  | .mulhsu rd rs1 rs2 => encR 0b0000001 rs2 rs1 0b010 rd 0b0110011
  | .mulhu rd rs1 rs2 => encR 0b0000001 rs2 rs1 0b011 rd 0b0110011
  | .mulw rd rs1 rs2 => encR 0b0000001 rs2 rs1 0b000 rd 0b0111011
  | .div rd rs1 rs2 => encR 0b0000001 rs2 rs1 0b100 rd 0b0110011
  | .divu rd rs1 rs2 => encR 0b0000001 rs2 rs1 0b101 rd 0b0110011
  | .rem rd rs1 rs2 => encR 0b0000001 rs2 rs1 0b110 rd 0b0110011
  | .remu rd rs1 rs2 => encR 0b0000001 rs2 rs1 0b111 rd 0b0110011
  | .divw rd rs1 rs2 => encR 0b0000001 rs2 rs1 0b100 rd 0b0111011
  | .divuw rd rs1 rs2 => encR 0b0000001 rs2 rs1 0b101 rd 0b0111011
  | .remw rd rs1 rs2 => encR 0b0000001 rs2 rs1 0b110 rd 0b0111011
  | .remuw rd rs1 rs2 => encR 0b0000001 rs2 rs1 0b111 rd 0b0111011
  | .sh1add rd rs1 rs2 => encR 0b0010000 rs2 rs1 0b010 rd 0b0110011
  | .sh2add rd rs1 rs2 => encR 0b0010000 rs2 rs1 0b100 rd 0b0110011
  | .sh3add rd rs1 rs2 => encR 0b0010000 rs2 rs1 0b110 rd 0b0110011
  | .addUw rd rs1 rs2 => encR 0b0000100 rs2 rs1 0b000 rd 0b0111011
  | .sh1addUw rd rs1 rs2 => encR 0b0010000 rs2 rs1 0b010 rd 0b0111011
  | .sh2addUw rd rs1 rs2 => encR 0b0010000 rs2 rs1 0b100 rd 0b0111011
  | .sh3addUw rd rs1 rs2 => encR 0b0010000 rs2 rs1 0b110 rd 0b0111011
  | .slliUw rd rs1 shamt => encShift6 0b000010 shamt rs1 0b001 rd 0b0011011
  | .bset rd rs1 rs2 => encR 0b0010100 rs2 rs1 0b001 rd 0b0110011
  | .bclr rd rs1 rs2 => encR 0b0100100 rs2 rs1 0b001 rd 0b0110011
  | .binv rd rs1 rs2 => encR 0b0110100 rs2 rs1 0b001 rd 0b0110011
  | .bext rd rs1 rs2 => encR 0b0100100 rs2 rs1 0b101 rd 0b0110011
  | .bseti rd rs1 shamt => encShift6 0b001010 shamt rs1 0b001 rd 0b0010011
  | .bclri rd rs1 shamt => encShift6 0b010010 shamt rs1 0b001 rd 0b0010011
  | .binvi rd rs1 shamt => encShift6 0b011010 shamt rs1 0b001 rd 0b0010011
  | .bexti rd rs1 shamt => encShift6 0b010010 shamt rs1 0b101 rd 0b0010011
  | .clmul rd rs1 rs2 => encR 0b0000101 rs2 rs1 0b001 rd 0b0110011
  | .clmulr rd rs1 rs2 => encR 0b0000101 rs2 rs1 0b010 rd 0b0110011
  | .clmulh rd rs1 rs2 => encR 0b0000101 rs2 rs1 0b011 rd 0b0110011

end Sys2Proof
end

