-- ==== Sys2Proof/Machine/State.lean ====
section
/-! DEFINITION. The machine state: registers, pc, memory and run status (spec/10_state.md R37), and the
configuration the run was built with (R35); the errors a run can fail with (60_exceptions.md R320); the
model's own stops; and the state after reset (70_reset_and_hazards.md R351). -/

namespace Sys2Proof.Machine

/-- The direction of a data access in an error (60_exceptions.md R320). -/
inductive Direction where
  | load
  | store
  deriving DecidableEq, Repr

/-- The kinds of `ExecutionFault` (60_exceptions.md R320), at register width `w`. -/
inductive FaultKind (w : Nat) where
  /-- The accessor refused the fetch at `addr`, which is the pc (R302). -/
  | fetchAccess (addr : BitVec w)
  /-- The accessor refused a data access of `n` bytes at the effective address `addr` (R321). -/
  | memoryAccess (addr : BitVec w) (n : Nat) (dir : Direction)
  /-- A misaligned data access with `MISALIGNED_DATA = Fault` (20_memory.md R47). -/
  | misalignedAccess (addr : BitVec w) (n : Nat) (dir : Direction)
  /-- The hook reported an invalid host operation (R312). -/
  | hostFault (h : HostFault)
  deriving DecidableEq, Repr

/-- The four error kinds with what each carries (60_exceptions.md R320, R321), at register width `w` and for the
embedder's error type `t`. -/
inductive RunError (w : Nat) (t : CustomErrorType) where
  | unalignedFetch (pc : BitVec w)
  | illegalInstruction (pc : BitVec w) (word : InsnWord)
  | executionFault (pc : BitVec w) (word : Option InsnWord) (insn : Option Instr) (kind : FaultKind w)
  | custom (pc : BitVec w) (word : InsnWord) (error : CustomError t)
  deriving DecidableEq, Repr

/-- The run status (10_state.md R36). -/
inductive RunStatus (w : Nat) (t : CustomErrorType) where
  | running
  | stopped
  | failed (e : RunError w t)
  deriving DecidableEq, Repr

/-- Memory contents: address and byte, addresses strictly rising, no byte equal to what an unlisted
address reads as, so that equal memories are equal lists. -/
abbrev Memory := List Host.Cell

/-- The canonical form of a memory. -/
def Memory.wf : Memory → Bool
  | [] => true
  | (_, b) :: [] => b != unlistedByte
  | (a, b) :: (a', b') :: m => b != unlistedByte && a < a' && Memory.wf ((a', b') :: m)

/-- The architectural state of a core with `n` registers of `w` bits and the error type `t` (10_state.md R37). -/
structure Hart (w n : Nat) (t : CustomErrorType) where
  /-- `regs[0..NREG-1]`; slot 0 is x0's, which no read sees (R20 to R22). -/
  regs : Vector (BitVec w) n
  /-- The address of the instruction being executed (R27). -/
  pc : BitVec w
  /-- What the accessor holds (R37). -/
  mem : Memory
  status : RunStatus w t
  deriving DecidableEq, Repr

/-- A run: its fixed configuration, and its architectural state at that configuration's width and
register count. -/
structure State where
  cfg : Config
  hart : Hart cfg.xlen.bits cfg.nreg.count cfg.customErrors
  deriving DecidableEq, Repr

/-- The model's own stops. An error of the spec is not one of these: it is a value of the status. -/
inductive Fault where
  /-- Raised by `step` when the run has ended `Stopped`: the spec gives a step only of a `Running` run
  (60_exceptions.md R300, 10_state.md R36). Safe: nothing is claimed to happen. Log 9. -/
  | runStopped
  /-- Raised by `step` when the run has ended `Failed`, which is never left (R322). Safe. Log 9. -/
  | runFailed
  deriving DecidableEq, Repr

/-- The model's refusals. -/
inductive Refusal where
  /-- Raised by `exec` for an instruction that has no meaning yet. Safe. No arm answers it now. -/
  | notModelled (mnemonic : String)
  /-- Raised by `State.construct` when the composite's declaration is ill-formed: no state can be
  built with it (30_encoding.md R84, 70_reset_and_hazards.md R350). Safe. -/
  | illFormedComposite (e : CompositeError)
  deriving DecidableEq, Repr

/-- The three outcomes of a step or of a meaning. -/
abbrev StepOutcome := Host.Outcome State Fault Refusal

/-- The machine right after construction with the reference configuration, `entry_pc` and every
register at the reference value 0, and nothing in memory (70_reset_and_hazards.md R351; the choices are
logs 1 to 3). -/
def State.reset : State where
  cfg := Config.reference
  hart :=
    { regs := Vector.replicate 32 0
      pc := 0
      mem := []
      status := .running }

end Sys2Proof.Machine
end

