-- ==== Sys2Proof/Machine/Ops.lean ====
section
/-! DEFINITION. The named operations over memory and registers that the meanings share: reading and
writing bytes and values through the accessor (spec/20_memory.md), reading and writing a general register
(10_state.md R21, R22), continuing, breaking, and raising an error (60_exceptions.md R304 to R307, R320
to R323). The core has no trap entry and no return from one (R325, R326): an error is a status. -/

namespace Sys2Proof.Machine

/-! ## Memory, byte by byte -/

/-- The byte at an address. -/
def Memory.read : Memory → Nat → Byte
  | [], _ => unlistedByte
  | (k, b) :: m, a => if k = a then b else Memory.read m a

/-- A memory with one cell more in front, unless the cell holds what an unlisted address reads as. -/
def Memory.cons (a : Nat) (b : Byte) (m : Memory) : Memory :=
  if b = unlistedByte then m else (a, b) :: m

/-- Write one byte, keeping the canonical form. -/
def Memory.write : Memory → Nat → Byte → Memory
  | [], a, b => Memory.cons a b []
  | (k, v) :: m, a, b =>
    if a < k then Memory.cons a b ((k, v) :: m)
    else if a = k then Memory.cons a b m
    else (k, v) :: Memory.write m a b

/-- The `n`-byte value at `addr`, `b(n-1) ++ ... ++ b1 ++ b0`: little-endian, each address modulo
2^XLEN (20_memory.md R41, R44). -/
def Memory.load {w : Nat} (m : Memory) (addr : BitVec w) : (n : Nat) → BitVec (8 * n)
  | 0 => 0
  | n + 1 => Memory.load m (addr + 1) n ++ Memory.read m addr.toNat

/-- Store the `n` bytes of `v` at `addr`, least significant byte first, each address modulo 2^XLEN
(20_memory.md R42). -/
def Memory.store {w : Nat} (m : Memory) (addr : BitVec w) : (n : Nat) → BitVec (8 * n) → Memory
  | 0, _ => m
  | n + 1, v =>
    Memory.store (Memory.write m addr.toNat (v.setWidth 8)) (addr + 1) n (v.extractLsb' 8 (8 * n))

/-- A memory with the cells of an image written into it in order, each address modulo 2^XLEN. -/
def Memory.ofImage (w : Nat) (image : List Host.Cell) : Memory :=
  image.foldl (fun m cell => Memory.write m (cell.1 % 2 ^ w) cell.2) []

/-! ## The accessor (20_memory.md R40 to R43, R52) -/

/-- A region grants an access of this kind to the byte at `a`. -/
def regionGrants (k : AccessKind) (a : Nat) (r : Region) : Bool :=
  r.base ≤ a && a < r.base + r.size &&
    match k with
    | .fetch => r.fetchable
    | .load => r.readable
    | .store => r.writable

/-- The accessor grants an access to the `n` bytes from `addr` on, each address modulo 2^XLEN. -/
def accessorGrants {w : Nat} (acc : Accessor) (k : AccessKind) (addr : BitVec w) (n : Nat) : Bool :=
  match acc with
  | .everything => true
  | .regions rs => (List.range n).all fun i => rs.any (regionGrants k (addr + BitVec.ofNat w i).toNat)
  | .embedder => Config.embedderGrants k addr.toNat n

/-- `MemRead` and `MemFetch`: the value, or a refusal (R41, R43). -/
def memRead {w : Nat} (acc : Accessor) (m : Memory) (k : AccessKind) (addr : BitVec w) (n : Nat) :
    Option (BitVec (8 * n)) :=
  if accessorGrants acc k addr n then some (m.load addr n) else none

/-- `MemWrite`: all `n` bytes written, or none (R42). -/
def memWrite {w : Nat} (acc : Accessor) (m : Memory) (addr : BitVec w) (n : Nat) (v : BitVec (8 * n)) :
    Option Memory :=
  if accessorGrants acc .store addr n then some (m.store addr n v) else none

/-! ## Registers (10_state.md R20 to R23) -/

/-- `x[r]`: 0 for x0, whatever its slot holds (R21). A number at or above NREG, which no decoded
instruction carries, reads 0 (log 12). -/
def Hart.x {w n : Nat} {t : CustomErrorType} (h : Hart w n t) (r : Reg) : BitVec w :=
  if r = 0 then 0 else (h.regs[r.val]?).getD 0

/-- `x[r] <- v`: discarded for x0 (R22). -/
def Hart.setX {w n : Nat} {t : CustomErrorType} (h : Hart w n t) (r : Reg) (v : BitVec w) : Hart w n t :=
  if r = 0 then h else { h with regs := h.regs.setIfInBounds r.val v }

/-- An XLEN-bit value of this run. -/
abbrev State.Word (s : State) := BitVec s.cfg.xlen.bits

/-- `x[r]` of a run. -/
def State.x (s : State) (r : Reg) : s.Word := s.hart.x r

/-- `pc` of a run. -/
def State.pc (s : State) : s.Word := s.hart.pc

/-! ## Ending an instruction (60_exceptions.md R304 to R307) -/

/-- `Continue`, after the instruction has made the changes in `h`: the pc takes `next_pc` (R307). -/
def State.continueAt (s : State) (h : Hart s.cfg.xlen.bits s.cfg.nreg.count s.cfg.customErrors) (nextPc : s.Word) :
    StepOutcome :=
  .next { s with hart := { h with pc := nextPc } }

/-- The default `next_pc`, `pc + 4` modulo 2^XLEN (R304). -/
def State.seqPc (s : State) : s.Word := s.pc + 4

/-- Write `rd` and continue with the next instruction. -/
def State.retire (s : State) (rd : Reg) (v : s.Word) : StepOutcome :=
  s.continueAt (s.hart.setX rd v) s.seqPc

/-- `Break`: the run ends `Stopped`, and the pc stays (R306). -/
def State.breakRun (s : State) : StepOutcome :=
  .next { s with hart := { s.hart with status := .stopped } }

/-! ## Raising an error (60_exceptions.md R300, R320 to R323, R325) -/

/-- `fail E`: the run ends `Failed(E)` and nothing else changes. This is all that taking an exception is
in this core: no vector, no saved pc, no mode (R325). -/
def State.fail (s : State) (e : RunError s.cfg.xlen.bits s.cfg.customErrors) : StepOutcome :=
  .next { s with hart := { s.hart with status := .failed e } }

/-- `raise` in the rule of instruction `i`: an execution fault that carries the pc, the instruction and
its word (R300, R321). The word is the instruction's encoding, which is the word it was decoded from
(DEDUCED, log 8). -/
def State.raise (s : State) (i : Instr) (kind : FaultKind s.cfg.xlen.bits) : StepOutcome :=
  s.fail (.executionFault s.pc (some (encode i)) (some i) kind)

/-! ## Data accesses (42_load_store.md R170) -/

/-- The access must be refused for its alignment, before the accessor is called (20_memory.md R47). -/
def State.misalignedFault (s : State) (addr : s.Word) (n : Nat) : Bool :=
  s.cfg.misaligned = .fault && addr.toNat % n != 0

/-- A load of `n` bytes into `rd`: alignment, access, then the register (R170). -/
def State.loadInto (s : State) (i : Instr) (rd : Reg) (addr : s.Word) (n : Nat)
    (extend : BitVec (8 * n) → s.Word) : StepOutcome :=
  if s.misalignedFault addr n then s.raise i (.misalignedAccess addr n .load)
  else
    match memRead s.cfg.accessor s.hart.mem .load addr n with
    | some v => s.retire rd (extend v)
    | none => s.raise i (.memoryAccess addr n .load)

/-- A store of the low `n` bytes of a register: alignment, then access (R170). -/
def State.storeFrom (s : State) (i : Instr) (rs2 : Reg) (addr : s.Word) (n : Nat) : StepOutcome :=
  if s.misalignedFault addr n then s.raise i (.misalignedAccess addr n .store)
  else
    match memWrite s.cfg.accessor s.hart.mem addr n ((s.x rs2).setWidth (8 * n)) with
    | some m => s.continueAt { s.hart with mem := m } s.seqPc
    | none => s.raise i (.memoryAccess addr n .store)

end Sys2Proof.Machine
end

