-- ==== Sys2Proof/Machine/Flags.lean ====
section
/-! DEFINITION. Comparisons. The core has no flags, condition codes or predicate registers (spec/10_state.md
R31): a comparison writes 0 or 1 to `rd`, and a branch compares registers directly. -/

namespace Sys2Proof.Machine

/-- The 0/1 result of a comparison (R31). -/
def boolWord (w : Nat) (b : Bool) : BitVec w := if b then 1 else 0

/-- `a <s b` (00_scope.md R9). -/
def ltS {w : Nat} (a b : BitVec w) : Bool := a.toInt < b.toInt

/-- `a <u b` (00_scope.md R9). -/
def ltU {w : Nat} (a b : BitVec w) : Bool := a.toNat < b.toNat

end Sys2Proof.Machine
end

