-- ==== Sys2Proof/Machine/Operands.lean ====
section
/-! DEFINITION. The operand forms: immediates, shift amounts, low words and effective addresses
(spec/30_encoding.md R65, R67; 40_integer_computational.md R100; 42_load_store.md R170). -/

namespace Sys2Proof.Machine

/-- I-imm and S-imm: the 12-bit field sign-extended (R65). -/
def imm12 (w : Nat) (imm : BitVec 12) : BitVec w := imm.signExtend w

/-- U-imm: the field above twelve zeros, sign-extended (R65). -/
def immU (w : Nat) (imm : BitVec 20) : BitVec w := (imm ++ (0 : BitVec 12)).signExtend w

/-- B-imm: the field above its unencoded bit 0, sign-extended (R65). -/
def immB (w : Nat) (off : BitVec 12) : BitVec w := (off ++ (0 : BitVec 1)).signExtend w

/-- J-imm: the field above its unencoded bit 0, sign-extended (R65). -/
def immJ (w : Nat) (off : BitVec 20) : BitVec w := (off ++ (0 : BitVec 1)).signExtend w

/-- The shift amount or bit index of a register form: the low `log2(w)` bits of the register, for
`w` = 32 or 64 (40_integer_computational.md R100, 46_zbs.md R230). -/
def regShamt {w : Nat} (v : BitVec w) : Nat := v.toNat % w

/-- The low 32 bits of a register (R100). -/
def low32 {w : Nat} (v : BitVec w) : BitVec 32 := v.setWidth 32

/-- `sext_64` of a 32-bit result: how every W form writes its result (R100). -/
def sextW (w : Nat) (v : BitVec 32) : BitVec w := v.signExtend w

/-- `zext32`: the low 32 bits with the rest cleared (45_zba.md R220). -/
def zext32 {w : Nat} (v : BitVec w) : BitVec w := (v.setWidth 32).setWidth w

/-- The effective address of a load or store: base plus sign-extended offset, modulo 2^XLEN
(42_load_store.md R170). -/
def effAddr (s : State) (rs1 : Reg) (imm : BitVec 12) : s.Word := s.x rs1 + imm12 _ imm

end Sys2Proof.Machine
end

