-- ==== Sys2Proof/Machine/Control.lean ====
section
/-! DEFINITION. Jumps and branches (spec/41_control_transfer.md R150 to R158). None checks its target's
alignment: a misaligned target fails the next fetch (R150). Sources are read before `rd` is written. -/

namespace Sys2Proof.Machine

/-- Write the link value `pc + 4` to `rd` and continue at the target (R150). -/
def State.link (s : State) (rd : Reg) (target : s.Word) : StepOutcome :=
  s.continueAt (s.hart.setX rd (s.pc + 4)) target

/-- Continue at `pc + B-imm` when the condition holds, else at `pc + 4`. -/
def State.branch (s : State) (taken : Bool) (off : BitVec 12) : StepOutcome :=
  s.continueAt s.hart (if taken then s.pc + immB _ off else s.seqPc)

/-- R151. -/
def execJal (rd : Reg) (off : BitVec 20) (s : State) : StepOutcome := s.link rd (s.pc + immJ _ off)

/-- R152: bit 0 of the sum is cleared. -/
def execJalr (rd rs1 : Reg) (imm : BitVec 12) (s : State) : StepOutcome :=
  s.link rd ((s.x rs1 + imm12 _ imm) &&& ~~~1)

/-- R153. -/
def execBeq (rs1 rs2 : Reg) (off : BitVec 12) (s : State) : StepOutcome :=
  s.branch (s.x rs1 == s.x rs2) off

/-- R154. -/
def execBne (rs1 rs2 : Reg) (off : BitVec 12) (s : State) : StepOutcome :=
  s.branch (s.x rs1 != s.x rs2) off

/-- R155. -/
def execBlt (rs1 rs2 : Reg) (off : BitVec 12) (s : State) : StepOutcome :=
  s.branch (ltS (s.x rs1) (s.x rs2)) off

/-- R156. -/
def execBge (rs1 rs2 : Reg) (off : BitVec 12) (s : State) : StepOutcome :=
  s.branch (!ltS (s.x rs1) (s.x rs2)) off

/-- R157. -/
def execBltu (rs1 rs2 : Reg) (off : BitVec 12) (s : State) : StepOutcome :=
  s.branch (ltU (s.x rs1) (s.x rs2)) off

/-- R158. -/
def execBgeu (rs1 rs2 : Reg) (off : BitVec 12) (s : State) : StepOutcome :=
  s.branch (!ltU (s.x rs1) (s.x rs2)) off

end Sys2Proof.Machine
end

