-- ==== Sys2Proof/Machine/Integer.lean ====
section
/-! DEFINITION. The integer computational instructions (spec/40_integer_computational.md R101 to R121).
Each reads its sources, writes `rd` and continues at pc + 4; none touches memory or raises an error (R100). -/

namespace Sys2Proof.Machine

/-! ## Upper immediates -/

/-- R101. -/
def execLui (rd : Reg) (imm : BitVec 20) (s : State) : StepOutcome := s.retire rd (immU _ imm)

/-- R102. -/
def execAuipc (rd : Reg) (imm : BitVec 20) (s : State) : StepOutcome := s.retire rd (s.pc + immU _ imm)

/-! ## Register-immediate -/

/-- R103. -/
def execAddi (rd rs1 : Reg) (imm : BitVec 12) (s : State) : StepOutcome :=
  s.retire rd (s.x rs1 + imm12 _ imm)

/-- R104. -/
def execSlti (rd rs1 : Reg) (imm : BitVec 12) (s : State) : StepOutcome :=
  s.retire rd (boolWord _ (ltS (s.x rs1) (imm12 _ imm)))

/-- R105: the immediate is sign-extended, then compared as unsigned. -/
def execSltiu (rd rs1 : Reg) (imm : BitVec 12) (s : State) : StepOutcome :=
  s.retire rd (boolWord _ (ltU (s.x rs1) (imm12 _ imm)))

/-- R106. -/
def execXori (rd rs1 : Reg) (imm : BitVec 12) (s : State) : StepOutcome :=
  s.retire rd (s.x rs1 ^^^ imm12 _ imm)

/-- R107. -/
def execOri (rd rs1 : Reg) (imm : BitVec 12) (s : State) : StepOutcome :=
  s.retire rd (s.x rs1 ||| imm12 _ imm)

/-- R108. -/
def execAndi (rd rs1 : Reg) (imm : BitVec 12) (s : State) : StepOutcome :=
  s.retire rd (s.x rs1 &&& imm12 _ imm)

/-- R109. -/
def execSlli (rd rs1 : Reg) (shamt : BitVec 6) (s : State) : StepOutcome :=
  s.retire rd (s.x rs1 <<< shamt.toNat)

/-- R110. -/
def execSrli (rd rs1 : Reg) (shamt : BitVec 6) (s : State) : StepOutcome :=
  s.retire rd (s.x rs1 >>> shamt.toNat)

/-- R111. -/
def execSrai (rd rs1 : Reg) (shamt : BitVec 6) (s : State) : StepOutcome :=
  s.retire rd ((s.x rs1).sshiftRight shamt.toNat)

/-! ## Register-register -/

/-- R112. -/
def execAdd (rd rs1 rs2 : Reg) (s : State) : StepOutcome := s.retire rd (s.x rs1 + s.x rs2)

/-- R113. -/
def execSub (rd rs1 rs2 : Reg) (s : State) : StepOutcome := s.retire rd (s.x rs1 - s.x rs2)

/-- R114. -/
def execSll (rd rs1 rs2 : Reg) (s : State) : StepOutcome :=
  s.retire rd (s.x rs1 <<< regShamt (s.x rs2))

/-- R115. -/
def execSlt (rd rs1 rs2 : Reg) (s : State) : StepOutcome :=
  s.retire rd (boolWord _ (ltS (s.x rs1) (s.x rs2)))

/-- R116. -/
def execSltu (rd rs1 rs2 : Reg) (s : State) : StepOutcome :=
  s.retire rd (boolWord _ (ltU (s.x rs1) (s.x rs2)))

/-- R117. -/
def execXor (rd rs1 rs2 : Reg) (s : State) : StepOutcome := s.retire rd (s.x rs1 ^^^ s.x rs2)

/-- R118. -/
def execSrl (rd rs1 rs2 : Reg) (s : State) : StepOutcome :=
  s.retire rd (s.x rs1 >>> regShamt (s.x rs2))

/-- R119. -/
def execSra (rd rs1 rs2 : Reg) (s : State) : StepOutcome :=
  s.retire rd ((s.x rs1).sshiftRight (regShamt (s.x rs2)))

/-- R120. -/
def execOr (rd rs1 rs2 : Reg) (s : State) : StepOutcome := s.retire rd (s.x rs1 ||| s.x rs2)

/-- R121. -/
def execAnd (rd rs1 rs2 : Reg) (s : State) : StepOutcome := s.retire rd (s.x rs1 &&& s.x rs2)

end Sys2Proof.Machine
end

