-- ==== Sys2Proof/Machine/IntegerW.lean ====
section
/-! DEFINITION. The word operations of XLEN = 64 (spec/40_integer_computational.md R122 to R130): each
computes on the low 32 bits and writes `sext_64` of a 32-bit result (R100). With XLEN = 32 their words do
not decode (30_encoding.md R79), so these meanings are then never reached (log 12). -/

namespace Sys2Proof.Machine

/-- The shift amount of a W form: the low 5 bits of the register (R100). -/
def regShamtW {w : Nat} (v : BitVec w) : Nat := v.toNat % 32

/-- R122. -/
def execAddiw (rd rs1 : Reg) (imm : BitVec 12) (s : State) : StepOutcome :=
  s.retire rd (sextW _ (low32 (s.x rs1 + imm12 _ imm)))

/-- R123. -/
def execSlliw (rd rs1 : Reg) (shamt : BitVec 5) (s : State) : StepOutcome :=
  s.retire rd (sextW _ (low32 (s.x rs1) <<< shamt.toNat))

/-- R124. -/
def execSrliw (rd rs1 : Reg) (shamt : BitVec 5) (s : State) : StepOutcome :=
  s.retire rd (sextW _ (low32 (s.x rs1) >>> shamt.toNat))

/-- R125. -/
def execSraiw (rd rs1 : Reg) (shamt : BitVec 5) (s : State) : StepOutcome :=
  s.retire rd (sextW _ ((low32 (s.x rs1)).sshiftRight shamt.toNat))

/-- R126. -/
def execAddw (rd rs1 rs2 : Reg) (s : State) : StepOutcome :=
  s.retire rd (sextW _ (low32 (s.x rs1 + s.x rs2)))

/-- R127. -/
def execSubw (rd rs1 rs2 : Reg) (s : State) : StepOutcome :=
  s.retire rd (sextW _ (low32 (s.x rs1 - s.x rs2)))

/-- R128. -/
def execSllw (rd rs1 rs2 : Reg) (s : State) : StepOutcome :=
  s.retire rd (sextW _ (low32 (s.x rs1) <<< regShamtW (s.x rs2)))

/-- R129. -/
def execSrlw (rd rs1 rs2 : Reg) (s : State) : StepOutcome :=
  s.retire rd (sextW _ (low32 (s.x rs1) >>> regShamtW (s.x rs2)))

/-- R130. -/
def execSraw (rd rs1 rs2 : Reg) (s : State) : StepOutcome :=
  s.retire rd (sextW _ ((low32 (s.x rs1)).sshiftRight (regShamtW (s.x rs2))))

end Sys2Proof.Machine
end

