-- ==== Sys2Proof/Machine/LoadStore.lean ====
section
/-! DEFINITION. Loads and stores (spec/42_load_store.md R170 to R181). Each makes one access of `n` bytes;
a load into x0 still makes its read (R170). LWU, LD and SD exist only with XLEN = 64. -/

namespace Sys2Proof.Machine

/-- R171. -/
def execLb (rd rs1 : Reg) (imm : BitVec 12) (s : State) : StepOutcome :=
  s.loadInto (.lb rd rs1 imm) rd (effAddr s rs1 imm) 1 (·.signExtend _)

/-- R172. -/
def execLh (rd rs1 : Reg) (imm : BitVec 12) (s : State) : StepOutcome :=
  s.loadInto (.lh rd rs1 imm) rd (effAddr s rs1 imm) 2 (·.signExtend _)

/-- R173. -/
def execLw (rd rs1 : Reg) (imm : BitVec 12) (s : State) : StepOutcome :=
  s.loadInto (.lw rd rs1 imm) rd (effAddr s rs1 imm) 4 (·.signExtend _)

/-- R174. -/
def execLbu (rd rs1 : Reg) (imm : BitVec 12) (s : State) : StepOutcome :=
  s.loadInto (.lbu rd rs1 imm) rd (effAddr s rs1 imm) 1 (·.setWidth _)

/-- R175. -/
def execLhu (rd rs1 : Reg) (imm : BitVec 12) (s : State) : StepOutcome :=
  s.loadInto (.lhu rd rs1 imm) rd (effAddr s rs1 imm) 2 (·.setWidth _)

/-- R176. -/
def execLwu (rd rs1 : Reg) (imm : BitVec 12) (s : State) : StepOutcome :=
  s.loadInto (.lwu rd rs1 imm) rd (effAddr s rs1 imm) 4 (·.setWidth _)

/-- R177. -/
def execLd (rd rs1 : Reg) (imm : BitVec 12) (s : State) : StepOutcome :=
  s.loadInto (.ld rd rs1 imm) rd (effAddr s rs1 imm) 8 (·.setWidth _)

/-- R178. -/
def execSb (rs1 rs2 : Reg) (imm : BitVec 12) (s : State) : StepOutcome :=
  s.storeFrom (.sb rs1 rs2 imm) rs2 (effAddr s rs1 imm) 1

/-- R179. -/
def execSh (rs1 rs2 : Reg) (imm : BitVec 12) (s : State) : StepOutcome :=
  s.storeFrom (.sh rs1 rs2 imm) rs2 (effAddr s rs1 imm) 2

/-- R180. -/
def execSw (rs1 rs2 : Reg) (imm : BitVec 12) (s : State) : StepOutcome :=
  s.storeFrom (.sw rs1 rs2 imm) rs2 (effAddr s rs1 imm) 4

/-- R181. -/
def execSd (rs1 rs2 : Reg) (imm : BitVec 12) (s : State) : StepOutcome :=
  s.storeFrom (.sd rs1 rs2 imm) rs2 (effAddr s rs1 imm) 8

end Sys2Proof.Machine
end

