-- ==== Sys2Proof/Machine/MulDiv.lean ====
section
/-! DEFINITION. Multiply and divide (spec/44_mul_div.md R200 to R213), as exact integer arithmetic that is
narrowed at the end. Zmmul runs the same rules (R214, R215; 90_conflicts.md C2). No division raises an
error: division by zero and signed overflow have the results R200 gives. -/

namespace Sys2Proof.Machine

/-- The high `w` bits of an exact product (R200). -/
def highHalf (w : Nat) (product : Int) : BitVec w := BitVec.ofInt w (product >>> w)

/-- The signed quotient, rounded toward zero, at operation width `w` (R206, R210). -/
def divS {w : Nat} (a b : BitVec w) : BitVec w :=
  if b = 0 then BitVec.allOnes w
  else if a = BitVec.intMin w ∧ b = BitVec.allOnes w then a
  else BitVec.ofInt w (a.toInt.tdiv b.toInt)

/-- The unsigned quotient at operation width `w` (R207, R211). -/
def divU {w : Nat} (a b : BitVec w) : BitVec w :=
  if b = 0 then BitVec.allOnes w else BitVec.ofNat w (a.toNat / b.toNat)

/-- The signed remainder, `a - trunc(a / b) * b`, at operation width `w` (R208, R212). -/
def remS {w : Nat} (a b : BitVec w) : BitVec w :=
  if b = 0 then a
  else if a = BitVec.intMin w ∧ b = BitVec.allOnes w then 0
  else BitVec.ofInt w (a.toInt - a.toInt.tdiv b.toInt * b.toInt)

/-- The unsigned remainder at operation width `w` (R209, R213). -/
def remU {w : Nat} (a b : BitVec w) : BitVec w :=
  if b = 0 then a else BitVec.ofNat w (a.toNat % b.toNat)

/-- R201. -/
def execMul (rd rs1 rs2 : Reg) (s : State) : StepOutcome := s.retire rd (s.x rs1 * s.x rs2)

/-- R202. -/
def execMulh (rd rs1 rs2 : Reg) (s : State) : StepOutcome :=
  s.retire rd (highHalf _ ((s.x rs1).toInt * (s.x rs2).toInt))

/-- R203: `rs1` signed, `rs2` unsigned. -/
def execMulhsu (rd rs1 rs2 : Reg) (s : State) : StepOutcome :=
  s.retire rd (highHalf _ ((s.x rs1).toInt * ((s.x rs2).toNat : Int)))

/-- R204. -/
def execMulhu (rd rs1 rs2 : Reg) (s : State) : StepOutcome :=
  s.retire rd (highHalf _ (((s.x rs1).toNat : Int) * ((s.x rs2).toNat : Int)))

/-- R205. -/
def execMulw (rd rs1 rs2 : Reg) (s : State) : StepOutcome :=
  s.retire rd (sextW _ (low32 (s.x rs1) * low32 (s.x rs2)))

/-- R206. -/
def execDiv (rd rs1 rs2 : Reg) (s : State) : StepOutcome := s.retire rd (divS (s.x rs1) (s.x rs2))

/-- R207. -/
def execDivu (rd rs1 rs2 : Reg) (s : State) : StepOutcome := s.retire rd (divU (s.x rs1) (s.x rs2))

/-- R208. -/
def execRem (rd rs1 rs2 : Reg) (s : State) : StepOutcome := s.retire rd (remS (s.x rs1) (s.x rs2))

/-- R209. -/
def execRemu (rd rs1 rs2 : Reg) (s : State) : StepOutcome := s.retire rd (remU (s.x rs1) (s.x rs2))

/-- R210. -/
def execDivw (rd rs1 rs2 : Reg) (s : State) : StepOutcome :=
  s.retire rd (sextW _ (divS (low32 (s.x rs1)) (low32 (s.x rs2))))

/-- R211: unsigned, and still sign-extended. -/
def execDivuw (rd rs1 rs2 : Reg) (s : State) : StepOutcome :=
  s.retire rd (sextW _ (divU (low32 (s.x rs1)) (low32 (s.x rs2))))

/-- R212. -/
def execRemw (rd rs1 rs2 : Reg) (s : State) : StepOutcome :=
  s.retire rd (sextW _ (remS (low32 (s.x rs1)) (low32 (s.x rs2))))

/-- R213: unsigned, and still sign-extended. -/
def execRemuw (rd rs1 rs2 : Reg) (s : State) : StepOutcome :=
  s.retire rd (sextW _ (remU (low32 (s.x rs1)) (low32 (s.x rs2))))

end Sys2Proof.Machine
end

