-- ==== Sys2Proof/Machine/System.lean ====
section
/-! DEFINITION. FENCE, ECALL and EBREAK (spec/43_system.md R190 to R193). None reads or writes a general
register or memory, and none raises an error. -/

namespace Sys2Proof.Machine

/-- R190: nothing, since every access is already ordered; its fields are ignored (30_encoding.md R93). -/
def execFence (_fm _pred _succ : BitVec 4) (_rs1 _rd : BitVec 5) (s : State) : StepOutcome :=
  s.continueAt s.hart s.seqPc

/-- R191: `Break`, with the pc left at the ECALL. -/
def execEcall (s : State) : StepOutcome := s.breakRun

/-- R192: `Break`, with the pc left at the EBREAK. -/
def execEbreak (s : State) : StepOutcome := s.breakRun

end Sys2Proof.Machine
end

