-- ==== Sys2Proof/Machine/Zba.lean ====
section
/-! DEFINITION. Address generation (spec/45_zba.md R220 to R228): shift `rs1`, add `rs2`, modulo 2^XLEN.
The `.uw` forms, XLEN = 64 only, first zero-extend the low word of `rs1`. -/

namespace Sys2Proof.Machine

/-- `rs2 + (a << k)`, the sum of the shift-and-add forms (R221 to R227). -/
def shiftAdd {w : Nat} (k : Nat) (a b : BitVec w) : BitVec w := b + (a <<< k)

/-- R221. -/
def execSh1add (rd rs1 rs2 : Reg) (s : State) : StepOutcome :=
  s.retire rd (shiftAdd 1 (s.x rs1) (s.x rs2))

/-- R222. -/
def execSh2add (rd rs1 rs2 : Reg) (s : State) : StepOutcome :=
  s.retire rd (shiftAdd 2 (s.x rs1) (s.x rs2))

/-- R223. -/
def execSh3add (rd rs1 rs2 : Reg) (s : State) : StepOutcome :=
  s.retire rd (shiftAdd 3 (s.x rs1) (s.x rs2))

/-- R224: only `rs1` is zero-extended. -/
def execAddUw (rd rs1 rs2 : Reg) (s : State) : StepOutcome :=
  s.retire rd (s.x rs2 + zext32 (s.x rs1))

/-- R225. -/
def execSh1addUw (rd rs1 rs2 : Reg) (s : State) : StepOutcome :=
  s.retire rd (shiftAdd 1 (zext32 (s.x rs1)) (s.x rs2))

/-- R226. -/
def execSh2addUw (rd rs1 rs2 : Reg) (s : State) : StepOutcome :=
  s.retire rd (shiftAdd 2 (zext32 (s.x rs1)) (s.x rs2))

/-- R227. -/
def execSh3addUw (rd rs1 rs2 : Reg) (s : State) : StepOutcome :=
  s.retire rd (shiftAdd 3 (zext32 (s.x rs1)) (s.x rs2))

/-- R228. -/
def execSlliUw (rd rs1 : Reg) (shamt : BitVec 6) (s : State) : StepOutcome :=
  s.retire rd (zext32 (s.x rs1) <<< shamt.toNat)

end Sys2Proof.Machine
end

