-- ==== Sys2Proof/Machine/Zbc.lean ====
section
/-! DEFINITION. Carry-less multiplication (spec/47_zbc_zbkc.md R240 to R243). CLMULR is `p >> (XLEN - 1)`, the
public ISA's, and not the source's `p >> 1` (R243, 90_conflicts.md C1). Zbkc runs the same rules (R244). -/

namespace Sys2Proof.Machine

/-- The XOR of `a << i` over the bits `i < k` of `b` that are set, at twice the width. -/
def clmulBelow {w : Nat} (a b : BitVec w) : Nat → BitVec (2 * w)
  | 0 => 0
  | k + 1 => clmulBelow a b k ^^^ if b.getLsbD k then a.setWidth (2 * w) <<< k else 0

/-- The carry-less product, 2·XLEN bits (R240). -/
def clmul2 {w : Nat} (a b : BitVec w) : BitVec (2 * w) := clmulBelow a b w

/-- R241: the low half. -/
def execClmul (rd rs1 rs2 : Reg) (s : State) : StepOutcome :=
  s.retire rd ((clmul2 (s.x rs1) (s.x rs2)).extractLsb' 0 _)

/-- R242: the high half. -/
def execClmulh (rd rs1 rs2 : Reg) (s : State) : StepOutcome :=
  s.retire rd ((clmul2 (s.x rs1) (s.x rs2)).extractLsb' s.cfg.xlen.bits _)

/-- R243: bits 2·XLEN-2 down to XLEN-1. -/
def execClmulr (rd rs1 rs2 : Reg) (s : State) : StepOutcome :=
  s.retire rd ((clmul2 (s.x rs1) (s.x rs2)).extractLsb' (s.cfg.xlen.bits - 1) _)

end Sys2Proof.Machine
end

