-- ==== Sys2Proof/Machine/Zbs.lean ====
section
/-! DEFINITION. Single-bit manipulation (spec/46_zbs.md R230 to R238). The index of a register form is
`x[rs2] & (XLEN - 1)`, that of an immediate form its shift-amount field (R230). -/

namespace Sys2Proof.Machine

/-- `bit(idx)`: only bit `idx` set (R230). -/
def bitAt (w idx : Nat) : BitVec w := 1 <<< idx

/-- Set bit `idx` (R231, R235). -/
def setBit {w : Nat} (v : BitVec w) (idx : Nat) : BitVec w := v ||| bitAt w idx

/-- Clear bit `idx` (R232, R236). -/
def clearBit {w : Nat} (v : BitVec w) (idx : Nat) : BitVec w := v &&& ~~~bitAt w idx

/-- Invert bit `idx` (R233, R237). -/
def invertBit {w : Nat} (v : BitVec w) (idx : Nat) : BitVec w := v ^^^ bitAt w idx

/-- Extract bit `idx` as 0 or 1 (R234, R238). -/
def extractBit {w : Nat} (v : BitVec w) (idx : Nat) : BitVec w := (v >>> idx) &&& 1

/-- R231. -/
def execBset (rd rs1 rs2 : Reg) (s : State) : StepOutcome :=
  s.retire rd (setBit (s.x rs1) (regShamt (s.x rs2)))

/-- R232. -/
def execBclr (rd rs1 rs2 : Reg) (s : State) : StepOutcome :=
  s.retire rd (clearBit (s.x rs1) (regShamt (s.x rs2)))

/-- R233. -/
def execBinv (rd rs1 rs2 : Reg) (s : State) : StepOutcome :=
  s.retire rd (invertBit (s.x rs1) (regShamt (s.x rs2)))

/-- R234. -/
def execBext (rd rs1 rs2 : Reg) (s : State) : StepOutcome :=
  s.retire rd (extractBit (s.x rs1) (regShamt (s.x rs2)))

/-- R235. -/
def execBseti (rd rs1 : Reg) (shamt : BitVec 6) (s : State) : StepOutcome :=
  s.retire rd (setBit (s.x rs1) shamt.toNat)

/-- R236. -/
def execBclri (rd rs1 : Reg) (shamt : BitVec 6) (s : State) : StepOutcome :=
  s.retire rd (clearBit (s.x rs1) shamt.toNat)

/-- R237. -/
def execBinvi (rd rs1 : Reg) (shamt : BitVec 6) (s : State) : StepOutcome :=
  s.retire rd (invertBit (s.x rs1) shamt.toNat)

/-- R238. -/
def execBexti (rd rs1 : Reg) (shamt : BitVec 6) (s : State) : StepOutcome :=
  s.retire rd (extractBit (s.x rs1) shamt.toNat)

end Sys2Proof.Machine
end

