-- ==== Sys2Proof/Machine/Hook.lean ====
section
/-! DEFINITION. The hook path: what a step does with a word that does not decode (spec/60_exceptions.md
R308 to R312). -/

namespace Sys2Proof.Machine

/-- The registers and the pc as they are handed to the hook: the pc is the word's address, and registers are as
the previous step left them (R310). -/
def State.hookView (s : State) : HookView where
  xlen := s.cfg.xlen
  regs := (s.hart.regs.toList.map (·.setWidth 64)).set 0 0
  pc := s.pc.setWidth 64

/-- What the hook gets for a read of memory through the accessor: the zero-extended value, or a refusal (R310,
20_memory.md R41). -/
def State.hookRead (s : State) (addr : BitVec 64) (size : AccessSize) : Option (BitVec 64) :=
  (memRead s.cfg.accessor s.hart.mem .load (addr.setWidth s.cfg.xlen.bits) size.bytes).map (·.setWidth 64)

/-- Whether the accessor would serve a write of the hook's (20_memory.md R42). -/
def State.hookStores (s : State) (addr : BitVec 64) (size : AccessSize) : Bool :=
  accessorGrants s.cfg.accessor .store (addr.setWidth s.cfg.xlen.bits) size.bytes

/-- What the configured hook answers. A core without a hook does with the word what a hook that declines
makes it do (R308). -/
def State.hookAnswer (s : State) (w : InsnWord) : HookAnswer s.cfg.customErrors :=
  match s.cfg.hook with
  | .none => .decline
  | .scripted rules => ((rules.find? (·.1 = w)).map (·.2)).getD .decline
  | .embedder => Config.embedderHook s.cfg.customErrors w s.hookView s.hookRead s.hookStores

/-- One thing the hook does (R310): a write to x0 is discarded, and a store goes through the accessor, which may
refuse it. What the spec leaves open is the model's choice: values are truncated and a refused store changes nothing
(log 6), and a write of a register the core does not have, x16 to x31 with NREG = 16, changes nothing (log 18). -/
def applyEffect {w n : Nat} {t : CustomErrorType} (acc : Accessor) (h : Hart w n t) : HookEffect → Hart w n t
  | .setReg r v => h.setX r (v.setWidth w)
  | .setPc v => { h with pc := v.setWidth w }
  | .store addr size v =>
    match memWrite acc h.mem (addr.setWidth w) size.bytes (v.setWidth _) with
    | some m => { h with mem := m }
    | none => h

/-- What the hook's effects leave, applied in order (log 6). -/
def applyEffects {w n : Nat} {t : CustomErrorType} (acc : Accessor) (h : Hart w n t) (effects : List HookEffect) :
    Hart w n t :=
  effects.foldl (applyEffect acc) h

/-- The hook path (R308). After `Continue` the pc advances by 4 from the value the hook left (R311); an
error carries the address of the word, and the hook's changes stay (R312). -/
def State.hookPath (s : State) (w : InsnWord) : StepOutcome :=
  match s.hookAnswer w with
  | .decline => s.fail (.illegalInstruction s.pc w)
  | .done effects out =>
    let h := applyEffects s.cfg.accessor s.hart effects
    match out with
    | .cont => s.continueAt h (h.pc + 4)
    | .brk => .next { s with hart := { h with status := .stopped } }
    | .fault k =>
      .next { s with hart :=
        { h with status := .failed (.executionFault s.pc (some w) none (.hostFault k)) } }
    | .custom c => .next { s with hart := { h with status := .failed (.custom s.pc w c) } }

end Sys2Proof.Machine
end

