-- ==== Sys2Proof/Machine/Fetch.lean ====
section
/-! DEFINITION. What a step does before an instruction's rule runs: the alignment check, the fetch, the
decode and, when nothing decodes, the hook path (spec/60_exceptions.md R300 to R303, R324). -/

namespace Sys2Proof.Machine

/-- `MemFetch(pc)`: the 4 bytes at the pc as a little-endian word (20_memory.md R43). -/
def State.fetch (s : State) : Option InsnWord :=
  memRead s.cfg.accessor s.hart.mem .fetch s.pc 4

/-- The instruction whose rule the step runs, or, when the step ends before any rule runs, its
outcome (R300). -/
def State.prepare (s : State) : Except StepOutcome Instr :=
  if s.pc.toNat % 4 != 0 then .error (s.fail (.unalignedFetch s.pc))
  else
    match s.fetch with
    | none => .error (s.fail (.executionFault s.pc none none (.fetchAccess s.pc)))
    | some w =>
      match decodeWord s.cfg w with
      | some d => .ok d.insn
      | none => .error (s.hookPath w)

/-- The state with a 4-byte word stored at the pc. -/
def State.storeAtPc (s : State) (w : InsnWord) : State :=
  { s with hart := { s.hart with mem := s.hart.mem.store s.pc 4 w } }

end Sys2Proof.Machine
end

