-- ==== Sys2Proof/Machine/Step.lean ====
section
/-! DEFINITION. One step of a run (spec/60_exceptions.md R300), and how a word is placed where the next step
fetches it. -/

namespace Sys2Proof.Machine

/-- One step: a run that has ended takes none (10_state.md R36, 60_exceptions.md R322; log 9). -/
def step (s : State) : Host.Outcome State Fault Refusal :=
  match s.hart.status with
  | .stopped => .fault .runStopped
  | .failed _ => .fault .runFailed
  | .running =>
    match s.prepare with
    | .ok i => exec i s
    | .error outcome => outcome

/-- The state with a table row's word stored at the pc. It stands for the embedder's load of a program
(70_reset_and_hazards.md R353; log 14). -/
def State.withFetchWord (s : State) (nbits w : Nat) : State := s.storeAtPc (wordOfTableBits nbits w)

end Sys2Proof.Machine
end

