-- ==== Sys2Proof/Machine/Asm.lean ====
section
/-! DEFINITION. The assembler's view of the core: register names (spec/10_state.md R24), the mnemonics of
opcode_table.json, the syntax of an instruction (30_encoding.md R96), branch and jump targets (R97), and the
expansions of the pseudo-instructions (R98). None of it is used by a step. -/

namespace Sys2Proof

open Sys2Proof.Machine

/-! ## Names -/

/-- `x0` to `x31` (R96). -/
def Reg.name (r : Reg) : String := "x" ++ toString r.val

/-- The ABI names in register order (10_state.md R24). -/
def abiNames : List String :=
  ["zero", "ra", "sp", "gp", "tp", "t0", "t1", "t2", "s0", "s1", "a0", "a1", "a2", "a3", "a4", "a5"]
    ++ ["a6", "a7", "s2", "s3", "s4", "s5", "s6", "s7", "s8", "s9", "s10", "s11", "t3", "t4", "t5", "t6"]

/-- The register a name stands for: `x<n>`, an ABI name, or `fp`, the second name of x8. -/
def Reg.ofName (name : String) : Option Reg :=
  if name = "fp" then some 8
  else (List.finRange 32).find? fun r => r.name = name ∨ abiNames[r.val]? = some name

/-- The assembler spelling of a mnemonic (R96). -/
def Op.mnemonic : Op → String
  | .lui => "lui"
  | .auipc => "auipc"
  | .addi => "addi"
  | .slti => "slti"
  | .sltiu => "sltiu"
  | .xori => "xori"
  | .ori => "ori"
  | .andi => "andi"
  | .slli => "slli"
  | .srli => "srli"
  | .srai => "srai"
  | .add => "add"
  | .sub => "sub"
  | .sll => "sll"
  | .slt => "slt"
  | .sltu => "sltu"
  | .xor => "xor"
  | .srl => "srl"
  | .sra => "sra"
  | .or => "or"
  | .and => "and"
  | .addiw => "addiw"
  | .slliw => "slliw"
  | .srliw => "srliw"
  | .sraiw => "sraiw"
  | .addw => "addw"
  | .subw => "subw"
  | .sllw => "sllw"
  | .srlw => "srlw"
  | .sraw => "sraw"
  | .jal => "jal"
  | .jalr => "jalr"
  | .beq => "beq"
  | .bne => "bne"
  | .blt => "blt"
  | .bge => "bge"
  | .bltu => "bltu"
  | .bgeu => "bgeu"
  | .lb => "lb"
  | .lh => "lh"
  | .lw => "lw"
  | .lbu => "lbu"
  | .lhu => "lhu"
  | .lwu => "lwu"
  | .ld => "ld"
  | .sb => "sb"
  | .sh => "sh"
  | .sw => "sw"
  | .sd => "sd"
  | .fence => "fence"
  | .ecall => "ecall"
  | .ebreak => "ebreak"
  | .mul => "mul"
  | .mulh => "mulh"
  | .mulhsu => "mulhsu"
  | .mulhu => "mulhu"
  | .mulw => "mulw"
  | .div => "div"
  | .divu => "divu"
  | .rem => "rem"
  | .remu => "remu"
  | .divw => "divw"
  | .divuw => "divuw"
  | .remw => "remw"
  | .remuw => "remuw"
  | .sh1add => "sh1add"
  | .sh2add => "sh2add"
  | .sh3add => "sh3add"
  | .addUw => "add.uw"
  | .sh1addUw => "sh1add.uw"
  | .sh2addUw => "sh2add.uw"
  | .sh3addUw => "sh3add.uw"
  | .slliUw => "slli.uw"
  | .bset => "bset"
  | .bclr => "bclr"
  | .binv => "binv"
  | .bext => "bext"
  | .bseti => "bseti"
  | .bclri => "bclri"
  | .binvi => "binvi"
  | .bexti => "bexti"
  | .clmul => "clmul"
  | .clmulr => "clmulr"
  | .clmulh => "clmulh"

/-! ## Instruction text (R96, R97) -/

def line2 (op a b : String) : String := op ++ " " ++ a ++ ", " ++ b
def line3 (op a b c : String) : String := op ++ " " ++ a ++ ", " ++ b ++ ", " ++ c

def signedText {k : Nat} (v : BitVec k) : String := toString v.toInt
def unsignedText {k : Nat} (v : BitVec k) : String := toString v.toNat

/-- `imm(rs1)`. -/
def baseText (imm : BitVec 12) (rs1 : Reg) : String := signedText imm ++ "(" ++ rs1.name ++ ")"

/-- A target as an absolute address (R97). -/
def targetText {w : Nat} (pc offset : BitVec w) : String := toString (pc + offset).toNat

/-- A subset of `iorw`, as FENCE's `pred` and `succ` name it (43_system.md R190); `0` when empty. -/
def orderText (v : BitVec 4) : String :=
  if v = 0 then "0"
  else
    (if v.getLsbD 3 then "i" else "") ++ (if v.getLsbD 2 then "o" else "")
      ++ (if v.getLsbD 1 then "r" else "") ++ (if v.getLsbD 0 then "w" else "")

/-- The text of an instruction at an address; numbers are decimal. -/
def Instr.text {w : Nat} (pc : BitVec w) : Instr → String
  | .lui rd imm => line2 "lui" rd.name (unsignedText imm)
  | .auipc rd imm => line2 "auipc" rd.name (unsignedText imm)
  | .addi rd rs1 imm => line3 "addi" rd.name rs1.name (signedText imm)
  | .slti rd rs1 imm => line3 "slti" rd.name rs1.name (signedText imm)
  | .sltiu rd rs1 imm => line3 "sltiu" rd.name rs1.name (signedText imm)
  | .xori rd rs1 imm => line3 "xori" rd.name rs1.name (signedText imm)
  | .ori rd rs1 imm => line3 "ori" rd.name rs1.name (signedText imm)
  | .andi rd rs1 imm => line3 "andi" rd.name rs1.name (signedText imm)
  | .slli rd rs1 shamt => line3 "slli" rd.name rs1.name (unsignedText shamt)
  | .srli rd rs1 shamt => line3 "srli" rd.name rs1.name (unsignedText shamt)
  | .srai rd rs1 shamt => line3 "srai" rd.name rs1.name (unsignedText shamt)
  | .add rd rs1 rs2 => line3 "add" rd.name rs1.name rs2.name
  | .sub rd rs1 rs2 => line3 "sub" rd.name rs1.name rs2.name
  | .sll rd rs1 rs2 => line3 "sll" rd.name rs1.name rs2.name
  | .slt rd rs1 rs2 => line3 "slt" rd.name rs1.name rs2.name
  | .sltu rd rs1 rs2 => line3 "sltu" rd.name rs1.name rs2.name
  | .xor rd rs1 rs2 => line3 "xor" rd.name rs1.name rs2.name
  | .srl rd rs1 rs2 => line3 "srl" rd.name rs1.name rs2.name
  | .sra rd rs1 rs2 => line3 "sra" rd.name rs1.name rs2.name
  | .or rd rs1 rs2 => line3 "or" rd.name rs1.name rs2.name
  | .and rd rs1 rs2 => line3 "and" rd.name rs1.name rs2.name
  | .addiw rd rs1 imm => line3 "addiw" rd.name rs1.name (signedText imm)
  | .slliw rd rs1 shamt => line3 "slliw" rd.name rs1.name (unsignedText shamt)
  | .srliw rd rs1 shamt => line3 "srliw" rd.name rs1.name (unsignedText shamt)
  | .sraiw rd rs1 shamt => line3 "sraiw" rd.name rs1.name (unsignedText shamt)
  | .addw rd rs1 rs2 => line3 "addw" rd.name rs1.name rs2.name
  | .subw rd rs1 rs2 => line3 "subw" rd.name rs1.name rs2.name
  | .sllw rd rs1 rs2 => line3 "sllw" rd.name rs1.name rs2.name
  | .srlw rd rs1 rs2 => line3 "srlw" rd.name rs1.name rs2.name
  | .sraw rd rs1 rs2 => line3 "sraw" rd.name rs1.name rs2.name
  | .jal rd off => line2 "jal" rd.name (targetText pc (immJ w off))
  | .jalr rd rs1 imm => line2 "jalr" rd.name (baseText imm rs1)
  | .beq rs1 rs2 off => line3 "beq" rs1.name rs2.name (targetText pc (immB w off))
  | .bne rs1 rs2 off => line3 "bne" rs1.name rs2.name (targetText pc (immB w off))
  | .blt rs1 rs2 off => line3 "blt" rs1.name rs2.name (targetText pc (immB w off))
  | .bge rs1 rs2 off => line3 "bge" rs1.name rs2.name (targetText pc (immB w off))
  | .bltu rs1 rs2 off => line3 "bltu" rs1.name rs2.name (targetText pc (immB w off))
  | .bgeu rs1 rs2 off => line3 "bgeu" rs1.name rs2.name (targetText pc (immB w off))
  | .lb rd rs1 imm => line2 "lb" rd.name (baseText imm rs1)
  | .lh rd rs1 imm => line2 "lh" rd.name (baseText imm rs1)
  | .lw rd rs1 imm => line2 "lw" rd.name (baseText imm rs1)
  | .lbu rd rs1 imm => line2 "lbu" rd.name (baseText imm rs1)
  | .lhu rd rs1 imm => line2 "lhu" rd.name (baseText imm rs1)
  | .lwu rd rs1 imm => line2 "lwu" rd.name (baseText imm rs1)
  | .ld rd rs1 imm => line2 "ld" rd.name (baseText imm rs1)
  | .sb rs1 rs2 imm => line2 "sb" rs2.name (baseText imm rs1)
  | .sh rs1 rs2 imm => line2 "sh" rs2.name (baseText imm rs1)
  | .sw rs1 rs2 imm => line2 "sw" rs2.name (baseText imm rs1)
  | .sd rs1 rs2 imm => line2 "sd" rs2.name (baseText imm rs1)
  | .fence _ pred succ _ _ => line2 "fence" (orderText pred) (orderText succ)
  | .ecall => "ecall"
  | .ebreak => "ebreak"
  | .mul rd rs1 rs2 => line3 "mul" rd.name rs1.name rs2.name
  | .mulh rd rs1 rs2 => line3 "mulh" rd.name rs1.name rs2.name
  | .mulhsu rd rs1 rs2 => line3 "mulhsu" rd.name rs1.name rs2.name
  | .mulhu rd rs1 rs2 => line3 "mulhu" rd.name rs1.name rs2.name
  | .mulw rd rs1 rs2 => line3 "mulw" rd.name rs1.name rs2.name
  | .div rd rs1 rs2 => line3 "div" rd.name rs1.name rs2.name
  | .divu rd rs1 rs2 => line3 "divu" rd.name rs1.name rs2.name
  | .rem rd rs1 rs2 => line3 "rem" rd.name rs1.name rs2.name
  | .remu rd rs1 rs2 => line3 "remu" rd.name rs1.name rs2.name
  | .divw rd rs1 rs2 => line3 "divw" rd.name rs1.name rs2.name
  | .divuw rd rs1 rs2 => line3 "divuw" rd.name rs1.name rs2.name
  | .remw rd rs1 rs2 => line3 "remw" rd.name rs1.name rs2.name
  | .remuw rd rs1 rs2 => line3 "remuw" rd.name rs1.name rs2.name
  | .sh1add rd rs1 rs2 => line3 "sh1add" rd.name rs1.name rs2.name
  | .sh2add rd rs1 rs2 => line3 "sh2add" rd.name rs1.name rs2.name
  | .sh3add rd rs1 rs2 => line3 "sh3add" rd.name rs1.name rs2.name
  | .addUw rd rs1 rs2 => line3 "add.uw" rd.name rs1.name rs2.name
  | .sh1addUw rd rs1 rs2 => line3 "sh1add.uw" rd.name rs1.name rs2.name
  | .sh2addUw rd rs1 rs2 => line3 "sh2add.uw" rd.name rs1.name rs2.name
  | .sh3addUw rd rs1 rs2 => line3 "sh3add.uw" rd.name rs1.name rs2.name
  | .slliUw rd rs1 shamt => line3 "slli.uw" rd.name rs1.name (unsignedText shamt)
  | .bset rd rs1 rs2 => line3 "bset" rd.name rs1.name rs2.name
  | .bclr rd rs1 rs2 => line3 "bclr" rd.name rs1.name rs2.name
  | .binv rd rs1 rs2 => line3 "binv" rd.name rs1.name rs2.name
  | .bext rd rs1 rs2 => line3 "bext" rd.name rs1.name rs2.name
  | .bseti rd rs1 shamt => line3 "bseti" rd.name rs1.name (unsignedText shamt)
  | .bclri rd rs1 shamt => line3 "bclri" rd.name rs1.name (unsignedText shamt)
  | .binvi rd rs1 shamt => line3 "binvi" rd.name rs1.name (unsignedText shamt)
  | .bexti rd rs1 shamt => line3 "bexti" rd.name rs1.name (unsignedText shamt)
  | .clmul rd rs1 rs2 => line3 "clmul" rd.name rs1.name rs2.name
  | .clmulr rd rs1 rs2 => line3 "clmulr" rd.name rs1.name rs2.name
  | .clmulh rd rs1 rs2 => line3 "clmulh" rd.name rs1.name rs2.name

/-! ## Targets (R97) -/

/-- The B-imm field that reaches a target, if one does: `target - pc`. -/
def branchField {w : Nat} (pc target : BitVec w) : Option (BitVec 12) :=
  if immB w ((target - pc).extractLsb' 1 12) = target - pc then some ((target - pc).extractLsb' 1 12) else none

/-- The J-imm field that reaches a target, if one does. -/
def jumpField {w : Nat} (pc target : BitVec w) : Option (BitVec 20) :=
  if immJ w ((target - pc).extractLsb' 1 20) = target - pc then some ((target - pc).extractLsb' 1 20) else none

/-! ## Pseudo-instructions (R98) -/

/-- `hi(v)`, as the 20 bits of a U-immediate. -/
def hi20 {w : Nat} (v : BitVec w) : BitVec 20 := (v + 0x800).extractLsb' 12 20

/-- `lo(v)`, as the 12 bits of an I-immediate. -/
def lo12 {w : Nat} (v : BitVec w) : BitVec 12 := v.extractLsb' 0 12

/-- The pair of fields whose sum is `v`, if `v` is in the reach of such a pair. -/
def hiLo {w : Nat} (v : BitVec w) : Option (BitVec 20 × BitVec 12) :=
  if immU w (hi20 v) + imm12 w (lo12 v) = v then some (hi20 v, lo12 v) else none

/-- The pseudo-instructions, their targets and symbols as addresses. -/
inductive Pseudo (w : Nat) where
  | nop
  | li (rd : Reg) (imm : BitVec 32)
  | la (rd : Reg) (sym : BitVec w)
  | mv (rd rs : Reg)
  | not (rd rs : Reg)
  | neg (rd rs : Reg)
  | negw (rd rs : Reg)
  | sextW (rd rs : Reg)
  | zextW (rd rs : Reg)
  | seqz (rd rs : Reg)
  | snez (rd rs : Reg)
  | sltz (rd rs : Reg)
  | sgtz (rd rs : Reg)
  | beqz (rs : Reg) (t : BitVec w)
  | bnez (rs : Reg) (t : BitVec w)
  | blez (rs : Reg) (t : BitVec w)
  | bgez (rs : Reg) (t : BitVec w)
  | bltz (rs : Reg) (t : BitVec w)
  | bgtz (rs : Reg) (t : BitVec w)
  | bgt (rs rt : Reg) (t : BitVec w)
  | ble (rs rt : Reg) (t : BitVec w)
  | bgtu (rs rt : Reg) (t : BitVec w)
  | bleu (rs rt : Reg) (t : BitVec w)
  | j (t : BitVec w)
  | jal (t : BitVec w)
  | jr (rs : Reg)
  | jalr (rs : Reg)
  | ret
  | call (sym : BitVec w)
  | tail (sym : BitVec w)
  | fence
  deriving DecidableEq, Repr

/-- `li` of a 32-bit value: one ADDI where 12 bits hold it, else LUI and ADDI, or ADDIW with XLEN = 64. -/
def expandLi (x : Xlen) (rd : Reg) (imm : BitVec 32) : List Instr :=
  if (imm.extractLsb' 0 12).signExtend 32 = imm then [.addi rd 0 (imm.extractLsb' 0 12)]
  else
    [.lui rd (hi20 imm),
     match x with
     | .rv32 => .addi rd rd (lo12 imm)
     | .rv64 => .addiw rd rd (lo12 imm)]

/-- An expansion that needs XLEN = 64. -/
def expand64 (x : Xlen) (i : Instr) : Option (List Instr) :=
  match x with
  | .rv64 => some [i]
  | .rv32 => none

/-- The expansion of a pseudo-instruction at an address; none where its target is out of reach, or where it
needs XLEN = 64 and XLEN is 32. -/
def Pseudo.expand (x : Xlen) (pc : BitVec x.bits) : Pseudo x.bits → Option (List Instr)
  | .nop => some [.addi 0 0 0]
  | .li rd imm => some (expandLi x rd imm)
  | .la rd sym => (hiLo (sym - pc)).map fun f => [.auipc rd f.1, .addi rd rd f.2]
  | .mv rd rs => some [.addi rd rs 0]
  | .not rd rs => some [.xori rd rs 0xFFF]
  | .neg rd rs => some [.sub rd 0 rs]
  | .negw rd rs => expand64 x (.subw rd 0 rs)
  | .sextW rd rs => expand64 x (.addiw rd rs 0)
  | .zextW rd rs => expand64 x (.addUw rd rs 0)
  | .seqz rd rs => some [.sltiu rd rs 1]
  | .snez rd rs => some [.sltu rd 0 rs]
  | .sltz rd rs => some [.slt rd rs 0]
  | .sgtz rd rs => some [.slt rd 0 rs]
  | .beqz rs t => (branchField pc t).map fun f => [.beq rs 0 f]
  | .bnez rs t => (branchField pc t).map fun f => [.bne rs 0 f]
  | .blez rs t => (branchField pc t).map fun f => [.bge 0 rs f]
  | .bgez rs t => (branchField pc t).map fun f => [.bge rs 0 f]
  | .bltz rs t => (branchField pc t).map fun f => [.blt rs 0 f]
  | .bgtz rs t => (branchField pc t).map fun f => [.blt 0 rs f]
  | .bgt rs rt t => (branchField pc t).map fun f => [.blt rt rs f]
  | .ble rs rt t => (branchField pc t).map fun f => [.bge rt rs f]
  | .bgtu rs rt t => (branchField pc t).map fun f => [.bltu rt rs f]
  | .bleu rs rt t => (branchField pc t).map fun f => [.bgeu rt rs f]
  | .j t => (jumpField pc t).map fun f => [.jal 0 f]
  | .jal t => (jumpField pc t).map fun f => [.jal 1 f]
  | .jr rs => some [.jalr 0 rs 0]
  | .jalr rs => some [.jalr 1 rs 0]
  | .ret => some [.jalr 0 1 0]
  | .call sym => (hiLo (sym - pc)).map fun f => [.auipc 1 f.1, .jalr 1 1 f.2]
  | .tail sym => (hiLo (sym - pc)).map fun f => [.auipc 6 f.1, .jalr 0 6 f.2]
  | .fence => some [.fence 0 0xF 0xF 0 0]

end Sys2Proof
end

