-- ==== Sys2Proof/Machine/Construct.lean ====
section
/-! DEFINITION. Building an interpreter state from its parameters, and resuming a stopped run
(spec/70_reset_and_hazards.md R350 to R352). -/

namespace Sys2Proof.Machine

/-- The parameters State.reset is built from: the reference values (00_scope.md R7, R351; logs 1 to 3). -/
def Parameters.reference : Parameters where
  xlen := .rv64
  nreg := .i32
  composite := refFull
  misaligned := .delegate
  accessor := .everything
  customErrors := .countable
  hook := .none
  entryPc := 0
  initialRegs := Vector.replicate 32 0
  image := []

/-- Construction (R350, R351): an ill-formed composite is refused and no state exists; otherwise the
configuration is fixed and the run is `Running` at `entry_pc`, which is not checked. Memory is what the
embedder's accessor holds. -/
def State.construct (p : Parameters) : Except Refusal State :=
  match buildComposite p.xlen p.nreg p.composite with
  | .error e => .error (.illFormedComposite e)
  | .ok variants =>
    .ok
      { cfg :=
          { xlen := p.xlen
            nreg := p.nreg
            composite := variants
            misaligned := p.misaligned
            accessor := p.accessor
            customErrors := p.customErrors
            hook := p.hook }
        hart :=
          { regs := p.initialRegs.setIfInBounds 0 0
            pc := p.entryPc
            mem := Memory.ofImage p.xlen.bits p.image
            status := .running } }

/-- Resuming (R352): a run that ended `Stopped` goes on from the registers, pc and memory the embedder
leaves in `h`; a `Failed` run is never resumed, and a `Running` one has nothing to resume. -/
def State.resume (s : State) (h : Hart s.cfg.xlen.bits s.cfg.nreg.count s.cfg.customErrors) : Option State :=
  match s.hart.status with
  | .stopped => some { s with hart := { h with status := .running } }
  | .running => none
  | .failed _ => none

/-- Resuming after the instruction that stopped the run: `pc <- pc + 4` (60_exceptions.md R306). -/
def State.resumeAfter (s : State) : Option State := s.resume { s.hart with pc := s.seqPc }

end Sys2Proof.Machine
end

