-- ==== Sys2Proof/Machine/Run.lean ====
section
/-! DEFINITION. A run observed through a bound given from outside (spec/60_exceptions.md R335), and the
informative RISC-V codes of its errors (R336). -/

namespace Sys2Proof.Machine

/-- How an observed run ends: the spec's two ends, and `boundReached`, which is neither (R335). -/
inductive RunResult where
  | stopped (s : State)
  | failed (s : State)
  | boundReached (s : State)
  /-- A step refused, which no step of this model does. -/
  | refused (r : Refusal) (s : State)
  deriving DecidableEq, Repr

/-- Take steps until the status is not `Running` or the bound is reached. -/
def run : (bound : Nat) → State → RunResult
  | k, s =>
    match s.hart.status with
    | .stopped => .stopped s
    | .failed _ => .failed s
    | .running =>
      match k with
      | 0 => .boundReached s
      | k + 1 =>
        match step s with
        | .next t => run k t
        | .fault _ => .boundReached s
        | .refused r => .refused r s

/-- The RISC-V exception code that corresponds to an error, where there is one (R336, informative: no
rule uses it). -/
def RunError.mcause {w : Nat} {t : CustomErrorType} : RunError w t → Option Nat
  | .unalignedFetch _ => some 0
  | .illegalInstruction _ _ => some 2
  | .executionFault _ _ _ (.fetchAccess _) => some 1
  | .executionFault _ _ _ (.misalignedAccess _ _ .load) => some 4
  | .executionFault _ _ _ (.memoryAccess _ _ .load) => some 5
  | .executionFault _ _ _ (.misalignedAccess _ _ .store) => some 6
  | .executionFault _ _ _ (.memoryAccess _ _ .store) => some 7
  | .executionFault _ _ _ (.hostFault _) => none
  | .custom _ _ _ => none

end Sys2Proof.Machine
end

