-- ==== Sys2Proof/Safety.lean ====
section
/-! DEFINITION. The terms claims are stated in: what is observed of a state, in numbers and bytes; what one
instruction may change; the invariant of a state; and what a safe run is. -/

namespace Sys2Proof.Machine

/-! ## Observations -/

/-- XLEN of a run, as a number. -/
abbrev State.bits (s : State) : Nat := s.cfg.xlen.bits

/-- `unsigned(x[r])` (spec/00_scope.md R9). -/
def State.xNat (s : State) (r : Reg) : Nat := (s.x r).toNat

/-- `signed(x[r])` (R9). -/
def State.xInt (s : State) (r : Reg) : Int := (s.x r).toInt

/-- The byte of memory at an address. -/
def State.byteAt (s : State) (a : Nat) : Byte := s.hart.mem.read a

/-- The architectural part of a state with this configuration. -/
abbrev State.HartOf (s : State) : Type := Hart s.cfg.xlen.bits s.cfg.nreg.count s.cfg.customErrors

/-- The state with another architectural part and the same configuration. -/
abbrev State.withHart (s : State) (h : s.HartOf) : State := { s with hart := h }

/-- The number the `n` bytes from `addr` on hold, least significant byte first, each address modulo 2^w
(20_memory.md R41, R44). -/
def bytesValue (m : Memory) (w addr : Nat) : (n : Nat) → Nat
  | 0 => 0
  | n + 1 => (m.read (addr % 2 ^ w)).toNat + 256 * bytesValue m w (addr + 1) n

/-- Bit `k` of the carry-less product of `a` and `b`: the XOR, over the bits `i` of `b`, of bit `k` of
`a << i` (47_zbc_zbkc.md R240). -/
def carrylessBit {w : Nat} (a b : BitVec w) (k : Nat) : Bool :=
  (List.range (k + 1)).foldl (fun acc i => acc ^^ (b.getLsbD i && a.getLsbD (k - i))) false

/-- Address `a` is one of the `n` addresses from `addr` on, modulo 2^w. -/
def inRange (w addr n a : Nat) : Prop := ∃ i, i < n ∧ a = (addr + i) % 2 ^ w

/-- A data access is not refused for its alignment (20_memory.md R47). -/
abbrev State.alignmentAllows (s : State) (addr : s.Word) (n : Nat) : Prop :=
  s.cfg.misaligned = .delegate ∨ addr.toNat % n = 0

/-- The accessor serves an access. -/
abbrev State.served (s : State) (k : AccessKind) (addr : s.Word) (n : Nat) : Prop :=
  accessorGrants s.cfg.accessor k addr n = true

/-! ## What one instruction may change -/

/-- Between `s` and `h` nothing changes but the pc and register `rd`; x0 reads 0. With `rd` = x0 no register
changes. -/
structure State.Keeps (s : State) (h : s.HartOf) (rd : Reg) : Prop where
  zero : h.x 0 = 0
  registers : ∀ r, r ≠ rd → h.x r = s.x r
  bytes : ∀ a, h.mem.read a = s.byteAt a
  status : h.status = s.hart.status

/-- Instruction `i` completes in `s`: it leaves in `rd` a value with the given property, unless `rd` is x0,
goes on at the given pc, and changes nothing else. -/
def CompletesAt (i : Instr) (s : State) (rd : Reg) (result : s.Word → Prop) (nextPc : s.Word) : Prop :=
  ∃ h : s.HartOf, exec i s = .next (s.withHart h) ∧ (rd ≠ 0 → result (h.x rd)) ∧ s.Keeps h rd ∧ h.pc = nextPc

/-- As `CompletesAt`, going on at `pc + 4`. -/
def Completes (i : Instr) (s : State) (rd : Reg) (result : s.Word → Prop) : Prop :=
  CompletesAt i s rd result (s.pc + 4)

/-- Instruction `i` completes in `s`, changes no register and no memory, and goes on at the given pc. -/
def GoesTo (i : Instr) (s : State) (nextPc : s.Word) : Prop :=
  CompletesAt i s 0 (fun _ => True) nextPc

/-- Instruction `i` stores `n` bytes of `value` at `addr`, goes on at `pc + 4`, and changes nothing else:
no register, and no byte outside the `n` stored ones. -/
def StoresBytes (i : Instr) (s : State) (addr n value : Nat) : Prop :=
  ∃ h : s.HartOf, exec i s = .next (s.withHart h) ∧ h.pc = s.pc + 4 ∧ h.status = s.hart.status
    ∧ (∀ r, h.x r = s.x r)
    ∧ (∀ j, j < n → (h.mem.read ((addr + j) % 2 ^ s.bits)).toNat = value / 256 ^ j % 256)
    ∧ ∀ a, ¬ inRange s.bits addr n a → h.mem.read a = s.byteAt a

/-- Instruction `i` raises an execution fault of this kind in `s`: the run fails with the pc, the word and
the instruction, and nothing else changes (60_exceptions.md R321, R323). -/
def Raises (i : Instr) (s : State) (kind : FaultKind s.bits) : Prop :=
  exec i s =
    .next (s.withHart { s.hart with status := .failed (.executionFault s.pc (some (encode i)) (some i) kind) })

/-- The state with another error or end as its status. -/
def State.ended (s : State) (status : RunStatus s.bits s.cfg.customErrors) : State := s.withHart { s.hart with status := status }

/-! ## What a hook's effects do (60_exceptions.md R310) -/

/-- One effect of a hook leads from `h` to `h'`: a register, the pc, or the bytes of a store the accessor serves take
the value, truncated, and nothing else changes; a write of x0 or of a register the core does not have, and a store
the accessor refuses, change nothing (R310; logs 6 and 18). -/
def EffectDoes {w n : Nat} {t : CustomErrorType} (acc : Accessor) (h h' : Hart w n t) : HookEffect → Prop
  | .setReg r v =>
    (∀ q, h'.x q = if q = r ∧ r ≠ 0 ∧ r.val < n then v.setWidth w else h.x q)
      ∧ h'.pc = h.pc ∧ (∀ a, h'.mem.read a = h.mem.read a) ∧ h'.status = h.status
  | .setPc v =>
    (∀ q, h'.x q = h.x q) ∧ h'.pc = v.setWidth w ∧ (∀ a, h'.mem.read a = h.mem.read a) ∧ h'.status = h.status
  | .store a size v =>
    let addr : BitVec w := a.setWidth w
    (∀ q, h'.x q = h.x q) ∧ h'.pc = h.pc ∧ h'.status = h.status
      ∧ (accessorGrants acc .store addr size.bytes = true → ∀ j, j < size.bytes →
          (h'.mem.read ((addr.toNat + j) % 2 ^ w)).toNat = v.toNat / 256 ^ j % 256)
      ∧ ∀ b, (accessorGrants acc .store addr size.bytes = true → ¬ inRange w addr.toNat size.bytes b) →
          h'.mem.read b = h.mem.read b

/-- A list of effects, made in order, leads from `h` to `h'`. -/
def EffectsLead {w n : Nat} {t : CustomErrorType} (acc : Accessor) :
    List HookEffect → (h h' : Hart w n t) → Prop
  | [], h, h' => h' = h
  | e :: es, h, h' => ∃ mid, EffectDoes acc h mid e ∧ EffectsLead acc es mid h'

/-! ## Changes a claim compares runs under -/

/-- The state with another value in the slot of x0. -/
def State.withSlot0 (s : State) (v : s.Word) : State :=
  s.withHart { s.hart with regs := s.hart.regs.setIfInBounds 0 v }

/-- The state with another final list of its composite. -/
def State.withComposite (s : State) (vs : List Variant) : State where
  cfg := { s.cfg with composite := vs }
  hart := s.hart

/-! ## The invariant -/

/-- Memory is in its canonical form and lists only addresses that exist (20_memory.md R40). -/
def Memory.valid (w : Nat) (m : Memory) : Prop := m.wf = true ∧ ∀ c ∈ m, c.1 < 2 ^ w

/-- What a failed run says of itself (60_exceptions.md R301, R302, R309, R320, R321): a fetch error names the
pc; a word in an error is one the composite decodes to the error's instruction, or to nothing where the error
has none. -/
def RunError.truthful (c : Config) (pc : BitVec c.xlen.bits) : RunError c.xlen.bits c.customErrors → Prop
  | .unalignedFetch p => p = pc ∧ p.toNat % 4 ≠ 0
  | .illegalInstruction p w => p = pc ∧ decodeWord c w = none
  | .executionFault p word insn kind =>
    match kind, word, insn with
    | .fetchAccess a, none, none => p = pc ∧ a = p
    | .memoryAccess a n dir, some w, some i =>
      p = pc ∧ ((decodeWord c w).map (·.insn) = some i)
        ∧ accessorGrants c.accessor (match dir with | .load => .load | .store => .store) a n = false
    | .misalignedAccess a n _, some w, some i =>
      p = pc ∧ ((decodeWord c w).map (·.insn) = some i) ∧ c.misaligned = .fault ∧ a.toNat % n ≠ 0
    | .hostFault _, some w, none => decodeWord c w = none
    | _, _, _ => False
  | .custom _ w _ => decodeWord c w = none

/-- The invariant: valid memory, and a truthful error where the run has failed. -/
structure State.Inv (s : State) : Prop where
  memory : s.hart.mem.valid s.bits
  error : ∀ e, s.hart.status = .failed e → e.truthful s.cfg s.pc

/-! ## Safe runs -/

/-- A run is safe for `k` steps when none of them fails: each is taken, and leaves the run running or stopped
(60_exceptions.md R322: an error is terminal). -/
def State.safeFor : Nat → State → Prop
  | 0, _ => True
  | k + 1, s =>
    match s.hart.status with
    | .failed _ => False
    | .stopped => True
    | .running =>
      match step s with
      | .next t => State.safeFor k t
      | .fault _ => False
      | .refused _ => False

end Sys2Proof.Machine
end

