-- ==== Sys2Proof/Certificates/Slice0/Obligations.lean ====
section
/-! DEFINITION. The statements for the provers, in the order of the spec's rules. -/

open Sys2Proof Sys2Proof.Machine

/-! ## Construction and the end of a run (spec/70_reset_and_hazards.md, 60_exceptions.md section 5) -/

/-- R350, R351. Building a state from parameters: an ill-formed composite gives no state; otherwise the state has
the configuration of the parameters with the composite's final list, registers `initial_regs` with x0 reading 0,
`entry_pc` unchecked, status `Running`, and the bytes the embedder's image holds (a byte no cell of the image
gives reads the model's unlisted byte: log 3). -/
def Obligations.ConstructionFollowsParameters : Prop :=
  ∀ p : Parameters,
    match buildComposite p.xlen p.nreg p.composite with
    | .error e => State.construct p = .error (.illFormedComposite e)
    | .ok vs =>
      ∃ s : State, State.construct p = .ok s
        ∧ s.cfg =
            { xlen := p.xlen
              nreg := p.nreg
              composite := vs
              misaligned := p.misaligned
              accessor := p.accessor
              customErrors := p.customErrors
              hook := p.hook }
        ∧ s.xNat 0 = 0
        ∧ (∀ (r : Reg) (hr : r.val < p.nreg.count), r ≠ 0 → s.xNat r = (p.initialRegs[r.val]'hr).toNat)
        ∧ s.pc.toNat = p.entryPc.toNat
        ∧ s.hart.status = .running
        ∧ ∀ a, a < 2 ^ p.xlen.bits →
            s.byteAt a =
              ((p.image.reverse.find? fun c => c.1 % 2 ^ p.xlen.bits = a).map (·.2)).getD unlistedByte

/-- The reset state is the one the reference parameters construct, with every register, the pc and every byte 0
(the parameters' values are the model's choice: logs 1 to 3). -/
def Obligations.ResetIsTheReferenceConstruction : Prop :=
  State.construct Parameters.reference = .ok State.reset
    ∧ (∀ r, State.reset.xNat r = 0)
    ∧ State.reset.pc.toNat = 0
    ∧ State.reset.hart.status = .running
    ∧ ∀ a, State.reset.byteAt a = 0

/-- R352, R306. A `Stopped` run is resumed with whatever registers, pc and memory the embedder gives it, `Running`; with
`pc + 4` and the rest as it stood where it is resumed after the instruction that stopped it. A `Failed` run is not
resumed, and a `Running` one has nothing to resume, whatever the embedder gives. -/
def Obligations.OnlyStoppedRunsResume : Prop :=
  ∀ (s : State) (given : s.HartOf),
    (s.hart.status = .stopped →
      ∃ h : s.HartOf, s.resume given = some (s.withHart h) ∧ h.status = .running ∧ h.pc = given.pc
        ∧ (∀ r, h.x r = given.x r) ∧ ∀ a, h.mem.read a = given.mem.read a)
    ∧ (s.hart.status = .stopped →
      ∃ h : s.HartOf, s.resumeAfter = some (s.withHart h) ∧ h.status = .running ∧ h.pc = s.pc + 4
        ∧ (∀ r, h.x r = s.x r) ∧ ∀ a, h.mem.read a = s.byteAt a)
    ∧ (∀ e, s.hart.status = .failed e → s.resume given = none)
    ∧ (s.hart.status = .running → s.resume given = none)

/-- R335. `jal x0, 0` loops for ever with no error: every bound is reached, in the state it began in. -/
def Obligations.SelfJumpReachesEveryBound : Prop :=
  ∀ (s : State) (set : LeafSet) (k : Nat), s.hart.status = .running → s.pc.toNat % 4 = 0 →
    s.fetch = some 0x0000006F → decodeWord s.cfg 0x0000006F = some ⟨set, .jal 0 0⟩ →
    run k s = .boundReached s

/-! ## Registers and memory (10_state.md, 20_memory.md) -/

/-- R21 to R23 and R354, with ADDI as the instruction that reads. Whatever instruction completes with a value of a
property in `rd`, an ADDI of `rd` and 0 run next leaves a value of that property, or 0 where `rd` is x0; and an ADDI of
another register and 0 leaves what that register held before. -/
def Obligations.WrittenValueIsReadNext : Prop :=
  ∀ (i : Instr) (s : State) (rd rd' : Reg) (result : s.Word → Prop) (p : s.Word), rd'.val < s.cfg.nreg.count →
    CompletesAt i s rd result p →
    ∃ h : s.HartOf, exec i s = .next (s.withHart h)
      ∧ Completes (.addi rd' rd 0) (s.withHart h) rd' (fun v => if rd = 0 then v = 0 else result v)
      ∧ ∀ q, q ≠ rd → Completes (.addi rd' q 0) (s.withHart h) rd' (fun v => v = s.x q)

/-- R21: x0 reads 0 whatever its slot holds, so no step depends on that slot or carries it anywhere. -/
def Obligations.SlotOfX0NeverMatters : Prop :=
  ∀ (s : State) (v : s.Word) (h : s.HartOf), step s = .next (s.withHart h) →
    step (s.withSlot0 v) = .next ((s.withHart h).withSlot0 v)

/-- R41, R44: the value of a read is its bytes, least significant first, each address modulo 2^XLEN. -/
def Obligations.ReadIsLittleEndian : Prop :=
  ∀ (w n : Nat) (m : Memory) (addr : BitVec w), (m.load addr n).toNat = bytesValue m w addr.toNat n

/-- R42: after a write the `n` bytes from the address on, modulo 2^XLEN, are those of the value, least significant
first, and every other byte is as before. -/
def Obligations.WriteChangesItsBytesOnly : Prop :=
  ∀ (w n : Nat) (m : Memory) (addr : BitVec w) (v : BitVec (8 * n)), m.wf = true → n ≤ 8 → 32 ≤ w →
    (∀ j, j < n → ((m.store addr n v).read ((addr.toNat + j) % 2 ^ w)).toNat = v.toNat / 256 ^ j % 256)
    ∧ ∀ a, ¬ inRange w addr.toNat n a → (m.store addr n v).read a = m.read a

/-- R45: a narrower read of bytes that a wider write wrote sees those bytes of the value. -/
def Obligations.NarrowReadOfWideWrite : Prop :=
  ∀ (w n k j : Nat) (m : Memory) (addr : BitVec w) (v : BitVec (8 * n)), m.wf = true → n ≤ 8 → 32 ≤ w →
    k + j ≤ n → (m.store addr n v).load (addr + BitVec.ofNat w k) j = v.extractLsb' (8 * k) (8 * j)

/-- R56, R182: after a store that completes, a fetch at any pc, that of the next instruction included, gives a word in
which every byte the store wrote is the stored one, and every other byte is as it was. -/
def Obligations.NextFetchSeesTheStore : Prop :=
  ∀ (i : Instr) (s : State) (rs1 rs2 : Reg) (imm : BitVec 12) (n : Nat), s.hart.mem.wf = true →
    (i, n) ∈ [(.sb rs1 rs2 imm, 1), (.sh rs1 rs2 imm, 2), (.sw rs1 rs2 imm, 4), (.sd rs1 rs2 imm, 8)] →
    (n = 8 → s.cfg.xlen = .rv64) →
    let addr := effAddr s rs1 imm
    s.alignmentAllows addr n → s.served .store addr n →
    ∃ h : s.HartOf, exec i s = .next (s.withHart h) ∧ h.pc = s.pc + 4
      ∧ ∀ p : s.Word, s.served .fetch p 4 →
        ∃ w, (s.withHart { h with pc := p }).fetch = some w
          ∧ ∀ j, j < 4 →
            let a := (p.toNat + j) % 2 ^ s.bits
            let byte := w.toNat / 256 ^ j % 256
            (∀ k, k < n → a = (addr.toNat + k) % 2 ^ s.bits → byte = s.xNat rs2 / 256 ^ k % 256)
              ∧ (¬ inRange s.bits addr.toNat n a → byte = (s.byteAt a).toNat)

/-! ## Encoding (30_encoding.md) -/

/-- Words written out from the spec's encodings, one for each family at least, and words that are none (R89,
95_test_vectors.md V1, V20, V40 to V47). -/
def Obligations.SampleWordsDecode : Prop :=
  let c := Config.reference
  decodeWord c 0x0A3110B3 = some ⟨.Zbc, .clmul 1 2 3⟩
    ∧ decodeWord c 0x800002B7 = some ⟨.I, .lui 5 0x80000⟩
    ∧ decodeWord c 0xFFC32293 = some ⟨.I, .slti 5 6 0xFFC⟩
    ∧ decodeWord c 0x43F35293 = some ⟨.I, .srai 5 6 63⟩
    ∧ decodeWord c 0x407302BB = some ⟨.I, .subw 5 6 7⟩
    ∧ decodeWord c 0xFFDFF06F = some ⟨.I, .jal 0 0xFFFFE⟩
    ∧ decodeWord c 0xFE7308E3 = some ⟨.I, .beq 6 7 0xFF8⟩
    ∧ decodeWord c 0xFFC32283 = some ⟨.I, .lw 5 6 0xFFC⟩
    ∧ decodeWord c 0x00732223 = some ⟨.I, .sw 6 7 4⟩
    ∧ decodeWord c 0x8330000F = some ⟨.I, .fence 8 3 3 0 0⟩
    ∧ decodeWord c 0x00000073 = some ⟨.I, .ecall⟩
    ∧ decodeWord c 0x027342B3 = some ⟨.M, .div 5 6 7⟩
    ∧ decodeWord c 0x0843129B = some ⟨.Zba, .slliUw 5 6 4⟩
    ∧ decodeWord c 0x4A035293 = some ⟨.Zbs, .bexti 5 6 32⟩
    ∧ decodeWord c 0x00000000 = none
    ∧ decodeWord c 0xFFFFFFFF = none
    ∧ decodeWord c 0x0000100F = none
    ∧ decodeWord c 0x30200073 = none

/-- Decoding the word of a well-formed instruction gives it back, from the first set of the composite that has
its mnemonic, and nothing where no set of the composite has it: with every composite, width and register count,
and every operand the encoding admits (R75, R77, R85). -/
def Obligations.DecodeOfEncode : Prop :=
  ∀ (c : Config) (i : Instr), i.wf c.xlen c.nreg = true →
    decodeWord c (encode i) = (c.composite.find? fun v => v.op = i.op).map fun v => ⟨v.set, i⟩

/-- A word that decodes is the word of what it decodes to, which is well-formed, and comes from a variant of the
composite (R75, R77, R79, R66): no bit of a word is read twice or not at all. -/
def Obligations.EncodeOfDecode : Prop :=
  ∀ (c : Config) (w : InsnWord) (d : Decoded), decodeWord c w = some d →
    encode d.insn = w ∧ d.insn.wf c.xlen c.nreg = true ∧ (⟨d.set, d.insn.op⟩ : Variant) ∈ c.composite

/-- R76: a leaf set's decoder returns the one variant of the set that matches, and nothing when none does. -/
def Obligations.LeafSetsAreUnambiguous : Prop :=
  ∀ (x : Xlen) (n : Nreg) (set : LeafSet) (w : InsnWord),
    (∀ u ∈ set.variants x, ∀ v ∈ set.variants x, u.hits x n w = true → v.hits x n w = true → u = v)
    ∧ (∀ d, set.decode x n w = some d ↔
        ∃ v ∈ set.variants x, v.hits x n w = true ∧ d = ⟨v.set, v.op.instr w⟩)
    ∧ (set.decode x n w = none ↔ ∀ v ∈ set.variants x, v.hits x n w = false)

/-- R84: the overlap test finds exactly the pairs of variants that match a common word; and its last sentence: with
the leaf sets of this spec these are the pairs of M and Zmmul for the five multiplications and those of Zbc and Zbkc
for clmul and clmulh. -/
def Obligations.OverlapsAreExactlyTheSubsetPairs : Prop :=
  ∀ (x : Xlen) (n : Nreg) (u v : Variant),
    (u.overlaps x n v = true ↔ ∃ w, u.hits x n w = true ∧ v.hits x n w = true)
    ∧ (u ∈ u.set.variants x → v ∈ v.set.variants x → u ≠ v →
        (u.overlaps x n v = true ↔
          u.op = v.op
            ∧ ((u.op ∈ [.mul, .mulh, .mulhsu, .mulhu, .mulw]
                  ∧ ((u.set = .M ∧ v.set = .Zmmul) ∨ (u.set = .Zmmul ∧ v.set = .M)))
                ∨ (u.op ∈ [.clmul, .clmulh]
                  ∧ ((u.set = .Zbc ∧ v.set = .Zbkc) ∨ (u.set = .Zbkc ∧ v.set = .Zbc))))))

/-- R84: a declaration whose inherited sets exist is accepted exactly when every reordered name is in the list
after `ignore`, and every variant of the final list that matches a common word with a later one is reordered. -/
def Obligations.AcceptedExactlyWhenWellFormed : Prop :=
  ∀ (x : Xlen) (n : Nreg) (earlier : List Built) (d : Declaration) (all : Built),
    inheritAll x earlier d.inherits = .ok all →
    ((∃ b, d.build x n earlier = .ok b) ↔
      (∀ v ∈ d.reorder, v ∈ d.kept earlier all)
        ∧ ∀ (i j : Nat) (u v : Variant), i < j → (d.final earlier all)[i]? = some u →
            (d.final earlier all)[j]? = some v → (∃ w, u.hits x n w = true ∧ v.hits x n w = true) →
            u ∈ d.reorder)

/-- R81 to R83, for a declaration of leaf sets: the accepted list is the reordered variants, then those of the
inherited sets in declaration order, each set once, without the ignored sets and the reordered variants. That a variant
`reorder` names twice counts at its first place is the model's choice (log 11). -/
def Obligations.CompositeListFollowsItsDeclaration : Prop :=
  ∀ (x : Xlen) (n : Nreg) (sets ignored : List LeafSet) (reorder : List Variant) (b : Built),
    Declaration.build x n [] ⟨sets.map .leaf, ignored.map .leaf, reorder⟩ = .ok b →
    b.variants =
      reorder.eraseDups
        ++ (sets.eraseDups.flatMap fun set => set.variants x).filter
            fun v => decide (v.set ∉ ignored) && decide (v ∉ reorder)

/-- R88: the two reference composites are well-formed at every width and register count, and their lists are those of
their leaf sets in the order they are inherited. R89: the composition examples, at XLEN = 64 and 32 registers. -/
def Obligations.ReferenceCompositesAndExamples : Prop :=
  let build := fun d : Declaration => buildComposite .rv64 .i32 [d]
  let decodes := fun (d : Declaration) (w : InsnWord) =>
    match build d with
    | .ok vs => decodeFirst .rv64 .i32 vs w
    | .error _ => none
  let zbkc := fun (ignore : List SetName) (reorder : List Variant) =>
    (⟨[.leaf .I, .leaf .Zbc, .leaf .Zbkc], ignore, reorder⟩ : Declaration)
  let zmmul := fun (ignore : List SetName) => (⟨[.leaf .I, .leaf .M, .leaf .Zmmul], ignore, []⟩ : Declaration)
  (∀ (x : Xlen) (n : Nreg),
      buildComposite x n refFull = .ok (refFullVariants x)
        ∧ buildComposite x n refCrypto = .ok (refCryptoVariants x))
    ∧ build (zbkc [] []) = .error (.unresolvedOverlap ⟨.Zbc, .clmul⟩ ⟨.Zbkc, .clmul⟩)
    ∧ decodes (zbkc [] [⟨.Zbkc, .clmul⟩, ⟨.Zbkc, .clmulh⟩]) 0x0A3110B3 = some ⟨.Zbkc, .clmul 1 2 3⟩
    ∧ decodes (zbkc [] [⟨.Zbkc, .clmul⟩, ⟨.Zbkc, .clmulh⟩]) 0x0A3120B3 = some ⟨.Zbc, .clmulr 1 2 3⟩
    ∧ (build (zbkc [.leaf .Zbc] [])).toOption.isSome = true
    ∧ decodes (zbkc [.leaf .Zbc] []) 0x0A3120B3 = none
    ∧ build (zmmul [.leaf .Zmmul]) = build ⟨[.leaf .I, .leaf .M], [], []⟩
    ∧ decodes (zmmul [.leaf .Zmmul]) 0x027342B3 = some ⟨.M, .div 5 6 7⟩
    ∧ (build (zmmul [.leaf .M])).toOption.isSome = true
    ∧ decodes (zmmul [.leaf .M]) 0x027342B3 = none

/-- R62, R94, R95: a word whose major opcode no leaf set uses, a MISC-MEM word other than FENCE and a SYSTEM word
other than ECALL and EBREAK decode to nothing, with every composite; so do all zeros and all ones. -/
def Obligations.UnusedOpcodesDecodeToNothing : Prop :=
  ∀ (c : Config) (w : InsnWord),
    w.extractLsb' 0 7 ∉
        ([0b0000011, 0b0001111, 0b0010011, 0b0010111, 0b0011011, 0b0100011, 0b0110011, 0b0110111, 0b0111011,
          0b1100011, 0b1100111, 0b1101111, 0b1110011] : List (BitVec 7))
      ∨ w.extractLsb' 0 2 ≠ 0b11
      ∨ (w.extractLsb' 0 7 = 0b0001111 ∧ w.extractLsb' 12 3 ≠ 0b000)
      ∨ (w.extractLsb' 0 7 = 0b1110011 ∧ w ≠ 0x00000073 ∧ w ≠ 0x00100073)
      ∨ w = 0x00000000
      ∨ w = 0xFFFFFFFF →
    decodeWord c w = none

/-- R92: the reserved encodings inside used opcodes decode to nothing: with XLEN = 32 the XLEN = 64 forms and
inst[25] = 1 in a shift or single-bit immediate; with both widths inst[25] = 1 in slliw, srliw and sraiw, the blank
cells of R69 to R73, every other SYSTEM word, and JALR with another funct3. -/
def Obligations.ReservedEncodingsDecodeToNothing : Prop :=
  ∀ (c : Config) (w : InsnWord),
    let opcode := w.extractLsb' 0 7
    let funct3 := w.extractLsb' 12 3
    let funct7 := w.extractLsb' 25 7
    (c.xlen = .rv32 ∧ opcode = 0b0010011 ∧ (funct3 = 0b001 ∨ funct3 = 0b101) ∧ w.getLsbD 25 = true)
      ∨ (c.xlen = .rv32 ∧ (opcode = 0b0011011 ∨ opcode = 0b0111011))
      ∨ (c.xlen = .rv32 ∧ opcode = 0b0000011 ∧ (funct3 = 0b011 ∨ funct3 = 0b110))
      ∨ (c.xlen = .rv32 ∧ opcode = 0b0100011 ∧ funct3 = 0b011)
      ∨ (opcode = 0b0011011 ∧ w.getLsbD 25 = true ∧ funct3 = 0b101)
      ∨ (opcode = 0b0011011 ∧ w.getLsbD 25 = true ∧ funct3 = 0b001 ∧ w.extractLsb' 26 6 ≠ 0b000010)
      ∨ (opcode = 0b0011011 ∧ funct3 ∉ ([0b000, 0b001, 0b101] : List (BitVec 3)))
      ∨ (opcode = 0b0000011 ∧ funct3 = 0b111)
      ∨ (opcode = 0b0100011 ∧ 0b100 ≤ funct3)
      ∨ (opcode = 0b1100011 ∧ (funct3 = 0b010 ∨ funct3 = 0b011))
      ∨ (opcode = 0b1100111 ∧ funct3 ≠ 0b000)
      ∨ (opcode = 0b0010011 ∧ funct3 = 0b001
          ∧ w.extractLsb' 26 6 ∉ ([0b000000, 0b001010, 0b010010, 0b011010] : List (BitVec 6)))
      ∨ (opcode = 0b0010011 ∧ funct3 = 0b101
          ∧ w.extractLsb' 26 6 ∉ ([0b000000, 0b010000, 0b010010] : List (BitVec 6)))
      ∨ (opcode = 0b0011011 ∧ funct3 = 0b001
          ∧ w.extractLsb' 26 6 ∉ ([0b000000, 0b000010] : List (BitVec 6)))
      ∨ (opcode = 0b0011011 ∧ funct3 = 0b101
          ∧ funct7 ∉ ([0b0000000, 0b0100000] : List (BitVec 7)))
      ∨ (opcode = 0b0110011
          ∧ funct7 ∉ ([0b0000000, 0b0000001] : List (BitVec 7))
          ∧ (funct7, funct3) ∉
              ([(0b0100000, 0b000), (0b0100000, 0b101), (0b0010000, 0b010), (0b0010000, 0b100),
                (0b0010000, 0b110), (0b0010100, 0b001), (0b0100100, 0b001), (0b0100100, 0b101),
                (0b0110100, 0b001), (0b0000101, 0b001), (0b0000101, 0b010), (0b0000101, 0b011)]
                : List (BitVec 7 × BitVec 3)))
      ∨ (opcode = 0b0111011
          ∧ (funct7, funct3) ∉
              ([(0b0000000, 0b000), (0b0000000, 0b001), (0b0000000, 0b101), (0b0100000, 0b000),
                (0b0100000, 0b101), (0b0000001, 0b000), (0b0000001, 0b100), (0b0000001, 0b101),
                (0b0000001, 0b110), (0b0000001, 0b111), (0b0000100, 0b000), (0b0010000, 0b010),
                (0b0010000, 0b100), (0b0010000, 0b110)] : List (BitVec 7 × BitVec 3)))
      ∨ (opcode = 0b1110011 ∧ w ≠ 0x00000073 ∧ w ≠ 0x00100073) →
    decodeWord c w = none

/-- R87, its derived sentence: what a step does depends on which mnemonics the composite has, and not on their
order or their sets. -/
def Obligations.OrderOfTheCompositeNeverMatters : Prop :=
  ∀ (s : State) (vs : List Variant),
    (∀ op, (∃ v ∈ s.cfg.composite, v.op = op) ↔ ∃ v ∈ vs, v.op = op) →
    ∀ t, step s = .next t → step (s.withComposite vs) = .next (t.withComposite vs)

/-- R98: `li rd, imm` leaves the sign-extended 32-bit value in `rd`, whichever expansion it has: running the
expansion's instructions in order ends with that value, the pc after them, and nothing else changed. -/
def Obligations.LiLoadsItsImmediate : Prop :=
  ∀ (s : State) (rd : Reg) (imm : BitVec 32), rd.val < s.cfg.nreg.count →
    ∃ h : s.HartOf,
      (expandLi s.cfg.xlen rd imm).foldlM (m := Except StepOutcome)
          (fun t i => match exec i t with | .next u => .ok u | o => .error o) s = .ok (s.withHart h)
      ∧ (rd ≠ 0 → (h.x rd).toInt = imm.toInt)
      ∧ s.Keeps h rd
      ∧ h.pc = s.pc + BitVec.ofNat _ (4 * (expandLi s.cfg.xlen rd imm).length)

/-! ## Integer computational instructions (40_integer_computational.md): results, completion and frame -/

/-- R101, R102: LUI leaves its immediate, shifted left by 12 and sign-extended, in `rd`; AUIPC the pc plus that. -/
def Obligations.UpperImmediates : Prop :=
  ∀ (s : State) (rd : Reg) (imm : BitVec 20), rd.val < s.cfg.nreg.count →
    Completes (.lui rd imm) s rd (fun v => v.toInt = imm.toInt * 4096)
      ∧ Completes (.auipc rd imm) s rd (fun v => v = BitVec.ofInt _ (s.pc.toNat + imm.toInt * 4096))

/-- R103, R112, R113: sums and differences wrap modulo 2^XLEN. -/
def Obligations.AdditionAndSubtraction : Prop :=
  ∀ (s : State) (rd rs1 rs2 : Reg) (imm : BitVec 12), rd.val < s.cfg.nreg.count →
    Completes (.addi rd rs1 imm) s rd (fun v => (v.toNat : Int) = (s.xNat rs1 + imm.toInt) % 2 ^ s.bits)
      ∧ Completes (.add rd rs1 rs2) s rd (fun v => v.toNat = (s.xNat rs1 + s.xNat rs2) % 2 ^ s.bits)
      ∧ Completes (.sub rd rs1 rs2) s rd
          (fun v => (v.toNat : Int) = ((s.xNat rs1 : Int) - s.xNat rs2) % 2 ^ s.bits)

/-- R104, R105, R115, R116: 1 when less, else 0; SLTIU's immediate is sign-extended and then unsigned. -/
def Obligations.Comparisons : Prop :=
  ∀ (s : State) (rd rs1 rs2 : Reg) (imm : BitVec 12), rd.val < s.cfg.nreg.count →
    Completes (.slti rd rs1 imm) s rd (fun v => v.toNat = if s.xInt rs1 < imm.toInt then 1 else 0)
      ∧ Completes (.sltiu rd rs1 imm) s rd
          (fun v => v.toNat = if (s.xNat rs1 : Int) < imm.toInt % 2 ^ s.bits then 1 else 0)
      ∧ Completes (.slt rd rs1 rs2) s rd (fun v => v.toNat = if s.xInt rs1 < s.xInt rs2 then 1 else 0)
      ∧ Completes (.sltu rd rs1 rs2) s rd (fun v => v.toNat = if s.xNat rs1 < s.xNat rs2 then 1 else 0)

/-- R106 to R108, R117, R120, R121, bit by bit; bit `k` of a 12-bit immediate above bit 11 is its bit 11. -/
def Obligations.BitwiseLogic : Prop :=
  ∀ (s : State) (rd rs1 rs2 : Reg) (imm : BitVec 12), rd.val < s.cfg.nreg.count →
    let a := fun k => (s.x rs1).getLsbD k
    let b := fun k => (s.x rs2).getLsbD k
    let c := fun k => imm.getLsbD (min k 11)
    Completes (.xori rd rs1 imm) s rd (fun v => ∀ k, k < s.bits → v.getLsbD k = (a k ^^ c k))
      ∧ Completes (.ori rd rs1 imm) s rd (fun v => ∀ k, k < s.bits → v.getLsbD k = (a k || c k))
      ∧ Completes (.andi rd rs1 imm) s rd (fun v => ∀ k, k < s.bits → v.getLsbD k = (a k && c k))
      ∧ Completes (.xor rd rs1 rs2) s rd (fun v => ∀ k, k < s.bits → v.getLsbD k = (a k ^^ b k))
      ∧ Completes (.or rd rs1 rs2) s rd (fun v => ∀ k, k < s.bits → v.getLsbD k = (a k || b k))
      ∧ Completes (.and rd rs1 rs2) s rd (fun v => ∀ k, k < s.bits → v.getLsbD k = (a k && b k))

/-- R109 to R111, for every shift amount that decodes. -/
def Obligations.ImmediateShifts : Prop :=
  ∀ (s : State) (rd rs1 : Reg) (shamt : BitVec 6), rd.val < s.cfg.nreg.count → shamt.toNat < s.bits →
    Completes (.slli rd rs1 shamt) s rd (fun v => v.toNat = s.xNat rs1 * 2 ^ shamt.toNat % 2 ^ s.bits)
      ∧ Completes (.srli rd rs1 shamt) s rd (fun v => v.toNat = s.xNat rs1 / 2 ^ shamt.toNat)
      ∧ Completes (.srai rd rs1 shamt) s rd (fun v => v.toInt = s.xInt rs1 / 2 ^ shamt.toNat)

/-- R114, R118, R119: only the low log2(XLEN) bits of the second register count. -/
def Obligations.RegisterShifts : Prop :=
  ∀ (s : State) (rd rs1 rs2 : Reg), rd.val < s.cfg.nreg.count →
    let amount := s.xNat rs2 % s.bits
    Completes (.sll rd rs1 rs2) s rd (fun v => v.toNat = s.xNat rs1 * 2 ^ amount % 2 ^ s.bits)
      ∧ Completes (.srl rd rs1 rs2) s rd (fun v => v.toNat = s.xNat rs1 / 2 ^ amount)
      ∧ Completes (.sra rd rs1 rs2) s rd (fun v => v.toInt = s.xInt rs1 / 2 ^ amount)

/-- R122, R126, R127: the low 32 bits of the sum or difference, sign-extended. -/
def Obligations.WordAdditionAndSubtraction : Prop :=
  ∀ (s : State) (rd rs1 rs2 : Reg) (imm : BitVec 12), rd.val < s.cfg.nreg.count → s.cfg.xlen = .rv64 →
    Completes (.addiw rd rs1 imm) s rd (fun v => v.toInt = ((s.xNat rs1 : Int) + imm.toInt).bmod (2 ^ 32))
      ∧ Completes (.addw rd rs1 rs2) s rd
          (fun v => v.toInt = ((s.xNat rs1 : Int) + s.xNat rs2).bmod (2 ^ 32))
      ∧ Completes (.subw rd rs1 rs2) s rd
          (fun v => v.toInt = ((s.xNat rs1 : Int) - s.xNat rs2).bmod (2 ^ 32))

/-- R123 to R125, R128 to R130: shifts of the low 32 bits, sign-extended; of a register amount the low 5 bits
count. -/
def Obligations.WordShifts : Prop :=
  ∀ (s : State) (rd rs1 rs2 : Reg) (shamt : BitVec 5), rd.val < s.cfg.nreg.count → s.cfg.xlen = .rv64 →
    let low := s.xNat rs1 % 2 ^ 32
    let signedLow := (s.xNat rs1 : Int).bmod (2 ^ 32)
    let amount := s.xNat rs2 % 32
    Completes (.slliw rd rs1 shamt) s rd
        (fun v => v.toInt = ((low * 2 ^ shamt.toNat : Nat) : Int).bmod (2 ^ 32))
      ∧ Completes (.srliw rd rs1 shamt) s rd
          (fun v => v.toInt = ((low / 2 ^ shamt.toNat : Nat) : Int).bmod (2 ^ 32))
      ∧ Completes (.sraiw rd rs1 shamt) s rd (fun v => v.toInt = signedLow / 2 ^ shamt.toNat)
      ∧ Completes (.sllw rd rs1 rs2) s rd (fun v => v.toInt = ((low * 2 ^ amount : Nat) : Int).bmod (2 ^ 32))
      ∧ Completes (.srlw rd rs1 rs2) s rd (fun v => v.toInt = ((low / 2 ^ amount : Nat) : Int).bmod (2 ^ 32))
      ∧ Completes (.sraw rd rs1 rs2) s rd (fun v => v.toInt = signedLow / 2 ^ amount)

/-! ## Control transfer (41_control_transfer.md) -/

/-- R151, R152: the link value is `pc + 4`, the target is computed from the old registers, and no target is
checked for alignment in this step. -/
def Obligations.JumpsLinkAndGo : Prop :=
  ∀ (s : State) (rd rs1 : Reg) (off : BitVec 20) (imm : BitVec 12), rd.val < s.cfg.nreg.count →
    CompletesAt (.jal rd off) s rd (fun v => v.toNat = (s.pc.toNat + 4) % 2 ^ s.bits)
        (BitVec.ofInt _ (s.pc.toNat + 2 * off.toInt))
      ∧ CompletesAt (.jalr rd rs1 imm) s rd (fun v => v.toNat = (s.pc.toNat + 4) % 2 ^ s.bits)
          (BitVec.ofInt _ (2 * ((s.xInt rs1 + imm.toInt) / 2)))

/-- R153 to R158: a branch goes to `pc + B-imm` when its condition holds and to `pc + 4` when it does not, and
changes nothing else. -/
def Obligations.BranchesGoByTheirCondition : Prop :=
  ∀ (s : State) (rs1 rs2 : Reg) (off : BitVec 12),
    let taken : s.Word := BitVec.ofInt _ (s.pc.toNat + 2 * off.toInt)
    let next : s.Word := s.pc + 4
    GoesTo (.beq rs1 rs2 off) s (if s.xNat rs1 = s.xNat rs2 then taken else next)
      ∧ GoesTo (.bne rs1 rs2 off) s (if s.xNat rs1 ≠ s.xNat rs2 then taken else next)
      ∧ GoesTo (.blt rs1 rs2 off) s (if s.xInt rs1 < s.xInt rs2 then taken else next)
      ∧ GoesTo (.bge rs1 rs2 off) s (if s.xInt rs2 ≤ s.xInt rs1 then taken else next)
      ∧ GoesTo (.bltu rs1 rs2 off) s (if s.xNat rs1 < s.xNat rs2 then taken else next)
      ∧ GoesTo (.bgeu rs1 rs2 off) s (if s.xNat rs2 ≤ s.xNat rs1 then taken else next)

/-! ## Loads and stores (42_load_store.md) -/

/-- R170, its addressing mode: base plus sign-extended offset, modulo 2^XLEN. -/
def Obligations.EffectiveAddress : Prop :=
  ∀ (s : State) (rs1 : Reg) (imm : BitVec 12),
    ((effAddr s rs1 imm).toNat : Int) = (s.xNat rs1 + imm.toInt) % 2 ^ s.bits

/-- R171 to R177: a load the alignment policy and the accessor allow puts the value of its bytes, sign- or
zero-extended, in `rd`; with `rd` = x0 it still completes and changes no register. -/
def Obligations.LoadsReadTheirBytes : Prop :=
  ∀ (s : State) (rd rs1 : Reg) (imm : BitVec 12), rd.val < s.cfg.nreg.count →
    let addr := effAddr s rs1 imm
    let value := bytesValue s.hart.mem s.bits addr.toNat
    let allowed := fun n => s.alignmentAllows addr n ∧ s.served .load addr n
    (allowed 1 → Completes (.lb rd rs1 imm) s rd (fun v => v.toInt = (value 1 : Int).bmod (2 ^ 8)))
      ∧ (allowed 2 → Completes (.lh rd rs1 imm) s rd (fun v => v.toInt = (value 2 : Int).bmod (2 ^ 16)))
      ∧ (allowed 4 → Completes (.lw rd rs1 imm) s rd (fun v => v.toInt = (value 4 : Int).bmod (2 ^ 32)))
      ∧ (allowed 1 → Completes (.lbu rd rs1 imm) s rd (fun v => v.toNat = value 1))
      ∧ (allowed 2 → Completes (.lhu rd rs1 imm) s rd (fun v => v.toNat = value 2))
      ∧ (s.cfg.xlen = .rv64 → allowed 4 → Completes (.lwu rd rs1 imm) s rd (fun v => v.toNat = value 4))
      ∧ (s.cfg.xlen = .rv64 → allowed 8 → Completes (.ld rd rs1 imm) s rd (fun v => v.toNat = value 8))

/-- R178 to R181: a store the alignment policy and the accessor allow writes the low bytes of `rs2` at its address,
least significant first, and changes no register and no other byte. -/
def Obligations.StoresWriteTheirBytes : Prop :=
  ∀ (s : State) (rs1 rs2 : Reg) (imm : BitVec 12), s.hart.mem.wf = true →
    let addr := effAddr s rs1 imm
    let allowed := fun n => s.alignmentAllows addr n ∧ s.served .store addr n
    (allowed 1 → StoresBytes (.sb rs1 rs2 imm) s addr.toNat 1 (s.xNat rs2))
      ∧ (allowed 2 → StoresBytes (.sh rs1 rs2 imm) s addr.toNat 2 (s.xNat rs2))
      ∧ (allowed 4 → StoresBytes (.sw rs1 rs2 imm) s addr.toNat 4 (s.xNat rs2))
      ∧ (s.cfg.xlen = .rv64 → allowed 8 → StoresBytes (.sd rs1 rs2 imm) s addr.toNat 8 (s.xNat rs2))

/-- R170, R41, R42, R321, R323: an access the accessor refuses raises `MemoryAccess` with the effective address, the
size and the direction, also in a load into x0, and changes nothing else. -/
def Obligations.RefusedAccessesRaise : Prop :=
  ∀ (s : State) (r rs1 : Reg) (imm : BitVec 12),
    let addr := effAddr s rs1 imm
    let refused := fun k n => s.alignmentAllows addr n ∧ ¬ s.served k addr n
    (refused .load 1 → Raises (.lb r rs1 imm) s (.memoryAccess addr 1 .load)
        ∧ Raises (.lbu r rs1 imm) s (.memoryAccess addr 1 .load))
      ∧ (refused .load 2 → Raises (.lh r rs1 imm) s (.memoryAccess addr 2 .load)
        ∧ Raises (.lhu r rs1 imm) s (.memoryAccess addr 2 .load))
      ∧ (refused .load 4 → Raises (.lw r rs1 imm) s (.memoryAccess addr 4 .load))
      ∧ (s.cfg.xlen = .rv64 → refused .load 4 → Raises (.lwu r rs1 imm) s (.memoryAccess addr 4 .load))
      ∧ (s.cfg.xlen = .rv64 → refused .load 8 → Raises (.ld r rs1 imm) s (.memoryAccess addr 8 .load))
      ∧ (refused .store 1 → Raises (.sb rs1 r imm) s (.memoryAccess addr 1 .store))
      ∧ (refused .store 2 → Raises (.sh rs1 r imm) s (.memoryAccess addr 2 .store))
      ∧ (refused .store 4 → Raises (.sw rs1 r imm) s (.memoryAccess addr 4 .store))
      ∧ (s.cfg.xlen = .rv64 → refused .store 8 → Raises (.sd rs1 r imm) s (.memoryAccess addr 8 .store))

/-- R47, R170, R324: with `MISALIGNED_DATA = Fault` a misaligned access raises `MisalignedAccess`, whether or not
the accessor would have served it, and changes nothing else; a byte access never does. -/
def Obligations.MisalignedAccessesRaise : Prop :=
  ∀ (s : State) (r rs1 : Reg) (imm : BitVec 12), s.cfg.misaligned = .fault →
    let addr := effAddr s rs1 imm
    (addr.toNat % 2 ≠ 0 → Raises (.lh r rs1 imm) s (.misalignedAccess addr 2 .load)
        ∧ Raises (.lhu r rs1 imm) s (.misalignedAccess addr 2 .load)
        ∧ Raises (.sh rs1 r imm) s (.misalignedAccess addr 2 .store))
      ∧ (addr.toNat % 4 ≠ 0 → Raises (.lw r rs1 imm) s (.misalignedAccess addr 4 .load)
        ∧ Raises (.sw rs1 r imm) s (.misalignedAccess addr 4 .store))
      ∧ (s.cfg.xlen = .rv64 → addr.toNat % 4 ≠ 0 → Raises (.lwu r rs1 imm) s (.misalignedAccess addr 4 .load))
      ∧ (s.cfg.xlen = .rv64 → addr.toNat % 8 ≠ 0 → Raises (.ld r rs1 imm) s (.misalignedAccess addr 8 .load)
        ∧ Raises (.sd rs1 r imm) s (.misalignedAccess addr 8 .store))
      ∧ s.alignmentAllows addr 1

/-! ## System instructions (43_system.md) -/

/-- R190, R193, R93: FENCE goes on at `pc + 4` whatever its fields hold, and changes nothing else. -/
def Obligations.FenceDoesNothing : Prop :=
  ∀ (s : State) (fm pred succ : BitVec 4) (rs1 rd : BitVec 5),
    GoesTo (.fence fm pred succ rs1 rd) s (s.pc + 4)

/-- R191, R192, R306: ECALL and EBREAK end the run `Stopped`, with the pc left at the instruction and every
register and byte unchanged. -/
def Obligations.EcallAndEbreakStop : Prop :=
  ∀ (s : State) (i : Instr), i = .ecall ∨ i = .ebreak →
    ∃ h : s.HartOf, exec i s = .next (s.withHart h) ∧ h.status = .stopped ∧ h.pc = s.pc
      ∧ (∀ r, h.x r = s.x r) ∧ ∀ a, h.mem.read a = s.byteAt a

/-! ## Multiply and divide (44_mul_div.md) -/

/-- R201 to R205: the halves of the exact product, and the word product sign-extended. -/
def Obligations.Multiplications : Prop :=
  ∀ (s : State) (rd rs1 rs2 : Reg), rd.val < s.cfg.nreg.count →
    Completes (.mul rd rs1 rs2) s rd (fun v => v.toNat = s.xNat rs1 * s.xNat rs2 % 2 ^ s.bits)
      ∧ Completes (.mulh rd rs1 rs2) s rd (fun v => v.toInt = s.xInt rs1 * s.xInt rs2 / 2 ^ s.bits)
      ∧ Completes (.mulhsu rd rs1 rs2) s rd (fun v => v.toInt = s.xInt rs1 * s.xNat rs2 / 2 ^ s.bits)
      ∧ Completes (.mulhu rd rs1 rs2) s rd (fun v => v.toNat = s.xNat rs1 * s.xNat rs2 / 2 ^ s.bits)
      ∧ (s.cfg.xlen = .rv64 →
          Completes (.mulw rd rs1 rs2) s rd
            (fun v => v.toInt = ((s.xNat rs1 * s.xNat rs2 : Nat) : Int).bmod (2 ^ 32)))

/-- R206 to R209: quotients rounded toward zero and their remainders, with the results R200 gives for division by
zero and signed overflow. -/
def Obligations.Divisions : Prop :=
  ∀ (s : State) (rd rs1 rs2 : Reg), rd.val < s.cfg.nreg.count →
    let a := s.xInt rs1
    let b := s.xInt rs2
    Completes (.div rd rs1 rs2) s rd
        (fun v => v.toInt = if b = 0 then -1 else if a = -2 ^ (s.bits - 1) ∧ b = -1 then a else a.tdiv b)
      ∧ Completes (.divu rd rs1 rs2) s rd
          (fun v => v.toNat = if s.xNat rs2 = 0 then 2 ^ s.bits - 1 else s.xNat rs1 / s.xNat rs2)
      ∧ Completes (.rem rd rs1 rs2) s rd
          (fun v => v.toInt =
            if b = 0 then a else if a = -2 ^ (s.bits - 1) ∧ b = -1 then 0 else a - a.tdiv b * b)
      ∧ Completes (.remu rd rs1 rs2) s rd
          (fun v => v.toNat = if s.xNat rs2 = 0 then s.xNat rs1 else s.xNat rs1 % s.xNat rs2)

/-- R210 to R213: the same on the low 32 bits, every result sign-extended, the unsigned ones too. -/
def Obligations.WordDivisions : Prop :=
  ∀ (s : State) (rd rs1 rs2 : Reg), rd.val < s.cfg.nreg.count → s.cfg.xlen = .rv64 →
    let a := (s.xNat rs1 : Int).bmod (2 ^ 32)
    let b := (s.xNat rs2 : Int).bmod (2 ^ 32)
    let ua := s.xNat rs1 % 2 ^ 32
    let ub := s.xNat rs2 % 2 ^ 32
    Completes (.divw rd rs1 rs2) s rd
        (fun v => v.toInt = if b = 0 then -1 else if a = -2 ^ 31 ∧ b = -1 then a else a.tdiv b)
      ∧ Completes (.divuw rd rs1 rs2) s rd
          (fun v => v.toInt = if ub = 0 then -1 else ((ua / ub : Nat) : Int).bmod (2 ^ 32))
      ∧ Completes (.remw rd rs1 rs2) s rd
          (fun v => v.toInt = if b = 0 then a else if a = -2 ^ 31 ∧ b = -1 then 0 else a - a.tdiv b * b)
      ∧ Completes (.remuw rd rs1 rs2) s rd
          (fun v => v.toInt = if ub = 0 then a else ((ua % ub : Nat) : Int).bmod (2 ^ 32))

/-- R216: the laws of multiply and divide, at every operation width. -/
def Obligations.MultiplyDivideLaws : Prop :=
  ∀ (w : Nat) (a b : BitVec w), 0 < w →
    a * b = b * a
      ∧ highHalf w (a.toInt * b.toInt) = highHalf w (b.toInt * a.toInt)
      ∧ highHalf w ((a.toNat : Int) * b.toNat) = highHalf w ((b.toNat : Int) * a.toNat)
      ∧ (highHalf w (a.toInt * b.toInt) ++ a * b).toInt = a.toInt * b.toInt
      ∧ (highHalf w ((a.toNat : Int) * b.toNat) ++ a * b).toNat = a.toNat * b.toNat
      ∧ divS a b * b + remS a b = a
      ∧ divU a b * b + remU a b = a
      ∧ (b ≠ 0 → (remS a b).toInt.natAbs < b.toInt.natAbs)
      ∧ ((remS a b).toInt = 0 ∨ ((remS a b).toInt < 0 ↔ a.toInt < 0))
      ∧ (b ≠ 0 → (remU a b).toNat < b.toNat)
      ∧ (divS a 0).toNat = 2 ^ w - 1 ∧ (divU a 0).toNat = 2 ^ w - 1 ∧ remS a 0 = a ∧ remU a 0 = a
      ∧ (a.toInt = -2 ^ (w - 1) → b.toInt = -1 → (divS a b).toInt = -2 ^ (w - 1) ∧ remS a b = 0)

/-! ## Address generation (45_zba.md) -/

/-- R221 to R228: shift `rs1`, add `rs2`, modulo 2^XLEN; in the unsigned-word forms only the low 32 bits of
`rs1` count, zero-extended before the shift, and `rs2` is used whole. -/
def Obligations.AddressGeneration : Prop :=
  ∀ (s : State) (rd rs1 rs2 : Reg) (shamt : BitVec 6), rd.val < s.cfg.nreg.count →
    let low := s.xNat rs1 % 2 ^ 32
    Completes (.sh1add rd rs1 rs2) s rd (fun v => v.toNat = (s.xNat rs2 + s.xNat rs1 * 2) % 2 ^ s.bits)
      ∧ Completes (.sh2add rd rs1 rs2) s rd (fun v => v.toNat = (s.xNat rs2 + s.xNat rs1 * 4) % 2 ^ s.bits)
      ∧ Completes (.sh3add rd rs1 rs2) s rd (fun v => v.toNat = (s.xNat rs2 + s.xNat rs1 * 8) % 2 ^ s.bits)
      ∧ (s.cfg.xlen = .rv64 →
          Completes (.addUw rd rs1 rs2) s rd (fun v => v.toNat = (s.xNat rs2 + low) % 2 ^ 64)
            ∧ Completes (.sh1addUw rd rs1 rs2) s rd (fun v => v.toNat = (s.xNat rs2 + low * 2) % 2 ^ 64)
            ∧ Completes (.sh2addUw rd rs1 rs2) s rd (fun v => v.toNat = (s.xNat rs2 + low * 4) % 2 ^ 64)
            ∧ Completes (.sh3addUw rd rs1 rs2) s rd (fun v => v.toNat = (s.xNat rs2 + low * 8) % 2 ^ 64)
            ∧ Completes (.slliUw rd rs1 shamt) s rd (fun v => v.toNat = low * 2 ^ shamt.toNat % 2 ^ 64))

/-! ## Single-bit manipulation (46_zbs.md) -/

/-- R231 to R234: bit `x[rs2] mod XLEN` is set, cleared, inverted or extracted, and no other bit changes. -/
def Obligations.SingleBitRegisterForms : Prop :=
  ∀ (s : State) (rd rs1 rs2 : Reg), rd.val < s.cfg.nreg.count →
    let index := s.xNat rs2 % s.bits
    let a := fun k => (s.x rs1).getLsbD k
    Completes (.bset rd rs1 rs2) s rd
        (fun v => ∀ k, k < s.bits → v.getLsbD k = if k = index then true else a k)
      ∧ Completes (.bclr rd rs1 rs2) s rd
          (fun v => ∀ k, k < s.bits → v.getLsbD k = if k = index then false else a k)
      ∧ Completes (.binv rd rs1 rs2) s rd
          (fun v => ∀ k, k < s.bits → v.getLsbD k = if k = index then !a k else a k)
      ∧ Completes (.bext rd rs1 rs2) s rd (fun v => v.toNat = (a index).toNat)

/-- R235 to R238: the same at the bit index of the instruction, for every index that decodes. -/
def Obligations.SingleBitImmediateForms : Prop :=
  ∀ (s : State) (rd rs1 : Reg) (shamt : BitVec 6), rd.val < s.cfg.nreg.count → shamt.toNat < s.bits →
    let a := fun k => (s.x rs1).getLsbD k
    Completes (.bseti rd rs1 shamt) s rd
        (fun v => ∀ k, k < s.bits → v.getLsbD k = if k = shamt.toNat then true else a k)
      ∧ Completes (.bclri rd rs1 shamt) s rd
          (fun v => ∀ k, k < s.bits → v.getLsbD k = if k = shamt.toNat then false else a k)
      ∧ Completes (.binvi rd rs1 shamt) s rd
          (fun v => ∀ k, k < s.bits → v.getLsbD k = if k = shamt.toNat then !a k else a k)
      ∧ Completes (.bexti rd rs1 shamt) s rd (fun v => v.toNat = (a shamt.toNat).toNat)

/-! ## Carry-less multiplication (47_zbc_zbkc.md) -/

/-- R241 to R243: bit `k` of CLMUL, CLMULH and CLMULR is bit `k`, `k + XLEN` and `k + XLEN - 1` of the carry-less
product. -/
def Obligations.CarrylessMultiplications : Prop :=
  ∀ (s : State) (rd rs1 rs2 : Reg), rd.val < s.cfg.nreg.count →
    let bit := carrylessBit (s.x rs1) (s.x rs2)
    Completes (.clmul rd rs1 rs2) s rd (fun v => ∀ k, k < s.bits → v.getLsbD k = bit k)
      ∧ Completes (.clmulh rd rs1 rs2) s rd (fun v => ∀ k, k < s.bits → v.getLsbD k = bit (k + s.bits))
      ∧ Completes (.clmulr rd rs1 rs2) s rd (fun v => ∀ k, k < s.bits → v.getLsbD k = bit (k + s.bits - 1))

/-- R245: the laws of carry-less multiplication, at every width. -/
def Obligations.CarrylessLaws : Prop :=
  ∀ (w : Nat) (a b c : BitVec w), 0 < w →
    let low := fun p : BitVec (2 * w) => p.extractLsb' 0 w
    let high := fun p : BitVec (2 * w) => p.extractLsb' w w
    let reversed := fun p : BitVec (2 * w) => p.extractLsb' (w - 1) w
    clmul2 a b = clmul2 b a
      ∧ clmul2 a (b ^^^ c) = clmul2 a b ^^^ clmul2 a c
      ∧ reversed (clmul2 a b) = (low (clmul2 a.reverse b.reverse)).reverse
      ∧ high (clmul2 a b) = reversed (clmul2 a b) >>> 1
      ∧ (low (clmul2 a b)).getLsbD 0 = (a.getLsbD 0 && b.getLsbD 0)

/-! ## The step, errors and the hook (60_exceptions.md) -/

/-- R300, R303, R61: when the four bytes at an aligned pc decode to an instruction, a step of a running run is the
instruction's meaning in that state, which itself moves the pc; the instruction is well-formed. -/
def Obligations.StepRunsTheDecodedInstruction : Prop :=
  ∀ (s : State) (d : Decoded), s.hart.status = .running → s.pc.toNat % 4 = 0 → s.served .fetch s.pc 4 →
    decodeBytes s.cfg ((List.range 4).map fun j => s.byteAt (s.pc.toNat + j)) = .ok (d, []) →
    step s = exec d.insn s ∧ d.insn.wf s.cfg.xlen s.cfg.nreg = true

/-- R301, R46: a step at a pc that is not a multiple of 4 raises `UnalignedFetch` with that pc, whatever the accessor
would have answered; R302: at an aligned pc a refused fetch raises `FetchAccess` with that pc and no word. Nothing
else changes. -/
def Obligations.FetchErrors : Prop :=
  ∀ s : State, s.hart.status = .running →
    (s.pc.toNat % 4 ≠ 0 → step s = .next (s.ended (.failed (.unalignedFetch s.pc))))
    ∧ (s.pc.toNat % 4 = 0 → ¬ s.served .fetch s.pc 4 →
        step s = .next (s.ended (.failed (.executionFault s.pc none none (.fetchAccess s.pc)))))

/-- R309: `IllegalInstruction` is raised exactly when the fetched word does not decode and there is no hook or the
hook declines; it carries the word and its address, and nothing else changes. -/
def Obligations.IllegalExactlyWhenNothingTakesTheWord : Prop :=
  ∀ (s : State) (p : s.Word) (w : InsnWord), s.hart.status = .running →
    ((∃ h : s.HartOf, step s = .next (s.withHart h) ∧ h.status = .failed (.illegalInstruction p w)) ↔
      p = s.pc ∧ s.pc.toNat % 4 = 0 ∧ s.fetch = some w ∧ decodeWord s.cfg w = none
        ∧ (s.cfg.hook = .none ∨ s.hookAnswer w = .decline))
    ∧ ∀ h : s.HartOf, step s = .next (s.withHart h) → h.status = .failed (.illegalInstruction p w) →
        s.withHart h = s.ended (.failed (.illegalInstruction p w))

/-- R308, R310 to R312: what a hook that takes the word does, for every list of effects and every outcome. Its effects
are made one after another, each as `EffectDoes` says; after `Continue` the pc is 4 past the value they left, which
is the word's address where none writes the pc; `Break`, a host fault and a custom error end the run, an error with the
word and its address, and the hook's changes stay. That effects go in listed order, that values are truncated to XLEN or
to the size of a store, that a refused store changes nothing, and that a register the core does not have is not written,
are the model's choices (logs 5, 6 and 18). -/
def Obligations.HookOutcomes : Prop :=
  ∀ (s : State) (w : InsnWord) (effects : List HookEffect) (out : HookEnd s.cfg.customErrors),
    s.hart.status = .running → s.pc.toNat % 4 = 0 → s.fetch = some w → decodeWord s.cfg w = none →
    s.hart.mem.wf = true → s.hookAnswer w = .done effects out →
    ∃ left h : s.HartOf, EffectsLead s.cfg.accessor effects s.hart left
      ∧ ((∀ t, HookEffect.setPc t ∉ effects) → left.pc = s.pc)
      ∧ step s = .next (s.withHart h)
      ∧ (∀ q, h.x q = left.x q)
      ∧ (∀ a, h.mem.read a = left.mem.read a)
      ∧ match out with
        | .cont => h.status = .running ∧ h.pc = left.pc + 4
        | .brk => h.status = .stopped ∧ h.pc = left.pc
        | .fault k => h.status = .failed (.executionFault s.pc (some w) none (.hostFault k)) ∧ h.pc = left.pc
        | .custom c => h.status = .failed (.custom s.pc w c) ∧ h.pc = left.pc

/-- R35, R36, R300, R322: a step of a running run always answers a next state, of the same configuration: nothing
that decodes, and nothing that does not, stops the model. A run that has ended takes no step: `Stopped` and `Failed`
are never left (the named stops are the model's: log 9). -/
def Obligations.ExactlyRunningRunsStep : Prop :=
  ∀ s : State,
    (s.hart.status = .running → ∃ h : s.HartOf, step s = .next (s.withHart h))
    ∧ (s.hart.status = .stopped → step s = .fault .runStopped)
    ∧ ∀ e, s.hart.status = .failed e → step s = .fault .runFailed

/-- R323: an instruction that raises an error leaves the state as it was, but for the status; R320: only loads and
stores raise errors. -/
def Obligations.InstructionErrorsArePrecise : Prop :=
  ∀ (i : Instr) (s : State) (h : s.HartOf) (e : RunError s.bits s.cfg.customErrors), s.hart.status = .running →
    exec i s = .next (s.withHart h) → h.status = .failed e →
    s.withHart h = s.ended (.failed e) ∧ i.op ∈ [.lb, .lh, .lw, .lbu, .lhu, .lwu, .ld, .sb, .sh, .sw, .sd]

/-- R305: only ECALL and EBREAK break. -/
def Obligations.OnlyEcallAndEbreakBreak : Prop :=
  ∀ (i : Instr) (s : State) (h : s.HartOf), s.hart.status = .running → exec i s = .next (s.withHart h) →
    (h.status = .stopped ↔ i = .ecall ∨ i = .ebreak)

/-- R304, R28: an instruction that goes on takes the pc to `pc + 4`, unless it is a jump or a branch. -/
def Obligations.OnlyJumpsAndBranchesSetThePc : Prop :=
  ∀ (i : Instr) (s : State) (h : s.HartOf), exec i s = .next (s.withHart h) → h.status = .running →
    i.op ∉ [.jal, .jalr, .beq, .bne, .blt, .bge, .bltu, .bgeu] → h.pc = s.pc + 4

/-- R23, its last sentence, R26: no instruction writes more than one register, and only one it names as an operand. -/
def Obligations.AtMostOneRegisterIsWritten : Prop :=
  ∀ (i : Instr) (s : State) (h : s.HartOf), exec i s = .next (s.withHart h) →
    (∀ r, h.x r = s.x r) ∨ ∃ rd ∈ i.registers, rd ≠ 0 ∧ ∀ r, r ≠ rd → h.x r = s.x r

/-- R40: only a store changes memory, and only the bytes of its width at its effective address. -/
def Obligations.OnlyStoresChangeMemory : Prop :=
  ∀ (i : Instr) (s : State) (h : s.HartOf) (a : Nat), s.hart.mem.wf = true → exec i s = .next (s.withHart h) →
    h.mem.read a ≠ s.byteAt a →
    ∃ rs1 rs2 imm n,
      (i, n) ∈ [(.sb rs1 rs2 imm, 1), (.sh rs1 rs2 imm, 2), (.sw rs1 rs2 imm, 4), (.sd rs1 rs2 imm, 8)]
        ∧ inRange s.bits (effAddr s rs1 imm).toNat n a

/-- Every step keeps the invariant: memory stays canonical and inside the address space (R40), and the error of a run
that fails names the pc, the word and the instruction as R301, R302, R309, R320 and R321 say. -/
def Obligations.StepKeepsTheInvariant : Prop :=
  ∀ s t : State, s.Inv → step s = .next t → t.Inv

/-- R350, R351: every state that is constructed meets the invariant, whatever the parameters; so does the model's reset
state, whose values are the model's choice (logs 1 to 3). -/
def Obligations.ResetMeetsTheInvariant : Prop :=
  (∀ (p : Parameters) (s : State), State.construct p = .ok s → s.Inv) ∧ State.reset.Inv
end

