-- ==== Sys2Proof/Laws/Encoding.lean ====
section
/-! SUPPORT. Encoding, one format at a time: the fields read from an encoded word are what was encoded,
and an encoded word matches a row whose pattern is the format with its operands at 0. -/

namespace Sys2Proof

/-! ## Fields of a concatenation -/

@[simp] theorem Reg.toFin_bits (r : Reg) : (Reg.bits r).toFin = r := rfl

theorem extract_drop {a c : Nat} (x : BitVec a) (z : BitVec c) (s len : Nat) :
    (x ++ z).extractLsb' (c + s) len = x.extractLsb' s len := by
  rw [BitVec.extractLsb'_append_eq_of_le (by omega), Nat.add_sub_cancel_left]

theorem extract_low {a c : Nat} (x : BitVec a) (z : BitVec c) : (x ++ z).extractLsb' 0 c = z :=
  BitVec.extractLsb'_append_eq_right

theorem extract_top {a c : Nat} (x : BitVec a) (z : BitVec c) : (x ++ z).extractLsb' c a = x :=
  BitVec.extractLsb'_append_eq_left

/-- A field above one below it, and above several below it. -/
theorem extract_mid {a b c : Nat} (x : BitVec a) (y : BitVec b) (z : BitVec c) :
    (x ++ y ++ z).extractLsb' c b = y :=
  (extract_drop _ z 0 b).trans (extract_low x y)

theorem join_extract {n : Nat} (x : BitVec n) (a b : Nat) (h : b + a = n) :
    x.extractLsb' a b ++ x.extractLsb' 0 a = x.cast h.symm := by
  subst h
  rw [BitVec.extractLsb'_append_extractLsb'_eq_extractLsb' (by omega), BitVec.cast_eq,
    BitVec.extractLsb'_eq_self]

/-! ## Masks of a concatenation -/

theorem and_fields3 {a b c : Nat} (x₁ m₁ : BitVec a) (x₂ m₂ : BitVec b) (x₃ m₃ : BitVec c) :
    (x₁ ++ x₂ ++ x₃) &&& (m₁ ++ m₂ ++ m₃) = (x₁ &&& m₁) ++ (x₂ &&& m₂) ++ (x₃ &&& m₃) := by
  simp only [BitVec.and_append]

theorem and_fields5 {a b c d e : Nat} (x₁ m₁ : BitVec a) (x₂ m₂ : BitVec b) (x₃ m₃ : BitVec c)
    (x₄ m₄ : BitVec d) (x₅ m₅ : BitVec e) :
    (x₁ ++ x₂ ++ x₃ ++ x₄ ++ x₅) &&& (m₁ ++ m₂ ++ m₃ ++ m₄ ++ m₅)
      = (x₁ &&& m₁) ++ (x₂ &&& m₂) ++ (x₃ &&& m₃) ++ (x₄ &&& m₄) ++ (x₅ &&& m₅) := by
  simp only [BitVec.and_append]

theorem and_fields6 {a b c d e f : Nat} (x₁ m₁ : BitVec a) (x₂ m₂ : BitVec b) (x₃ m₃ : BitVec c)
    (x₄ m₄ : BitVec d) (x₅ m₅ : BitVec e) (x₆ m₆ : BitVec f) :
    (x₁ ++ x₂ ++ x₃ ++ x₄ ++ x₅ ++ x₆) &&& (m₁ ++ m₂ ++ m₃ ++ m₄ ++ m₅ ++ m₆)
      = (x₁ &&& m₁) ++ (x₂ &&& m₂) ++ (x₃ &&& m₃) ++ (x₄ &&& m₄) ++ (x₅ &&& m₅) ++ (x₆ &&& m₆) := by
  simp only [BitVec.and_append]

/-- A word matches a row when its masked bits are the pattern and its operand registers are in range. -/
theorem matches_of {n : Nreg} {f : Format} {p m w : InsnWord} (hm : w &&& m = p)
    (hr : (f.operands w).all (fun r => r.val < n.count) = true) : Row.matches n ⟨f, p, m⟩ w = true := by
  simp [Row.matches, hm]
  simpa using hr

/-! ## Format R -/

section FormatR
variable (f7 : BitVec 7) (rs2 rs1 : Reg) (f3 : BitVec 3) (rd : Reg) (opc : BitVec 7)

@[simp] theorem encR_rd : InsnWord.rd (encR f7 rs2 rs1 f3 rd opc) = rd :=
  congrArg BitVec.toFin (extract_mid (f7 ++ Reg.bits rs2 ++ Reg.bits rs1 ++ f3) (Reg.bits rd) opc)

@[simp] theorem encR_rs1 : InsnWord.rs1 (encR f7 rs2 rs1 f3 rd opc) = rs1 :=
  congrArg BitVec.toFin ((extract_drop _ opc 8 5).trans ((extract_drop _ (Reg.bits rd) 3 5).trans
    (extract_mid (f7 ++ Reg.bits rs2) (Reg.bits rs1) f3)))

@[simp] theorem encR_rs2 : InsnWord.rs2 (encR f7 rs2 rs1 f3 rd opc) = rs2 :=
  congrArg BitVec.toFin ((extract_drop _ opc 13 5).trans ((extract_drop _ (Reg.bits rd) 8 5).trans
    ((extract_drop _ f3 5 5).trans (extract_mid f7 (Reg.bits rs2) (Reg.bits rs1)))))

theorem encR_and_mask : encR f7 rs2 rs1 f3 rd opc &&& 0xFE00707F = encR f7 0 0 f3 0 opc := by
  refine (and_fields6 f7 (.allOnes 7) (Reg.bits rs2) 0 (Reg.bits rs1) 0 f3 (.allOnes 3)
    (Reg.bits rd) 0 opc (.allOnes 7)).trans ?_
  simp only [BitVec.and_allOnes, BitVec.ofNat_eq_ofNat, BitVec.and_zero]
  rfl

theorem encR_matches {n : Nreg} (h : [rd, rs1, rs2].all (fun r => r.val < n.count) = true) :
    Row.matches n ⟨.r, encR f7 0 0 f3 0 opc, 0xFE00707F⟩ (encR f7 rs2 rs1 f3 rd opc) = true :=
  matches_of (encR_and_mask ..) (by simpa [Format.operands] using h)

end FormatR

/-! ## Format I and the I-shift formats -/

section FormatI
variable (imm : BitVec 12) (rs1 : Reg) (f3 : BitVec 3) (rd : Reg) (opc : BitVec 7)

@[simp] theorem encI_rd : InsnWord.rd (encI imm rs1 f3 rd opc) = rd :=
  congrArg BitVec.toFin (extract_mid (imm ++ Reg.bits rs1 ++ f3) (Reg.bits rd) opc)

@[simp] theorem encI_rs1 : InsnWord.rs1 (encI imm rs1 f3 rd opc) = rs1 :=
  congrArg BitVec.toFin ((extract_drop _ opc 8 5).trans ((extract_drop _ (Reg.bits rd) 3 5).trans
    (extract_mid imm (Reg.bits rs1) f3)))

@[simp] theorem encI_iImm : InsnWord.iImm (encI imm rs1 f3 rd opc) = imm :=
  (extract_drop _ opc 13 12).trans ((extract_drop _ (Reg.bits rd) 8 12).trans
    ((extract_drop _ f3 5 12).trans (extract_top imm (Reg.bits rs1))))

theorem encI_and_mask : encI imm rs1 f3 rd opc &&& 0x0000707F = encI 0 0 f3 0 opc := by
  refine (and_fields5 imm 0 (Reg.bits rs1) 0 f3 (.allOnes 3) (Reg.bits rd) 0 opc (.allOnes 7)).trans ?_
  simp only [BitVec.and_allOnes, BitVec.ofNat_eq_ofNat, BitVec.and_zero]
  rfl

theorem encI_matches {n : Nreg} (h : [rd, rs1].all (fun r => r.val < n.count) = true) :
    Row.matches n ⟨.i, encI 0 0 f3 0 opc, 0x0000707F⟩ (encI imm rs1 f3 rd opc) = true :=
  matches_of (encI_and_mask ..) (by simpa [Format.operands] using h)

end FormatI

section FormatShift6
variable (f6 shamt : BitVec 6) (rs1 : Reg) (f3 : BitVec 3) (rd : Reg) (opc : BitVec 7)

@[simp] theorem encShift6_rd : InsnWord.rd (encShift6 f6 shamt rs1 f3 rd opc) = rd :=
  congrArg BitVec.toFin (extract_mid (f6 ++ shamt ++ Reg.bits rs1 ++ f3) (Reg.bits rd) opc)

@[simp] theorem encShift6_rs1 : InsnWord.rs1 (encShift6 f6 shamt rs1 f3 rd opc) = rs1 :=
  congrArg BitVec.toFin ((extract_drop _ opc 8 5).trans ((extract_drop _ (Reg.bits rd) 3 5).trans
    (extract_mid (f6 ++ shamt) (Reg.bits rs1) f3)))

@[simp] theorem encShift6_shamt6 : InsnWord.shamt6 (encShift6 f6 shamt rs1 f3 rd opc) = shamt :=
  (extract_drop _ opc 13 6).trans ((extract_drop _ (Reg.bits rd) 8 6).trans
    ((extract_drop _ f3 5 6).trans (extract_mid f6 shamt (Reg.bits rs1))))

theorem encShift6_and_mask :
    encShift6 f6 shamt rs1 f3 rd opc &&& 0xFC00707F = encShift6 f6 0 0 f3 0 opc := by
  refine (and_fields6 f6 (.allOnes 6) shamt 0 (Reg.bits rs1) 0 f3 (.allOnes 3)
    (Reg.bits rd) 0 opc (.allOnes 7)).trans ?_
  simp only [BitVec.and_allOnes, BitVec.ofNat_eq_ofNat, BitVec.and_zero]
  rfl

/-- With XLEN = 32 the mask holds shamt[5] too, which is 0 in a well-formed instruction. -/
theorem encShift6_and_mask32 (h : shamt.toNat < 32) :
    encShift6 f6 shamt rs1 f3 rd opc &&& 0xFE00707F = encShift6 f6 0 0 f3 0 opc := by
  refine (and_fields6 f6 (.allOnes 6) shamt 0b100000 (Reg.bits rs1) 0 f3 (.allOnes 3)
    (Reg.bits rd) 0 opc (.allOnes 7)).trans ?_
  have hs : shamt &&& 32#6 = 0#6 := by revert h; revert shamt; decide
  simp only [hs, BitVec.and_allOnes, BitVec.ofNat_eq_ofNat, BitVec.and_zero]
  rfl

theorem encShift6_matches {x : Xlen} {n : Nreg}
    (h : [rd, rs1].all (fun r => r.val < n.count) = true)
    (hs : x = .rv32 → shamt.toNat < 32) :
    Row.matches n (Row.shiftImm x (encShift6 f6 0 0 f3 0 opc)) (encShift6 f6 shamt rs1 f3 rd opc)
      = true := by
  cases x
  · exact matches_of (encShift6_and_mask32 _ _ _ _ _ _ (hs rfl)) (by simpa [Format.operands] using h)
  · exact matches_of (encShift6_and_mask ..) (by simpa [Format.operands] using h)

end FormatShift6

section FormatShift5
variable (f7 : BitVec 7) (shamt : BitVec 5) (rs1 : Reg) (f3 : BitVec 3) (rd : Reg) (opc : BitVec 7)

@[simp] theorem encShift5_rd : InsnWord.rd (encShift5 f7 shamt rs1 f3 rd opc) = rd :=
  congrArg BitVec.toFin (extract_mid (f7 ++ shamt ++ Reg.bits rs1 ++ f3) (Reg.bits rd) opc)

@[simp] theorem encShift5_rs1 : InsnWord.rs1 (encShift5 f7 shamt rs1 f3 rd opc) = rs1 :=
  congrArg BitVec.toFin ((extract_drop _ opc 8 5).trans ((extract_drop _ (Reg.bits rd) 3 5).trans
    (extract_mid (f7 ++ shamt) (Reg.bits rs1) f3)))

@[simp] theorem encShift5_shamt5 : InsnWord.shamt5 (encShift5 f7 shamt rs1 f3 rd opc) = shamt :=
  (extract_drop _ opc 13 5).trans ((extract_drop _ (Reg.bits rd) 8 5).trans
    ((extract_drop _ f3 5 5).trans (extract_mid f7 shamt (Reg.bits rs1))))

theorem encShift5_and_mask :
    encShift5 f7 shamt rs1 f3 rd opc &&& 0xFE00707F = encShift5 f7 0 0 f3 0 opc := by
  refine (and_fields6 f7 (.allOnes 7) shamt 0 (Reg.bits rs1) 0 f3 (.allOnes 3)
    (Reg.bits rd) 0 opc (.allOnes 7)).trans ?_
  simp only [BitVec.and_allOnes, BitVec.ofNat_eq_ofNat, BitVec.and_zero]
  rfl

theorem encShift5_matches {n : Nreg} (h : [rd, rs1].all (fun r => r.val < n.count) = true) :
    Row.matches n ⟨.iShift5, encShift5 f7 0 0 f3 0 opc, 0xFE00707F⟩
      (encShift5 f7 shamt rs1 f3 rd opc) = true :=
  matches_of (encShift5_and_mask ..) (by simpa [Format.operands] using h)

end FormatShift5

/-! ## Formats S and B -/

section FormatS
variable (imm : BitVec 12) (rs2 rs1 : Reg) (f3 : BitVec 3) (opc : BitVec 7)

@[simp] theorem encS_rs1 : InsnWord.rs1 (encS imm rs2 rs1 f3 opc) = rs1 :=
  congrArg BitVec.toFin ((extract_drop _ opc 8 5).trans
    ((extract_drop _ (imm.extractLsb' 0 5) 3 5).trans
      (extract_mid (imm.extractLsb' 5 7 ++ Reg.bits rs2) (Reg.bits rs1) f3)))

@[simp] theorem encS_rs2 : InsnWord.rs2 (encS imm rs2 rs1 f3 opc) = rs2 :=
  congrArg BitVec.toFin ((extract_drop _ opc 13 5).trans
    ((extract_drop _ (imm.extractLsb' 0 5) 8 5).trans
      ((extract_drop _ f3 5 5).trans (extract_mid (imm.extractLsb' 5 7) (Reg.bits rs2) (Reg.bits rs1)))))

@[simp] theorem encS_sImm : InsnWord.sImm (encS imm rs2 rs1 f3 opc) = imm := by
  have hi : (encS imm rs2 rs1 f3 opc).extractLsb' 25 7 = imm.extractLsb' 5 7 :=
    (extract_drop _ opc 18 7).trans ((extract_drop _ (imm.extractLsb' 0 5) 13 7).trans
      ((extract_drop _ f3 10 7).trans ((extract_drop _ (Reg.bits rs1) 5 7).trans
        (extract_top (imm.extractLsb' 5 7) (Reg.bits rs2)))))
  have lo : (encS imm rs2 rs1 f3 opc).extractLsb' 7 5 = imm.extractLsb' 0 5 :=
    extract_mid (imm.extractLsb' 5 7 ++ Reg.bits rs2 ++ Reg.bits rs1 ++ f3) (imm.extractLsb' 0 5) opc
  rw [InsnWord.sImm, hi, lo]
  exact join_extract imm 5 7 rfl

theorem encS_and_mask : encS imm rs2 rs1 f3 opc &&& 0x0000707F = encS 0 0 0 f3 opc := by
  refine (and_fields6 (imm.extractLsb' 5 7) 0 (Reg.bits rs2) 0 (Reg.bits rs1) 0 f3 (.allOnes 3)
    (imm.extractLsb' 0 5) 0 opc (.allOnes 7)).trans ?_
  simp only [BitVec.and_allOnes, BitVec.ofNat_eq_ofNat, BitVec.and_zero]
  rfl

theorem encS_matches {n : Nreg} (h : [rs1, rs2].all (fun r => r.val < n.count) = true) :
    Row.matches n ⟨.s, encS 0 0 0 f3 opc, 0x0000707F⟩ (encS imm rs2 rs1 f3 opc) = true :=
  matches_of (encS_and_mask ..) (by simpa [Format.operands] using h)

end FormatS

section FormatB
variable (off : BitVec 12) (rs2 rs1 : Reg) (f3 : BitVec 3) (opc : BitVec 7)

/-- A B-format word as an S-format one, whose immediate is B's in the order of its fields. -/
theorem encB_eq_encS :
    encB off rs2 rs1 f3 opc
      = encS (off.extractLsb' 11 1 ++ off.extractLsb' 4 6 ++ (off.extractLsb' 0 4 ++ off.extractLsb' 10 1))
          rs2 rs1 f3 opc := by
  have hi : (off.extractLsb' 11 1 ++ off.extractLsb' 4 6
      ++ (off.extractLsb' 0 4 ++ off.extractLsb' 10 1)).extractLsb' 5 7
        = off.extractLsb' 11 1 ++ off.extractLsb' 4 6 := extract_top _ _
  have lo : (off.extractLsb' 11 1 ++ off.extractLsb' 4 6
      ++ (off.extractLsb' 0 4 ++ off.extractLsb' 10 1)).extractLsb' 0 5
        = off.extractLsb' 0 4 ++ off.extractLsb' 10 1 := extract_low _ _
  rw [encS, hi, lo]
  rfl

@[simp] theorem encB_rs1 : InsnWord.rs1 (encB off rs2 rs1 f3 opc) = rs1 := by
  rw [encB_eq_encS, encS_rs1]

@[simp] theorem encB_rs2 : InsnWord.rs2 (encB off rs2 rs1 f3 opc) = rs2 := by
  rw [encB_eq_encS, encS_rs2]

theorem encB_and_mask : encB off rs2 rs1 f3 opc &&& 0x0000707F = encB 0 0 0 f3 opc := by
  rw [encB_eq_encS, encS_and_mask, encB_eq_encS]
  congr 1

theorem encB_matches {n : Nreg} (h : [rs1, rs2].all (fun r => r.val < n.count) = true) :
    Row.matches n ⟨.b, encB 0 0 0 f3 opc, 0x0000707F⟩ (encB off rs2 rs1 f3 opc) = true :=
  matches_of (encB_and_mask ..) (by simpa [Format.operands] using h)

@[simp] theorem encB_bOff : InsnWord.bOff (encB off rs2 rs1 f3 opc) = off := by
  have h31 : (encB off rs2 rs1 f3 opc).extractLsb' 31 1 = off.extractLsb' 11 1 :=
    (extract_drop _ opc 24 1).trans ((extract_drop _ (off.extractLsb' 0 4 ++ off.extractLsb' 10 1) 19 1).trans
      ((extract_drop _ f3 16 1).trans ((extract_drop _ (Reg.bits rs1) 11 1).trans
        ((extract_drop _ (Reg.bits rs2) 6 1).trans
          (extract_top (off.extractLsb' 11 1) (off.extractLsb' 4 6))))))
  have h25 : (encB off rs2 rs1 f3 opc).extractLsb' 25 6 = off.extractLsb' 4 6 :=
    (extract_drop _ opc 18 6).trans ((extract_drop _ (off.extractLsb' 0 4 ++ off.extractLsb' 10 1) 13 6).trans
      ((extract_drop _ f3 10 6).trans ((extract_drop _ (Reg.bits rs1) 5 6).trans
        (extract_mid (off.extractLsb' 11 1) (off.extractLsb' 4 6) (Reg.bits rs2)))))
  have h8 : (encB off rs2 rs1 f3 opc).extractLsb' 8 4 = off.extractLsb' 0 4 :=
    (extract_drop _ opc 1 4).trans ((BitVec.extractLsb'_append_eq_of_add_le (by omega)).trans
      (extract_top (off.extractLsb' 0 4) (off.extractLsb' 10 1)))
  have h7 : (encB off rs2 rs1 f3 opc).extractLsb' 7 1 = off.extractLsb' 10 1 :=
    (extract_drop _ opc 0 1).trans ((BitVec.extractLsb'_append_eq_of_add_le (by omega)).trans
      (extract_low (off.extractLsb' 0 4) (off.extractLsb' 10 1)))
  rw [InsnWord.bOff, h31, h25, h8, h7]
  rw [BitVec.extractLsb'_append_extractLsb'_eq_extractLsb' (by omega),
    BitVec.extractLsb'_append_extractLsb'_eq_extractLsb' (by omega)]
  exact join_extract off 4 8 rfl

end FormatB

/-! ## Formats U and J -/

section FormatU
variable (imm : BitVec 20) (rd : Reg) (opc : BitVec 7)

@[simp] theorem encU_rd : InsnWord.rd (encU imm rd opc) = rd :=
  congrArg BitVec.toFin (extract_mid imm (Reg.bits rd) opc)

@[simp] theorem encU_uImm : InsnWord.uImm (encU imm rd opc) = imm :=
  (extract_drop _ opc 5 20).trans (extract_top imm (Reg.bits rd))

theorem encU_and_mask : encU imm rd opc &&& 0x0000007F = encU 0 0 opc := by
  refine (and_fields3 imm 0 (Reg.bits rd) 0 opc (.allOnes 7)).trans ?_
  simp only [BitVec.and_allOnes, BitVec.ofNat_eq_ofNat, BitVec.and_zero]
  rfl

theorem encU_matches {n : Nreg} (h : [rd].all (fun r => r.val < n.count) = true) :
    Row.matches n ⟨.u, encU 0 0 opc, 0x0000007F⟩ (encU imm rd opc) = true :=
  matches_of (encU_and_mask ..) (by simpa [Format.operands] using h)

end FormatU

section FormatJ
variable (off : BitVec 20) (rd : Reg) (opc : BitVec 7)

/-- A J-format word as a U-format one, whose immediate is J's in the order of its fields. -/
theorem encJ_eq_encU :
    encJ off rd opc = encU (off.extractLsb' 19 1 ++ off.extractLsb' 0 10 ++ off.extractLsb' 10 1
      ++ off.extractLsb' 11 8) rd opc := rfl

@[simp] theorem encJ_rd : InsnWord.rd (encJ off rd opc) = rd := by rw [encJ_eq_encU, encU_rd]

@[simp] theorem encJ_jOff : InsnWord.jOff (encJ off rd opc) = off := by
  have h31 : (encJ off rd opc).extractLsb' 31 1 = off.extractLsb' 19 1 :=
    (extract_drop _ opc 24 1).trans ((extract_drop _ (Reg.bits rd) 19 1).trans
      ((extract_drop _ (off.extractLsb' 11 8) 11 1).trans ((extract_drop _ (off.extractLsb' 10 1) 10 1).trans
        (extract_top (off.extractLsb' 19 1) (off.extractLsb' 0 10)))))
  have h21 : (encJ off rd opc).extractLsb' 21 10 = off.extractLsb' 0 10 :=
    (extract_drop _ opc 14 10).trans ((extract_drop _ (Reg.bits rd) 9 10).trans
      ((extract_drop _ (off.extractLsb' 11 8) 1 10).trans
        (extract_mid (off.extractLsb' 19 1) (off.extractLsb' 0 10) (off.extractLsb' 10 1))))
  have h20 : (encJ off rd opc).extractLsb' 20 1 = off.extractLsb' 10 1 :=
    (extract_drop _ opc 13 1).trans ((extract_drop _ (Reg.bits rd) 8 1).trans
      (extract_mid (off.extractLsb' 19 1 ++ off.extractLsb' 0 10) (off.extractLsb' 10 1)
        (off.extractLsb' 11 8)))
  have h12 : (encJ off rd opc).extractLsb' 12 8 = off.extractLsb' 11 8 :=
    (extract_drop _ opc 5 8).trans
      (extract_mid (off.extractLsb' 19 1 ++ off.extractLsb' 0 10 ++ off.extractLsb' 10 1)
        (off.extractLsb' 11 8) (Reg.bits rd))
  rw [InsnWord.jOff, h31, h21, h20, h12]
  rw [BitVec.extractLsb'_append_extractLsb'_eq_extractLsb' (by omega),
    BitVec.extractLsb'_append_extractLsb'_eq_extractLsb' (by omega)]
  exact join_extract off 10 10 rfl

theorem encJ_matches {n : Nreg} (h : [rd].all (fun r => r.val < n.count) = true) :
    Row.matches n ⟨.j, encU 0 0 opc, 0x0000007F⟩ (encJ off rd opc) = true :=
  matches_of (by rw [encJ_eq_encU, encU_and_mask]) (by simpa [Format.operands] using h)

end FormatJ

/-! ## FENCE -/

section Fence
variable (fm pred succ : BitVec 4) (rs1 rd : BitVec 5)

theorem fence_and_mask : encode (.fence fm pred succ rs1 rd) &&& 0x0000707F = 0x0000000F := by
  refine (BitVec.and_append (x₁ := fm ++ pred ++ succ ++ rs1 ++ 0b000#3 ++ rd) (y₁ := 0b0001111#7)
    (x₂ := 0#4 ++ 0#4 ++ 0#4 ++ 0#5 ++ BitVec.allOnes 3 ++ 0#5) (y₂ := BitVec.allOnes 7)).trans ?_
  simp only [BitVec.and_append, BitVec.and_allOnes, BitVec.and_zero]
  decide

theorem fence_instr : Op.instr (encode (.fence fm pred succ rs1 rd)) .fence
    = .fence fm pred succ rs1 rd := by
  have h28 : (encode (.fence fm pred succ rs1 rd)).extractLsb' 28 4 = fm :=
    (extract_drop _ 0b0001111#7 21 4).trans ((extract_drop _ rd 16 4).trans
      ((extract_drop _ 0b000#3 13 4).trans ((extract_drop _ rs1 8 4).trans
        ((extract_drop _ succ 4 4).trans (extract_top fm pred)))))
  have h24 : (encode (.fence fm pred succ rs1 rd)).extractLsb' 24 4 = pred :=
    (extract_drop _ 0b0001111#7 17 4).trans ((extract_drop _ rd 12 4).trans
      ((extract_drop _ 0b000#3 9 4).trans ((extract_drop _ rs1 4 4).trans
        (extract_mid fm pred succ))))
  have h20 : (encode (.fence fm pred succ rs1 rd)).extractLsb' 20 4 = succ :=
    (extract_drop _ 0b0001111#7 13 4).trans ((extract_drop _ rd 8 4).trans
      ((extract_drop _ 0b000#3 5 4).trans (extract_mid (fm ++ pred) succ rs1)))
  have h15 : (encode (.fence fm pred succ rs1 rd)).extractLsb' 15 5 = rs1 :=
    (extract_drop _ 0b0001111#7 8 5).trans ((extract_drop _ rd 3 5).trans
      (extract_mid (fm ++ pred ++ succ) rs1 0b000#3))
  have h7 : (encode (.fence fm pred succ rs1 rd)).extractLsb' 7 5 = rd :=
    extract_mid (fm ++ pred ++ succ ++ rs1 ++ 0b000#3) rd 0b0001111#7
  rw [Op.instr, h28, h24, h20, h15, h7]

end Fence

/-! ## Rows: the pattern of a row is the format with its operands at 0 -/

theorem row_R {n : Nreg} {p : InsnWord} {f7 : BitVec 7} {rs2 rs1 : Reg} {f3 : BitVec 3} {rd : Reg}
    {opc : BitVec 7} (hp : encR f7 0 0 f3 0 opc = p)
    (h : [rd, rs1, rs2].all (fun r => r.val < n.count) = true) :
    Row.matches n ⟨.r, p, 0xFE00707F⟩ (encR f7 rs2 rs1 f3 rd opc) = true := hp ▸ encR_matches _ _ _ _ _ _ h

theorem row_I {n : Nreg} {p : InsnWord} {imm : BitVec 12} {rs1 : Reg} {f3 : BitVec 3} {rd : Reg}
    {opc : BitVec 7} (hp : encI 0 0 f3 0 opc = p)
    (h : [rd, rs1].all (fun r => r.val < n.count) = true) :
    Row.matches n ⟨.i, p, 0x0000707F⟩ (encI imm rs1 f3 rd opc) = true := hp ▸ encI_matches _ _ _ _ _ h

theorem row_Shift6 {x : Xlen} {n : Nreg} {p : InsnWord} {f6 shamt : BitVec 6} {rs1 : Reg}
    {f3 : BitVec 3} {rd : Reg} {opc : BitVec 7} (hp : encShift6 f6 0 0 f3 0 opc = p)
    (h : [rd, rs1].all (fun r => r.val < n.count) = true)
    (hs : x = .rv32 → shamt.toNat < 32) :
    Row.matches n (Row.shiftImm x p) (encShift6 f6 shamt rs1 f3 rd opc) = true :=
  hp ▸ encShift6_matches _ _ _ _ _ _ h hs

theorem row_Shift64 {n : Nreg} {p : InsnWord} {f6 shamt : BitVec 6} {rs1 : Reg}
    {f3 : BitVec 3} {rd : Reg} {opc : BitVec 7} (hp : encShift6 f6 0 0 f3 0 opc = p)
    (h : [rd, rs1].all (fun r => r.val < n.count) = true) :
    Row.matches n ⟨.iShift6, p, 0xFC00707F⟩ (encShift6 f6 shamt rs1 f3 rd opc) = true :=
  hp ▸ encShift6_matches (x := .rv64) _ _ _ _ _ _ h nofun

theorem row_Shift5 {n : Nreg} {p : InsnWord} {f7 : BitVec 7} {shamt : BitVec 5} {rs1 : Reg}
    {f3 : BitVec 3} {rd : Reg} {opc : BitVec 7} (hp : encShift5 f7 0 0 f3 0 opc = p)
    (h : [rd, rs1].all (fun r => r.val < n.count) = true) :
    Row.matches n ⟨.iShift5, p, 0xFE00707F⟩ (encShift5 f7 shamt rs1 f3 rd opc) = true :=
  hp ▸ encShift5_matches _ _ _ _ _ _ h

theorem row_S {n : Nreg} {p : InsnWord} {imm : BitVec 12} {rs2 rs1 : Reg} {f3 : BitVec 3}
    {opc : BitVec 7} (hp : encS 0 0 0 f3 opc = p)
    (h : [rs1, rs2].all (fun r => r.val < n.count) = true) :
    Row.matches n ⟨.s, p, 0x0000707F⟩ (encS imm rs2 rs1 f3 opc) = true := hp ▸ encS_matches _ _ _ _ _ h

theorem row_B {n : Nreg} {p : InsnWord} {off : BitVec 12} {rs2 rs1 : Reg} {f3 : BitVec 3}
    {opc : BitVec 7} (hp : encB 0 0 0 f3 opc = p)
    (h : [rs1, rs2].all (fun r => r.val < n.count) = true) :
    Row.matches n ⟨.b, p, 0x0000707F⟩ (encB off rs2 rs1 f3 opc) = true := hp ▸ encB_matches _ _ _ _ _ h

theorem row_U {n : Nreg} {p : InsnWord} {imm : BitVec 20} {rd : Reg} {opc : BitVec 7}
    (hp : encU 0 0 opc = p) (h : [rd].all (fun r => r.val < n.count) = true) :
    Row.matches n ⟨.u, p, 0x0000007F⟩ (encU imm rd opc) = true := hp ▸ encU_matches _ _ _ h

theorem row_J {n : Nreg} {p : InsnWord} {off : BitVec 20} {rd : Reg} {opc : BitVec 7}
    (hp : encU 0 0 opc = p) (h : [rd].all (fun r => r.val < n.count) = true) :
    Row.matches n ⟨.j, p, 0x0000007F⟩ (encJ off rd opc) = true := hp ▸ encJ_matches _ _ _ h

end Sys2Proof
end

