-- ==== Sys2Proof/Laws/PerInstr.lean ====
section
/-! SUPPORT. One lemma per instruction: a well-formed instruction's word matches the instruction's row, and
the operands read back from the word are the instruction's. -/

namespace Sys2Proof.Laws

/-- The encoder and the opcode table agree about `i`, at every width and register count that has it. -/
def EncodesToRow.Statement (i : Instr) : Prop :=
  ∀ (x : Xlen) (n : Nreg), i.wf x n = true →
    ∃ r, i.op.row x = some r ∧ r.matches n (encode i) = true ∧ i.op.instr (encode i) = i

theorem wf_registers {i : Instr} {x : Xlen} {n : Nreg} (h : i.wf x n = true) :
    (i.registers.all fun r => r.val < n.count) = true := by
  simp only [Instr.wf, Bool.and_eq_true] at h
  exact h.1.1

theorem wf_width {i : Instr} {x : Xlen} {n : Nreg} (h : i.wf x n = true) : i.widthOk x = true := by
  simp only [Instr.wf, Bool.and_eq_true] at h
  exact h.1.2

theorem wf_shamt {i : Instr} {x : Xlen} {n : Nreg} (h : i.wf x n = true) : i.shamtOk x = true := by
  simp only [Instr.wf, Bool.and_eq_true] at h
  exact h.2

/-- An instruction of an XLEN = 64-only row is well-formed only with XLEN = 64. -/
theorem wf_rv64 {i : Instr} {x : Xlen} {n : Nreg} (hi : i.only64 = true) (h : i.wf x n = true) :
    x = .rv64 := by
  cases x
  · have := wf_width h
    simp [Instr.widthOk, hi] at this
  · rfl

/-- The shift amount of a well-formed instruction fits the width. -/
theorem wf_wideShamt {i : Instr} {shamt : BitVec 6} {x : Xlen} {n : Nreg}
    (hi : i.wideShamt = some shamt) (h : i.wf x n = true) :
    x = .rv32 → shamt.toNat < 32 := by
  rintro rfl
  have := wf_shamt h
  simpa [Instr.shamtOk, hi] using this

theorem EncodesToRow.lui (rd : Reg) (imm : BitVec 20) : EncodesToRow.Statement (.lui rd imm) := by
  intro x n h
  exact ⟨_, rfl, row_U (by decide) (wf_registers h),
    by simp only [encode, Instr.op, Op.instr, encU_rd, encU_uImm]⟩

theorem EncodesToRow.auipc (rd : Reg) (imm : BitVec 20) : EncodesToRow.Statement (.auipc rd imm) := by
  intro x n h
  exact ⟨_, rfl, row_U (by decide) (wf_registers h),
    by simp only [encode, Instr.op, Op.instr, encU_rd, encU_uImm]⟩

theorem EncodesToRow.addi (rd rs1 : Reg) (imm : BitVec 12) : EncodesToRow.Statement (.addi rd rs1 imm) := by
  intro x n h
  exact ⟨_, rfl, row_I (by decide) (wf_registers h),
    by simp only [encode, Instr.op, Op.instr, encI_rd, encI_rs1, encI_iImm]⟩

theorem EncodesToRow.slti (rd rs1 : Reg) (imm : BitVec 12) : EncodesToRow.Statement (.slti rd rs1 imm) := by
  intro x n h
  exact ⟨_, rfl, row_I (by decide) (wf_registers h),
    by simp only [encode, Instr.op, Op.instr, encI_rd, encI_rs1, encI_iImm]⟩

theorem EncodesToRow.sltiu (rd rs1 : Reg) (imm : BitVec 12) : EncodesToRow.Statement (.sltiu rd rs1 imm) := by
  intro x n h
  exact ⟨_, rfl, row_I (by decide) (wf_registers h),
    by simp only [encode, Instr.op, Op.instr, encI_rd, encI_rs1, encI_iImm]⟩

theorem EncodesToRow.xori (rd rs1 : Reg) (imm : BitVec 12) : EncodesToRow.Statement (.xori rd rs1 imm) := by
  intro x n h
  exact ⟨_, rfl, row_I (by decide) (wf_registers h),
    by simp only [encode, Instr.op, Op.instr, encI_rd, encI_rs1, encI_iImm]⟩

theorem EncodesToRow.ori (rd rs1 : Reg) (imm : BitVec 12) : EncodesToRow.Statement (.ori rd rs1 imm) := by
  intro x n h
  exact ⟨_, rfl, row_I (by decide) (wf_registers h),
    by simp only [encode, Instr.op, Op.instr, encI_rd, encI_rs1, encI_iImm]⟩

theorem EncodesToRow.andi (rd rs1 : Reg) (imm : BitVec 12) : EncodesToRow.Statement (.andi rd rs1 imm) := by
  intro x n h
  exact ⟨_, rfl, row_I (by decide) (wf_registers h),
    by simp only [encode, Instr.op, Op.instr, encI_rd, encI_rs1, encI_iImm]⟩

theorem EncodesToRow.slli (rd rs1 : Reg) (shamt : BitVec 6) : EncodesToRow.Statement (.slli rd rs1 shamt) := by
  intro x n h
  exact ⟨_, rfl, row_Shift6 (by decide) (wf_registers h) (wf_wideShamt rfl h),
    by simp only [encode, Instr.op, Op.instr, encShift6_rd, encShift6_rs1, encShift6_shamt6]⟩

theorem EncodesToRow.srli (rd rs1 : Reg) (shamt : BitVec 6) : EncodesToRow.Statement (.srli rd rs1 shamt) := by
  intro x n h
  exact ⟨_, rfl, row_Shift6 (by decide) (wf_registers h) (wf_wideShamt rfl h),
    by simp only [encode, Instr.op, Op.instr, encShift6_rd, encShift6_rs1, encShift6_shamt6]⟩

theorem EncodesToRow.srai (rd rs1 : Reg) (shamt : BitVec 6) : EncodesToRow.Statement (.srai rd rs1 shamt) := by
  intro x n h
  exact ⟨_, rfl, row_Shift6 (by decide) (wf_registers h) (wf_wideShamt rfl h),
    by simp only [encode, Instr.op, Op.instr, encShift6_rd, encShift6_rs1, encShift6_shamt6]⟩

theorem EncodesToRow.add (rd rs1 rs2 : Reg) : EncodesToRow.Statement (.add rd rs1 rs2) := by
  intro x n h
  exact ⟨_, rfl, row_R (by decide) (wf_registers h),
    by simp only [encode, Instr.op, Op.instr, encR_rd, encR_rs1, encR_rs2]⟩

theorem EncodesToRow.sub (rd rs1 rs2 : Reg) : EncodesToRow.Statement (.sub rd rs1 rs2) := by
  intro x n h
  exact ⟨_, rfl, row_R (by decide) (wf_registers h),
    by simp only [encode, Instr.op, Op.instr, encR_rd, encR_rs1, encR_rs2]⟩

theorem EncodesToRow.sll (rd rs1 rs2 : Reg) : EncodesToRow.Statement (.sll rd rs1 rs2) := by
  intro x n h
  exact ⟨_, rfl, row_R (by decide) (wf_registers h),
    by simp only [encode, Instr.op, Op.instr, encR_rd, encR_rs1, encR_rs2]⟩

theorem EncodesToRow.slt (rd rs1 rs2 : Reg) : EncodesToRow.Statement (.slt rd rs1 rs2) := by
  intro x n h
  exact ⟨_, rfl, row_R (by decide) (wf_registers h),
    by simp only [encode, Instr.op, Op.instr, encR_rd, encR_rs1, encR_rs2]⟩

theorem EncodesToRow.sltu (rd rs1 rs2 : Reg) : EncodesToRow.Statement (.sltu rd rs1 rs2) := by
  intro x n h
  exact ⟨_, rfl, row_R (by decide) (wf_registers h),
    by simp only [encode, Instr.op, Op.instr, encR_rd, encR_rs1, encR_rs2]⟩

theorem EncodesToRow.xor (rd rs1 rs2 : Reg) : EncodesToRow.Statement (.xor rd rs1 rs2) := by
  intro x n h
  exact ⟨_, rfl, row_R (by decide) (wf_registers h),
    by simp only [encode, Instr.op, Op.instr, encR_rd, encR_rs1, encR_rs2]⟩

theorem EncodesToRow.srl (rd rs1 rs2 : Reg) : EncodesToRow.Statement (.srl rd rs1 rs2) := by
  intro x n h
  exact ⟨_, rfl, row_R (by decide) (wf_registers h),
    by simp only [encode, Instr.op, Op.instr, encR_rd, encR_rs1, encR_rs2]⟩

theorem EncodesToRow.sra (rd rs1 rs2 : Reg) : EncodesToRow.Statement (.sra rd rs1 rs2) := by
  intro x n h
  exact ⟨_, rfl, row_R (by decide) (wf_registers h),
    by simp only [encode, Instr.op, Op.instr, encR_rd, encR_rs1, encR_rs2]⟩

theorem EncodesToRow.or (rd rs1 rs2 : Reg) : EncodesToRow.Statement (.or rd rs1 rs2) := by
  intro x n h
  exact ⟨_, rfl, row_R (by decide) (wf_registers h),
    by simp only [encode, Instr.op, Op.instr, encR_rd, encR_rs1, encR_rs2]⟩

theorem EncodesToRow.and (rd rs1 rs2 : Reg) : EncodesToRow.Statement (.and rd rs1 rs2) := by
  intro x n h
  exact ⟨_, rfl, row_R (by decide) (wf_registers h),
    by simp only [encode, Instr.op, Op.instr, encR_rd, encR_rs1, encR_rs2]⟩

theorem EncodesToRow.addiw (rd rs1 : Reg) (imm : BitVec 12) : EncodesToRow.Statement (.addiw rd rs1 imm) := by
  intro x n h
  obtain rfl := wf_rv64 rfl h
  exact ⟨_, rfl, row_I (by decide) (wf_registers h),
    by simp only [encode, Instr.op, Op.instr, encI_rd, encI_rs1, encI_iImm]⟩

theorem EncodesToRow.slliw (rd rs1 : Reg) (shamt : BitVec 5) : EncodesToRow.Statement (.slliw rd rs1 shamt) := by
  intro x n h
  obtain rfl := wf_rv64 rfl h
  exact ⟨_, rfl, row_Shift5 (by decide) (wf_registers h),
    by simp only [encode, Instr.op, Op.instr, encShift5_rd, encShift5_rs1, encShift5_shamt5]⟩

theorem EncodesToRow.srliw (rd rs1 : Reg) (shamt : BitVec 5) : EncodesToRow.Statement (.srliw rd rs1 shamt) := by
  intro x n h
  obtain rfl := wf_rv64 rfl h
  exact ⟨_, rfl, row_Shift5 (by decide) (wf_registers h),
    by simp only [encode, Instr.op, Op.instr, encShift5_rd, encShift5_rs1, encShift5_shamt5]⟩

theorem EncodesToRow.sraiw (rd rs1 : Reg) (shamt : BitVec 5) : EncodesToRow.Statement (.sraiw rd rs1 shamt) := by
  intro x n h
  obtain rfl := wf_rv64 rfl h
  exact ⟨_, rfl, row_Shift5 (by decide) (wf_registers h),
    by simp only [encode, Instr.op, Op.instr, encShift5_rd, encShift5_rs1, encShift5_shamt5]⟩

theorem EncodesToRow.addw (rd rs1 rs2 : Reg) : EncodesToRow.Statement (.addw rd rs1 rs2) := by
  intro x n h
  obtain rfl := wf_rv64 rfl h
  exact ⟨_, rfl, row_R (by decide) (wf_registers h),
    by simp only [encode, Instr.op, Op.instr, encR_rd, encR_rs1, encR_rs2]⟩

theorem EncodesToRow.subw (rd rs1 rs2 : Reg) : EncodesToRow.Statement (.subw rd rs1 rs2) := by
  intro x n h
  obtain rfl := wf_rv64 rfl h
  exact ⟨_, rfl, row_R (by decide) (wf_registers h),
    by simp only [encode, Instr.op, Op.instr, encR_rd, encR_rs1, encR_rs2]⟩

theorem EncodesToRow.sllw (rd rs1 rs2 : Reg) : EncodesToRow.Statement (.sllw rd rs1 rs2) := by
  intro x n h
  obtain rfl := wf_rv64 rfl h
  exact ⟨_, rfl, row_R (by decide) (wf_registers h),
    by simp only [encode, Instr.op, Op.instr, encR_rd, encR_rs1, encR_rs2]⟩

theorem EncodesToRow.srlw (rd rs1 rs2 : Reg) : EncodesToRow.Statement (.srlw rd rs1 rs2) := by
  intro x n h
  obtain rfl := wf_rv64 rfl h
  exact ⟨_, rfl, row_R (by decide) (wf_registers h),
    by simp only [encode, Instr.op, Op.instr, encR_rd, encR_rs1, encR_rs2]⟩

theorem EncodesToRow.sraw (rd rs1 rs2 : Reg) : EncodesToRow.Statement (.sraw rd rs1 rs2) := by
  intro x n h
  obtain rfl := wf_rv64 rfl h
  exact ⟨_, rfl, row_R (by decide) (wf_registers h),
    by simp only [encode, Instr.op, Op.instr, encR_rd, encR_rs1, encR_rs2]⟩

theorem EncodesToRow.jal (rd : Reg) (off : BitVec 20) : EncodesToRow.Statement (.jal rd off) := by
  intro x n h
  exact ⟨_, rfl, row_J (by decide) (wf_registers h),
    by simp only [encode, Instr.op, Op.instr, encJ_rd, encJ_jOff]⟩

theorem EncodesToRow.jalr (rd rs1 : Reg) (imm : BitVec 12) : EncodesToRow.Statement (.jalr rd rs1 imm) := by
  intro x n h
  exact ⟨_, rfl, row_I (by decide) (wf_registers h),
    by simp only [encode, Instr.op, Op.instr, encI_rd, encI_rs1, encI_iImm]⟩

theorem EncodesToRow.beq (rs1 rs2 : Reg) (off : BitVec 12) : EncodesToRow.Statement (.beq rs1 rs2 off) := by
  intro x n h
  exact ⟨_, rfl, row_B (by decide) (wf_registers h),
    by simp only [encode, Instr.op, Op.instr, encB_rs1, encB_rs2, encB_bOff]⟩

theorem EncodesToRow.bne (rs1 rs2 : Reg) (off : BitVec 12) : EncodesToRow.Statement (.bne rs1 rs2 off) := by
  intro x n h
  exact ⟨_, rfl, row_B (by decide) (wf_registers h),
    by simp only [encode, Instr.op, Op.instr, encB_rs1, encB_rs2, encB_bOff]⟩

theorem EncodesToRow.blt (rs1 rs2 : Reg) (off : BitVec 12) : EncodesToRow.Statement (.blt rs1 rs2 off) := by
  intro x n h
  exact ⟨_, rfl, row_B (by decide) (wf_registers h),
    by simp only [encode, Instr.op, Op.instr, encB_rs1, encB_rs2, encB_bOff]⟩

theorem EncodesToRow.bge (rs1 rs2 : Reg) (off : BitVec 12) : EncodesToRow.Statement (.bge rs1 rs2 off) := by
  intro x n h
  exact ⟨_, rfl, row_B (by decide) (wf_registers h),
    by simp only [encode, Instr.op, Op.instr, encB_rs1, encB_rs2, encB_bOff]⟩

theorem EncodesToRow.bltu (rs1 rs2 : Reg) (off : BitVec 12) : EncodesToRow.Statement (.bltu rs1 rs2 off) := by
  intro x n h
  exact ⟨_, rfl, row_B (by decide) (wf_registers h),
    by simp only [encode, Instr.op, Op.instr, encB_rs1, encB_rs2, encB_bOff]⟩

theorem EncodesToRow.bgeu (rs1 rs2 : Reg) (off : BitVec 12) : EncodesToRow.Statement (.bgeu rs1 rs2 off) := by
  intro x n h
  exact ⟨_, rfl, row_B (by decide) (wf_registers h),
    by simp only [encode, Instr.op, Op.instr, encB_rs1, encB_rs2, encB_bOff]⟩

theorem EncodesToRow.lb (rd rs1 : Reg) (imm : BitVec 12) : EncodesToRow.Statement (.lb rd rs1 imm) := by
  intro x n h
  exact ⟨_, rfl, row_I (by decide) (wf_registers h),
    by simp only [encode, Instr.op, Op.instr, encI_rd, encI_rs1, encI_iImm]⟩

theorem EncodesToRow.lh (rd rs1 : Reg) (imm : BitVec 12) : EncodesToRow.Statement (.lh rd rs1 imm) := by
  intro x n h
  exact ⟨_, rfl, row_I (by decide) (wf_registers h),
    by simp only [encode, Instr.op, Op.instr, encI_rd, encI_rs1, encI_iImm]⟩

theorem EncodesToRow.lw (rd rs1 : Reg) (imm : BitVec 12) : EncodesToRow.Statement (.lw rd rs1 imm) := by
  intro x n h
  exact ⟨_, rfl, row_I (by decide) (wf_registers h),
    by simp only [encode, Instr.op, Op.instr, encI_rd, encI_rs1, encI_iImm]⟩

theorem EncodesToRow.lbu (rd rs1 : Reg) (imm : BitVec 12) : EncodesToRow.Statement (.lbu rd rs1 imm) := by
  intro x n h
  exact ⟨_, rfl, row_I (by decide) (wf_registers h),
    by simp only [encode, Instr.op, Op.instr, encI_rd, encI_rs1, encI_iImm]⟩

theorem EncodesToRow.lhu (rd rs1 : Reg) (imm : BitVec 12) : EncodesToRow.Statement (.lhu rd rs1 imm) := by
  intro x n h
  exact ⟨_, rfl, row_I (by decide) (wf_registers h),
    by simp only [encode, Instr.op, Op.instr, encI_rd, encI_rs1, encI_iImm]⟩

theorem EncodesToRow.lwu (rd rs1 : Reg) (imm : BitVec 12) : EncodesToRow.Statement (.lwu rd rs1 imm) := by
  intro x n h
  obtain rfl := wf_rv64 rfl h
  exact ⟨_, rfl, row_I (by decide) (wf_registers h),
    by simp only [encode, Instr.op, Op.instr, encI_rd, encI_rs1, encI_iImm]⟩

theorem EncodesToRow.ld (rd rs1 : Reg) (imm : BitVec 12) : EncodesToRow.Statement (.ld rd rs1 imm) := by
  intro x n h
  obtain rfl := wf_rv64 rfl h
  exact ⟨_, rfl, row_I (by decide) (wf_registers h),
    by simp only [encode, Instr.op, Op.instr, encI_rd, encI_rs1, encI_iImm]⟩

theorem EncodesToRow.sb (rs1 rs2 : Reg) (imm : BitVec 12) : EncodesToRow.Statement (.sb rs1 rs2 imm) := by
  intro x n h
  exact ⟨_, rfl, row_S (by decide) (wf_registers h),
    by simp only [encode, Instr.op, Op.instr, encS_rs1, encS_rs2, encS_sImm]⟩

theorem EncodesToRow.sh (rs1 rs2 : Reg) (imm : BitVec 12) : EncodesToRow.Statement (.sh rs1 rs2 imm) := by
  intro x n h
  exact ⟨_, rfl, row_S (by decide) (wf_registers h),
    by simp only [encode, Instr.op, Op.instr, encS_rs1, encS_rs2, encS_sImm]⟩

theorem EncodesToRow.sw (rs1 rs2 : Reg) (imm : BitVec 12) : EncodesToRow.Statement (.sw rs1 rs2 imm) := by
  intro x n h
  exact ⟨_, rfl, row_S (by decide) (wf_registers h),
    by simp only [encode, Instr.op, Op.instr, encS_rs1, encS_rs2, encS_sImm]⟩

theorem EncodesToRow.sd (rs1 rs2 : Reg) (imm : BitVec 12) : EncodesToRow.Statement (.sd rs1 rs2 imm) := by
  intro x n h
  obtain rfl := wf_rv64 rfl h
  exact ⟨_, rfl, row_S (by decide) (wf_registers h),
    by simp only [encode, Instr.op, Op.instr, encS_rs1, encS_rs2, encS_sImm]⟩

theorem EncodesToRow.fence (fm pred succ : BitVec 4) (rs1 rd : BitVec 5) : EncodesToRow.Statement (.fence fm pred succ rs1 rd) := by
  intro x n h
  exact ⟨_, rfl, matches_of (fence_and_mask ..) rfl, fence_instr ..⟩

theorem EncodesToRow.ecall : EncodesToRow.Statement .ecall := by
  intro x n h
  exact ⟨_, rfl, matches_of (by decide) rfl, rfl⟩

theorem EncodesToRow.ebreak : EncodesToRow.Statement .ebreak := by
  intro x n h
  exact ⟨_, rfl, matches_of (by decide) rfl, rfl⟩

theorem EncodesToRow.mul (rd rs1 rs2 : Reg) : EncodesToRow.Statement (.mul rd rs1 rs2) := by
  intro x n h
  exact ⟨_, rfl, row_R (by decide) (wf_registers h),
    by simp only [encode, Instr.op, Op.instr, encR_rd, encR_rs1, encR_rs2]⟩

theorem EncodesToRow.mulh (rd rs1 rs2 : Reg) : EncodesToRow.Statement (.mulh rd rs1 rs2) := by
  intro x n h
  exact ⟨_, rfl, row_R (by decide) (wf_registers h),
    by simp only [encode, Instr.op, Op.instr, encR_rd, encR_rs1, encR_rs2]⟩

theorem EncodesToRow.mulhsu (rd rs1 rs2 : Reg) : EncodesToRow.Statement (.mulhsu rd rs1 rs2) := by
  intro x n h
  exact ⟨_, rfl, row_R (by decide) (wf_registers h),
    by simp only [encode, Instr.op, Op.instr, encR_rd, encR_rs1, encR_rs2]⟩

theorem EncodesToRow.mulhu (rd rs1 rs2 : Reg) : EncodesToRow.Statement (.mulhu rd rs1 rs2) := by
  intro x n h
  exact ⟨_, rfl, row_R (by decide) (wf_registers h),
    by simp only [encode, Instr.op, Op.instr, encR_rd, encR_rs1, encR_rs2]⟩

theorem EncodesToRow.mulw (rd rs1 rs2 : Reg) : EncodesToRow.Statement (.mulw rd rs1 rs2) := by
  intro x n h
  obtain rfl := wf_rv64 rfl h
  exact ⟨_, rfl, row_R (by decide) (wf_registers h),
    by simp only [encode, Instr.op, Op.instr, encR_rd, encR_rs1, encR_rs2]⟩

theorem EncodesToRow.div (rd rs1 rs2 : Reg) : EncodesToRow.Statement (.div rd rs1 rs2) := by
  intro x n h
  exact ⟨_, rfl, row_R (by decide) (wf_registers h),
    by simp only [encode, Instr.op, Op.instr, encR_rd, encR_rs1, encR_rs2]⟩

theorem EncodesToRow.divu (rd rs1 rs2 : Reg) : EncodesToRow.Statement (.divu rd rs1 rs2) := by
  intro x n h
  exact ⟨_, rfl, row_R (by decide) (wf_registers h),
    by simp only [encode, Instr.op, Op.instr, encR_rd, encR_rs1, encR_rs2]⟩

theorem EncodesToRow.rem (rd rs1 rs2 : Reg) : EncodesToRow.Statement (.rem rd rs1 rs2) := by
  intro x n h
  exact ⟨_, rfl, row_R (by decide) (wf_registers h),
    by simp only [encode, Instr.op, Op.instr, encR_rd, encR_rs1, encR_rs2]⟩

theorem EncodesToRow.remu (rd rs1 rs2 : Reg) : EncodesToRow.Statement (.remu rd rs1 rs2) := by
  intro x n h
  exact ⟨_, rfl, row_R (by decide) (wf_registers h),
    by simp only [encode, Instr.op, Op.instr, encR_rd, encR_rs1, encR_rs2]⟩

theorem EncodesToRow.divw (rd rs1 rs2 : Reg) : EncodesToRow.Statement (.divw rd rs1 rs2) := by
  intro x n h
  obtain rfl := wf_rv64 rfl h
  exact ⟨_, rfl, row_R (by decide) (wf_registers h),
    by simp only [encode, Instr.op, Op.instr, encR_rd, encR_rs1, encR_rs2]⟩

theorem EncodesToRow.divuw (rd rs1 rs2 : Reg) : EncodesToRow.Statement (.divuw rd rs1 rs2) := by
  intro x n h
  obtain rfl := wf_rv64 rfl h
  exact ⟨_, rfl, row_R (by decide) (wf_registers h),
    by simp only [encode, Instr.op, Op.instr, encR_rd, encR_rs1, encR_rs2]⟩

theorem EncodesToRow.remw (rd rs1 rs2 : Reg) : EncodesToRow.Statement (.remw rd rs1 rs2) := by
  intro x n h
  obtain rfl := wf_rv64 rfl h
  exact ⟨_, rfl, row_R (by decide) (wf_registers h),
    by simp only [encode, Instr.op, Op.instr, encR_rd, encR_rs1, encR_rs2]⟩

theorem EncodesToRow.remuw (rd rs1 rs2 : Reg) : EncodesToRow.Statement (.remuw rd rs1 rs2) := by
  intro x n h
  obtain rfl := wf_rv64 rfl h
  exact ⟨_, rfl, row_R (by decide) (wf_registers h),
    by simp only [encode, Instr.op, Op.instr, encR_rd, encR_rs1, encR_rs2]⟩

theorem EncodesToRow.sh1add (rd rs1 rs2 : Reg) : EncodesToRow.Statement (.sh1add rd rs1 rs2) := by
  intro x n h
  exact ⟨_, rfl, row_R (by decide) (wf_registers h),
    by simp only [encode, Instr.op, Op.instr, encR_rd, encR_rs1, encR_rs2]⟩

theorem EncodesToRow.sh2add (rd rs1 rs2 : Reg) : EncodesToRow.Statement (.sh2add rd rs1 rs2) := by
  intro x n h
  exact ⟨_, rfl, row_R (by decide) (wf_registers h),
    by simp only [encode, Instr.op, Op.instr, encR_rd, encR_rs1, encR_rs2]⟩

theorem EncodesToRow.sh3add (rd rs1 rs2 : Reg) : EncodesToRow.Statement (.sh3add rd rs1 rs2) := by
  intro x n h
  exact ⟨_, rfl, row_R (by decide) (wf_registers h),
    by simp only [encode, Instr.op, Op.instr, encR_rd, encR_rs1, encR_rs2]⟩

theorem EncodesToRow.addUw (rd rs1 rs2 : Reg) : EncodesToRow.Statement (.addUw rd rs1 rs2) := by
  intro x n h
  obtain rfl := wf_rv64 rfl h
  exact ⟨_, rfl, row_R (by decide) (wf_registers h),
    by simp only [encode, Instr.op, Op.instr, encR_rd, encR_rs1, encR_rs2]⟩

theorem EncodesToRow.sh1addUw (rd rs1 rs2 : Reg) : EncodesToRow.Statement (.sh1addUw rd rs1 rs2) := by
  intro x n h
  obtain rfl := wf_rv64 rfl h
  exact ⟨_, rfl, row_R (by decide) (wf_registers h),
    by simp only [encode, Instr.op, Op.instr, encR_rd, encR_rs1, encR_rs2]⟩

theorem EncodesToRow.sh2addUw (rd rs1 rs2 : Reg) : EncodesToRow.Statement (.sh2addUw rd rs1 rs2) := by
  intro x n h
  obtain rfl := wf_rv64 rfl h
  exact ⟨_, rfl, row_R (by decide) (wf_registers h),
    by simp only [encode, Instr.op, Op.instr, encR_rd, encR_rs1, encR_rs2]⟩

theorem EncodesToRow.sh3addUw (rd rs1 rs2 : Reg) : EncodesToRow.Statement (.sh3addUw rd rs1 rs2) := by
  intro x n h
  obtain rfl := wf_rv64 rfl h
  exact ⟨_, rfl, row_R (by decide) (wf_registers h),
    by simp only [encode, Instr.op, Op.instr, encR_rd, encR_rs1, encR_rs2]⟩

theorem EncodesToRow.slliUw (rd rs1 : Reg) (shamt : BitVec 6) : EncodesToRow.Statement (.slliUw rd rs1 shamt) := by
  intro x n h
  obtain rfl := wf_rv64 rfl h
  exact ⟨_, rfl, row_Shift64 (by decide) (wf_registers h),
    by simp only [encode, Instr.op, Op.instr, encShift6_rd, encShift6_rs1, encShift6_shamt6]⟩

theorem EncodesToRow.bset (rd rs1 rs2 : Reg) : EncodesToRow.Statement (.bset rd rs1 rs2) := by
  intro x n h
  exact ⟨_, rfl, row_R (by decide) (wf_registers h),
    by simp only [encode, Instr.op, Op.instr, encR_rd, encR_rs1, encR_rs2]⟩

theorem EncodesToRow.bclr (rd rs1 rs2 : Reg) : EncodesToRow.Statement (.bclr rd rs1 rs2) := by
  intro x n h
  exact ⟨_, rfl, row_R (by decide) (wf_registers h),
    by simp only [encode, Instr.op, Op.instr, encR_rd, encR_rs1, encR_rs2]⟩

theorem EncodesToRow.binv (rd rs1 rs2 : Reg) : EncodesToRow.Statement (.binv rd rs1 rs2) := by
  intro x n h
  exact ⟨_, rfl, row_R (by decide) (wf_registers h),
    by simp only [encode, Instr.op, Op.instr, encR_rd, encR_rs1, encR_rs2]⟩

theorem EncodesToRow.bext (rd rs1 rs2 : Reg) : EncodesToRow.Statement (.bext rd rs1 rs2) := by
  intro x n h
  exact ⟨_, rfl, row_R (by decide) (wf_registers h),
    by simp only [encode, Instr.op, Op.instr, encR_rd, encR_rs1, encR_rs2]⟩

theorem EncodesToRow.bseti (rd rs1 : Reg) (shamt : BitVec 6) : EncodesToRow.Statement (.bseti rd rs1 shamt) := by
  intro x n h
  exact ⟨_, rfl, row_Shift6 (by decide) (wf_registers h) (wf_wideShamt rfl h),
    by simp only [encode, Instr.op, Op.instr, encShift6_rd, encShift6_rs1, encShift6_shamt6]⟩

theorem EncodesToRow.bclri (rd rs1 : Reg) (shamt : BitVec 6) : EncodesToRow.Statement (.bclri rd rs1 shamt) := by
  intro x n h
  exact ⟨_, rfl, row_Shift6 (by decide) (wf_registers h) (wf_wideShamt rfl h),
    by simp only [encode, Instr.op, Op.instr, encShift6_rd, encShift6_rs1, encShift6_shamt6]⟩

theorem EncodesToRow.binvi (rd rs1 : Reg) (shamt : BitVec 6) : EncodesToRow.Statement (.binvi rd rs1 shamt) := by
  intro x n h
  exact ⟨_, rfl, row_Shift6 (by decide) (wf_registers h) (wf_wideShamt rfl h),
    by simp only [encode, Instr.op, Op.instr, encShift6_rd, encShift6_rs1, encShift6_shamt6]⟩

theorem EncodesToRow.bexti (rd rs1 : Reg) (shamt : BitVec 6) : EncodesToRow.Statement (.bexti rd rs1 shamt) := by
  intro x n h
  exact ⟨_, rfl, row_Shift6 (by decide) (wf_registers h) (wf_wideShamt rfl h),
    by simp only [encode, Instr.op, Op.instr, encShift6_rd, encShift6_rs1, encShift6_shamt6]⟩

theorem EncodesToRow.clmul (rd rs1 rs2 : Reg) : EncodesToRow.Statement (.clmul rd rs1 rs2) := by
  intro x n h
  exact ⟨_, rfl, row_R (by decide) (wf_registers h),
    by simp only [encode, Instr.op, Op.instr, encR_rd, encR_rs1, encR_rs2]⟩

theorem EncodesToRow.clmulr (rd rs1 rs2 : Reg) : EncodesToRow.Statement (.clmulr rd rs1 rs2) := by
  intro x n h
  exact ⟨_, rfl, row_R (by decide) (wf_registers h),
    by simp only [encode, Instr.op, Op.instr, encR_rd, encR_rs1, encR_rs2]⟩

theorem EncodesToRow.clmulh (rd rs1 rs2 : Reg) : EncodesToRow.Statement (.clmulh rd rs1 rs2) := by
  intro x n h
  exact ⟨_, rfl, row_R (by decide) (wf_registers h),
    by simp only [encode, Instr.op, Op.instr, encR_rd, encR_rs1, encR_rs2]⟩

end Sys2Proof.Laws
end

