-- ==== Sys2Proof/Laws/Decoding.lean ====
section
/-! SUPPORT. The composite decoder: what a match of a row says of a word, that the rows of different mnemonics
match no common word, and what the first match of a list is. -/

namespace Sys2Proof

/-! ## Rows -/

/-- A row matches a word exactly when the fixed bits agree and the operands are registers (30_encoding.md R75). -/
theorem Row.matches_iff (n : Nreg) (r : Row) (w : InsnWord) :
    r.matches n w = true ↔
      w &&& r.mask = r.pattern ∧ (r.format.operands w).all (fun reg => reg.val < n.count) = true := by
  simp [Row.matches]

/-- Two rows that match one word agree on the bits both of them fix. -/
theorem Row.agree_of_matches {n : Nreg} {r₁ r₂ : Row} {w : InsnWord} (h₁ : r₁.matches n w = true)
    (h₂ : r₂.matches n w = true) : (r₁.pattern ^^^ r₂.pattern) &&& (r₁.mask &&& r₂.mask) = 0 := by
  rw [← ((Row.matches_iff n r₁ w).1 h₁).1, ← ((Row.matches_iff n r₂ w).1 h₂).1]
  show _ = 0#32
  ext i hi
  simp only [BitVec.getElem_and, BitVec.getElem_xor, BitVec.getElem_zero]
  cases w[i] <;> cases r₁.mask[i] <;> cases r₂.mask[i] <;> rfl

/-- All mnemonics. -/
def Op.all : List Op :=
  LeafSet.I.ops .rv64 ++ LeafSet.M.ops .rv64 ++ LeafSet.Zba.ops .rv64 ++ LeafSet.Zbs.ops .rv64
    ++ LeafSet.Zbc.ops .rv64

theorem Op.mem_all (op : Op) : op ∈ Op.all := by cases op <;> decide

/-- The rows of two mnemonics fix a common bit to different values, or the mnemonics are one. -/
def Op.apart (x : Xlen) (a b : Op) : Bool :=
  match a.row x, b.row x with
  | some r₁, some r₂ => a == b || (r₁.pattern ^^^ r₂.pattern) &&& (r₁.mask &&& r₂.mask) != 0
  | _, _ => true

theorem Op.apart_all : (Op.all.all fun a => Op.all.all fun b => Op.apart .rv32 a b && Op.apart .rv64 a b) = true := by
  decide +kernel

theorem Op.apart_true (x : Xlen) (a b : Op) : Op.apart x a b = true := by
  have h := List.all_eq_true.1 (List.all_eq_true.1 Op.apart_all a (Op.mem_all a)) b (Op.mem_all b)
  simp only [Bool.and_eq_true] at h
  cases x
  · exact h.1
  · exact h.2

/-- Rows that match a common word belong to one mnemonic. -/
theorem Op.eq_of_matches {x : Xlen} {n : Nreg} {a b : Op} {r₁ r₂ : Row} {w : InsnWord}
    (ha : a.row x = some r₁) (hb : b.row x = some r₂) (h₁ : r₁.matches n w = true)
    (h₂ : r₂.matches n w = true) : a = b := by
  have h := Op.apart_true x a b
  simp only [Op.apart, ha, hb] at h
  have h0 := Row.agree_of_matches h₁ h₂
  simpa [h0] using h

/-! ## The first match -/

theorem Variant.hits_iff {x : Xlen} {n : Nreg} {w : InsnWord} {v : Variant} :
    v.hits x n w = true ↔ ∃ r, v.op.row x = some r ∧ r.matches n w = true := by
  unfold Variant.hits
  cases v.op.row x <;> simp

/-- Variants that match a common word have one mnemonic. -/
theorem Variant.op_eq_of_hits {x : Xlen} {n : Nreg} {w : InsnWord} {u v : Variant}
    (hu : u.hits x n w = true) (hv : v.hits x n w = true) : u.op = v.op := by
  obtain ⟨r₁, h₁, m₁⟩ := Variant.hits_iff.1 hu
  obtain ⟨r₂, h₂, m₂⟩ := Variant.hits_iff.1 hv
  exact Op.eq_of_matches h₁ h₂ m₁ m₂

/-- What decoding an instruction means: it is made of the word by a variant of the list that matches. -/
theorem decodeFirst_some {x : Xlen} {n : Nreg} {vs : List Variant} {w : InsnWord} {d : Decoded}
    (h : decodeFirst x n vs w = some d) :
    ∃ v ∈ vs, v.hits x n w = true ∧ d = ⟨v.set, v.op.instr w⟩ := by
  unfold decodeFirst at h
  obtain ⟨v, hv, hd⟩ := Option.map_eq_some_iff.1 h
  exact ⟨v, List.mem_of_find?_eq_some hv, List.find?_some (p := (Variant.hits x n w ·)) hv, hd.symm⟩

/-- A word decodes to nothing exactly when no variant of the list matches it (R85). -/
theorem decodeFirst_none_iff {x : Xlen} {n : Nreg} {vs : List Variant} {w : InsnWord} :
    decodeFirst x n vs w = none ↔ ∀ v ∈ vs, v.hits x n w = false := by
  simp [decodeFirst]

end Sys2Proof
end

