-- ==== Sys2Proof/Laws/Memory.lean ====
section
/-! SUPPORT. Memory: the canonical form in terms of its cells, what a byte reads as after a write, and that
every memory operation keeps the canonical form and the address range. -/

namespace Sys2Proof.Machine

/-! ## The canonical form -/

/-- A cons is canonical when its cell is listed for a reason and lies below the rest. -/
theorem Memory.wf_cons_iff (a : Nat) (b : Byte) (m : Memory) :
    Memory.wf ((a, b) :: m) = true ↔ b ≠ unlistedByte ∧ (∀ c ∈ m, a < c.1) ∧ m.wf = true := by
  induction m generalizing a b with
  | nil => simp [Memory.wf]
  | cons c m ih =>
    obtain ⟨a', b'⟩ := c
    have step : Memory.wf ((a, b) :: (a', b') :: m) = true ↔
        (b ≠ unlistedByte ∧ a < a') ∧ Memory.wf ((a', b') :: m) = true := by
      simp [Memory.wf]
    rw [step, ih a' b']
    constructor
    · rintro ⟨⟨hb, ha⟩, hb', hm, hw⟩
      refine ⟨hb, ?_, hb', hm, hw⟩
      simp only [List.mem_cons, forall_eq_or_imp]
      exact ⟨ha, fun c hc => Nat.lt_trans ha (hm c hc)⟩
    · rintro ⟨hb, hm, hb', hm', hw⟩
      exact ⟨⟨hb, hm _ (List.mem_cons_self ..)⟩, hb', hm', hw⟩

theorem Memory.wf_tail {a : Nat} {b : Byte} {m : Memory} (h : Memory.wf ((a, b) :: m) = true) :
    m.wf = true := ((Memory.wf_cons_iff a b m).1 h).2.2

theorem Memory.lt_of_wf {a : Nat} {b : Byte} {m : Memory} (h : Memory.wf ((a, b) :: m) = true) :
    ∀ c ∈ m, a < c.1 := ((Memory.wf_cons_iff a b m).1 h).2.1

/-- An address below every listed one is unlisted. -/
theorem Memory.read_of_lt {m : Memory} {a : Nat} (h : ∀ c ∈ m, a < c.1) : m.read a = unlistedByte := by
  induction m with
  | nil => rfl
  | cons c m ih =>
    obtain ⟨k, v⟩ := c
    have hk : a < k := h (k, v) (List.mem_cons_self ..)
    simp only [Memory.read]
    rw [if_neg (by omega)]
    exact ih fun c hc => h c (List.mem_cons_of_mem _ hc)

/-! ## One cell in front -/

theorem Memory.read_cons {m : Memory} {a : Nat} (b : Byte) (h : ∀ c ∈ m, a < c.1) (q : Nat) :
    (Memory.cons a b m).read q = if q = a then b else m.read q := by
  unfold Memory.cons
  by_cases hb : b = unlistedByte
  · rw [if_pos hb]
    by_cases hq : q = a
    · rw [if_pos hq, hq, hb, Memory.read_of_lt h]
    · rw [if_neg hq]
  · rw [if_neg hb]
    simp only [Memory.read, eq_comm]

theorem Memory.wf_cons {m : Memory} {a : Nat} (b : Byte) (h : ∀ c ∈ m, a < c.1) (hw : m.wf = true) :
    (Memory.cons a b m).wf = true := by
  unfold Memory.cons
  split
  · exact hw
  · exact (Memory.wf_cons_iff ..).2 ⟨by assumption, h, hw⟩

theorem Memory.mem_cons {m : Memory} {a : Nat} {b : Byte} {c : Host.Cell}
    (h : c ∈ Memory.cons a b m) : c.1 = a ∨ c ∈ m := by
  unfold Memory.cons at h
  split at h
  · exact .inr h
  · rcases List.mem_cons.1 h with h | h
    · exact .inl (by rw [h])
    · exact .inr h

/-! ## One byte written -/

/-- Every cell of a memory after a write was there before, or is the written one. -/
theorem Memory.mem_write {m : Memory} {a : Nat} {b : Byte} {c : Host.Cell}
    (h : c ∈ m.write a b) : c.1 = a ∨ c ∈ m := by
  induction m with
  | nil => exact Memory.mem_cons h
  | cons d m ih =>
    obtain ⟨k, v⟩ := d
    simp only [Memory.write] at h
    split at h
    · exact Memory.mem_cons h
    · split at h
      · rcases Memory.mem_cons h with h | h
        · exact .inl h
        · exact .inr (List.mem_cons_of_mem _ h)
      · rcases List.mem_cons.1 h with h | h
        · exact .inr (h ▸ List.mem_cons_self ..)
        · rcases ih h with h | h
          · exact .inl h
          · exact .inr (List.mem_cons_of_mem _ h)

/-- A write keeps the canonical form. -/
theorem Memory.wf_write {m : Memory} (h : m.wf = true) (a : Nat) (b : Byte) : (m.write a b).wf = true := by
  induction m with
  | nil => exact Memory.wf_cons b (by simp) rfl
  | cons d m ih =>
    obtain ⟨k, v⟩ := d
    obtain ⟨hv, hlt, hm⟩ := (Memory.wf_cons_iff k v m).1 h
    simp only [Memory.write]
    split
    · rename_i hak
      refine Memory.wf_cons b ?_ h
      simp only [List.mem_cons, forall_eq_or_imp]
      exact ⟨hak, fun c hc => Nat.lt_trans hak (hlt c hc)⟩
    · split
      · rename_i hak
        exact Memory.wf_cons b (hak ▸ hlt) hm
      · refine (Memory.wf_cons_iff ..).2 ⟨hv, ?_, ih hm⟩
        intro c hc
        rcases Memory.mem_write hc with hc | hc
        · omega
        · exact hlt c hc

/-- Read after write: the written byte at its address, every other byte as before. -/
theorem Memory.read_write {m : Memory} (h : m.wf = true) (a : Nat) (b : Byte) (q : Nat) :
    (m.write a b).read q = if q = a then b else m.read q := by
  induction m with
  | nil => exact Memory.read_cons b (by simp) q
  | cons d m ih =>
    obtain ⟨k, v⟩ := d
    obtain ⟨hv, hlt, hm⟩ := (Memory.wf_cons_iff k v m).1 h
    simp only [Memory.write]
    split
    · rename_i hak
      refine Memory.read_cons b ?_ q
      simp only [List.mem_cons, forall_eq_or_imp]
      exact ⟨hak, fun c hc => Nat.lt_trans hak (hlt c hc)⟩
    · split
      · rename_i hak
        rw [Memory.read_cons b (hak ▸ hlt) q, hak]
        simp only [Memory.read]
        split
        · rfl
        · rw [if_neg (by omega)]
      · simp only [Memory.read, ih hm]
        by_cases hk : k = q
        · rw [if_pos hk, if_pos hk, if_neg (by omega)]
        · rw [if_neg hk, if_neg hk]

/-! ## Validity -/

theorem Memory.valid_nil (w : Nat) : Memory.valid w [] := ⟨rfl, by simp⟩

theorem Memory.valid_write {w : Nat} {m : Memory} (h : m.valid w) {a : Nat} (ha : a < 2 ^ w) (b : Byte) :
    Memory.valid w (m.write a b) := by
  refine ⟨Memory.wf_write h.1 a b, fun c hc => ?_⟩
  rcases Memory.mem_write hc with hc | hc
  · omega
  · exact h.2 c hc

/-- A store of any width keeps memory valid. -/
theorem Memory.valid_store {w : Nat} {m : Memory} (h : m.valid w) (addr : BitVec w) (n : Nat)
    (v : BitVec (8 * n)) : Memory.valid w (m.store addr n v) := by
  induction n generalizing m addr with
  | zero => exact h
  | succ n ih => exact ih (Memory.valid_write h addr.isLt _) _ _

/-- A store of any width keeps the canonical form, whatever addresses memory lists. -/
theorem Memory.wf_store {w : Nat} {m : Memory} (h : m.wf = true) (addr : BitVec w) (n : Nat)
    (v : BitVec (8 * n)) : (m.store addr n v).wf = true := by
  induction n generalizing m addr with
  | zero => exact h
  | succ n ih => exact ih (Memory.wf_write h _ _) _ _

theorem Memory.valid_memWrite {w : Nat} {acc : Accessor} {m m' : Memory} {addr : BitVec w} {n : Nat}
    {v : BitVec (8 * n)} (h : m.valid w) (hw : memWrite acc m addr n v = some m') : m'.valid w := by
  unfold memWrite at hw
  split at hw
  · exact Option.some.inj hw ▸ Memory.valid_store h addr n v
  · cases hw

/-- The memory of an image is valid. -/
theorem Memory.valid_ofImage (w : Nat) (image : List Host.Cell) : Memory.valid w (Memory.ofImage w image) := by
  unfold Memory.ofImage
  suffices H : ∀ m : Memory, m.valid w →
      Memory.valid w (image.foldl (fun m cell => Memory.write m (cell.1 % 2 ^ w) cell.2) m) from
    H [] (Memory.valid_nil w)
  induction image with
  | nil => exact fun m h => h
  | cons c image ih => exact fun m h => ih _ (Memory.valid_write h (Nat.mod_lt _ (Nat.two_pow_pos w)) _)

end Sys2Proof.Machine
end

