-- ==== Sys2Proof/Laws/State.lean ====
section
/-! SUPPORT. The small lemmas of State's updates, one for each field of each update, so that no later proof
unfolds a record update; and the register file's read-after-write laws (spec/10_state.md R21 to R23). -/

namespace Sys2Proof.Machine

/-! ## Fields of an updated state -/

@[simp] theorem State.withHart_cfg (s : State) (h : s.HartOf) : (s.withHart h).cfg = s.cfg := rfl
@[simp] theorem State.withHart_hart (s : State) (h : s.HartOf) : (s.withHart h).hart = h := rfl
@[simp] theorem State.withHart_pc (s : State) (h : s.HartOf) : (s.withHart h).pc = h.pc := rfl
@[simp] theorem State.withHart_x (s : State) (h : s.HartOf) (r : Reg) : (s.withHart h).x r = h.x r := rfl
@[simp] theorem State.withHart_byteAt (s : State) (h : s.HartOf) (a : Nat) :
    (s.withHart h).byteAt a = h.mem.read a := rfl
@[simp] theorem State.withHart_self (s : State) : s.withHart s.hart = s := rfl
@[simp] theorem State.withHart_withHart (s : State) (h k : s.HartOf) :
    (s.withHart h).withHart k = s.withHart k := rfl

@[simp] theorem State.ended_cfg (s : State) (e : RunStatus s.bits s.cfg.customErrors) : (s.ended e).cfg = s.cfg := rfl
@[simp] theorem State.ended_pc (s : State) (e : RunStatus s.bits s.cfg.customErrors) : (s.ended e).pc = s.pc := rfl
@[simp] theorem State.ended_x (s : State) (e : RunStatus s.bits s.cfg.customErrors) (r : Reg) : (s.ended e).x r = s.x r := rfl
@[simp] theorem State.ended_mem (s : State) (e : RunStatus s.bits s.cfg.customErrors) : (s.ended e).hart.mem = s.hart.mem := rfl
@[simp] theorem State.ended_status (s : State) (e : RunStatus s.bits s.cfg.customErrors) : (s.ended e).hart.status = e := rfl

@[simp] theorem State.storeAtPc_cfg (s : State) (w : InsnWord) : (s.storeAtPc w).cfg = s.cfg := rfl
@[simp] theorem State.storeAtPc_pc (s : State) (w : InsnWord) : (s.storeAtPc w).pc = s.pc := rfl
@[simp] theorem State.storeAtPc_x (s : State) (w : InsnWord) (r : Reg) : (s.storeAtPc w).x r = s.x r := rfl
@[simp] theorem State.storeAtPc_mem (s : State) (w : InsnWord) :
    (s.storeAtPc w).hart.mem = s.hart.mem.store s.pc 4 w := rfl
@[simp] theorem State.storeAtPc_status (s : State) (w : InsnWord) :
    (s.storeAtPc w).hart.status = s.hart.status := rfl

@[simp] theorem State.withComposite_hart (s : State) (vs : List Variant) :
    (s.withComposite vs).hart = s.hart := rfl
@[simp] theorem State.withComposite_composite (s : State) (vs : List Variant) :
    (s.withComposite vs).cfg.composite = vs := rfl

/-! ## Fields of an updated hart -/

variable {w n : Nat} {t : CustomErrorType}

@[simp] theorem Hart.x_setPc (h : Hart w n t) (p : BitVec w) (r : Reg) :
    Hart.x { h with pc := p } r = h.x r := rfl
@[simp] theorem Hart.x_setMem (h : Hart w n t) (m : Memory) (r : Reg) :
    Hart.x { h with mem := m } r = h.x r := rfl
@[simp] theorem Hart.x_setStatus (h : Hart w n t) (e : RunStatus w t) (r : Reg) :
    Hart.x { h with status := e } r = h.x r := rfl

@[simp] theorem Hart.setX_pc (h : Hart w n t) (r : Reg) (v : BitVec w) : (h.setX r v).pc = h.pc := by
  unfold Hart.setX; split <;> rfl
@[simp] theorem Hart.setX_mem (h : Hart w n t) (r : Reg) (v : BitVec w) : (h.setX r v).mem = h.mem := by
  unfold Hart.setX; split <;> rfl
@[simp] theorem Hart.setX_status (h : Hart w n t) (r : Reg) (v : BitVec w) :
    (h.setX r v).status = h.status := by
  unfold Hart.setX; split <;> rfl
@[simp] theorem Hart.setX_zero (h : Hart w n t) (v : BitVec w) : h.setX 0 v = h := rfl

/-! ## Registers -/

/-- What every register reads after a write, for any state of the register file. -/
theorem Hart.x_setX (h : Hart w n t) (r q : Reg) (v : BitVec w) :
    (h.setX r v).x q = if q = r ∧ r ≠ 0 ∧ r.val < n then v else h.x q := by
  unfold Hart.setX Hart.x
  by_cases hr : r = 0
  · simp [hr]
  · by_cases hq : q = 0
    · subst hq
      have : ¬ (0 : Reg) = r := fun h' => hr h'.symm
      simp [hr, this]
    · by_cases hqr : q = r
      · subst hqr
        by_cases hn : q.val < n
        · simp [hr, hn]
        · simp [hr, hn]
      · have hv : r.val ≠ q.val := fun h' => hqr (Fin.ext h'.symm)
        simp [hr, hq, hqr]
        rw [Vector.getElem?_setIfInBounds_ne hv]

@[simp] theorem Hart.x_zero (h : Hart w n t) : h.x 0 = 0 := rfl

theorem Hart.x_setX_of_ne (h : Hart w n t) {r q : Reg} (v : BitVec w) (hq : q ≠ r) :
    (h.setX r v).x q = h.x q := by
  rw [Hart.x_setX, if_neg]
  exact fun h' => hq h'.1

theorem Hart.x_setX_self (h : Hart w n t) {r : Reg} (v : BitVec w) (h0 : r ≠ 0) (hn : r.val < n) :
    (h.setX r v).x r = v := by
  rw [Hart.x_setX, if_pos ⟨rfl, h0, hn⟩]

end Sys2Proof.Machine
end

