-- ==== Sys2Proof/Laws/Exec.lean ====
section
/-! SUPPORT. What each shared operation can do, what one instruction can do, and what one step can do, each
said once, so that no later proof unfolds them. -/

namespace Sys2Proof.Machine

/-! ## Ending an instruction -/

theorem State.retire_eq (s : State) (rd : Reg) (v : s.Word) :
    s.retire rd v = .next (s.withHart { s.hart.setX rd v with pc := s.pc + 4 }) := rfl

theorem State.link_eq (s : State) (rd : Reg) (target : s.Word) :
    s.link rd target = .next (s.withHart { s.hart.setX rd (s.pc + 4) with pc := target }) := rfl

theorem State.branch_eq (s : State) (taken : Bool) (off : BitVec 12) :
    s.branch taken off =
      .next (s.withHart { s.hart with pc := if taken then s.pc + immB _ off else s.pc + 4 }) := rfl

theorem State.breakRun_eq (s : State) : s.breakRun = .next (s.ended .stopped) := rfl

theorem State.fail_eq (s : State) (e : RunError s.bits s.cfg.customErrors) : s.fail e = .next (s.ended (.failed e)) := rfl

theorem State.raise_eq (s : State) (i : Instr) (kind : FaultKind s.bits) :
    s.raise i kind =
      .next (s.ended (.failed (.executionFault s.pc (some (encode i)) (some i) kind))) := rfl

/-! ## The frame of an instruction that writes one register -/

/-- Writing `rd` and moving the pc keeps everything else. -/
theorem State.keeps_setX (s : State) (rd : Reg) (v p : s.Word) :
    s.Keeps { s.hart.setX rd v with pc := p } rd where
  zero := Hart.x_zero _
  registers r hr := Hart.x_setX_of_ne s.hart v hr
  bytes a := by simp only [Hart.setX_mem, State.byteAt]
  status := Hart.setX_status ..

/-- An instruction that retires completes, with the value it writes. -/
theorem completes_of_retire {i : Instr} {s : State} {rd : Reg} {v : s.Word} {result : s.Word → Prop}
    (he : exec i s = s.retire rd v) (hrd : rd.val < s.cfg.nreg.count) (hv : result v) :
    Completes i s rd result := by
  refine ⟨_, he.trans (s.retire_eq rd v), fun h0 => ?_, s.keeps_setX rd v _, rfl⟩
  show result ((s.hart.setX rd v).x rd)
  rw [Hart.x_setX_self s.hart v h0 hrd]
  exact hv

/-- A jump completes at its target, with the link value in `rd`. -/
theorem completesAt_of_link {i : Instr} {s : State} {rd : Reg} {target : s.Word}
    (he : exec i s = s.link rd target) (hrd : rd.val < s.cfg.nreg.count) :
    CompletesAt i s rd (· = s.pc + 4) target := by
  refine ⟨_, he.trans (s.link_eq rd target), fun h0 => ?_, s.keeps_setX rd _ _, rfl⟩
  show (s.hart.setX rd (s.pc + 4)).x rd = s.pc + 4
  exact Hart.x_setX_self s.hart _ h0 hrd

/-- Moving the pc keeps everything else. -/
theorem State.keeps_setPc (s : State) (p : s.Word) : s.Keeps { s.hart with pc := p } 0 where
  zero := Hart.x_zero _
  registers _ _ := rfl
  bytes _ := rfl
  status := rfl

/-- An instruction that only moves the pc goes to it. -/
theorem goesTo_of_setPc {i : Instr} {s : State} {p : s.Word}
    (he : exec i s = .next (s.withHart { s.hart with pc := p })) : GoesTo i s p :=
  ⟨_, he, fun h0 => absurd rfl h0, s.keeps_setPc p, rfl⟩

/-! ## Data accesses -/

theorem State.misalignedFault_eq_false {s : State} {addr : s.Word} {n : Nat}
    (h : s.alignmentAllows addr n) : s.misalignedFault addr n = false := by
  unfold State.misalignedFault
  rcases h with h | h
  · simp [h]
  · simp [h]

/-- Everything a load can do. -/
theorem State.loadInto_cases (s : State) (i : Instr) (rd : Reg) (addr : s.Word) (n : Nat)
    (extend : BitVec (8 * n) → s.Word) :
    (s.misalignedFault addr n = true ∧ s.loadInto i rd addr n extend = s.raise i (.misalignedAccess addr n .load))
    ∨ (s.misalignedFault addr n = false ∧ ¬ s.served .load addr n
        ∧ s.loadInto i rd addr n extend = s.raise i (.memoryAccess addr n .load))
    ∨ (s.misalignedFault addr n = false ∧ s.served .load addr n
        ∧ s.loadInto i rd addr n extend = s.retire rd (extend (s.hart.mem.load addr n))) := by
  unfold State.loadInto memRead State.served
  cases hm : s.misalignedFault addr n
  · by_cases hg : accessorGrants s.cfg.accessor .load addr n = true
    · simp [hg]
    · simp [hg]
  · simp

/-- Everything a store can do. -/
theorem State.storeFrom_cases (s : State) (i : Instr) (rs2 : Reg) (addr : s.Word) (n : Nat) :
    (s.misalignedFault addr n = true ∧ s.storeFrom i rs2 addr n = s.raise i (.misalignedAccess addr n .store))
    ∨ (s.misalignedFault addr n = false ∧ ¬ s.served .store addr n
        ∧ s.storeFrom i rs2 addr n = s.raise i (.memoryAccess addr n .store))
    ∨ (s.misalignedFault addr n = false ∧ s.served .store addr n
        ∧ s.storeFrom i rs2 addr n =
          .next (s.withHart
            { s.hart with
              mem := s.hart.mem.store addr n ((s.x rs2).setWidth (8 * n))
              pc := s.pc + 4 })) := by
  unfold State.storeFrom memWrite State.served
  cases hm : s.misalignedFault addr n
  · by_cases hg : accessorGrants s.cfg.accessor .store addr n = true
    · simp [hg]; rfl
    · simp [hg]
  · simp

/-! ## One instruction -/

/-- The shapes of an instruction's effect. -/
inductive ExecShape (i : Instr) (s : State) : Prop where
  | retires (rd : Reg) (v : s.Word) (hrd : rd ∈ i.registers) (h : exec i s = s.retire rd v)
  | links (rd : Reg) (target : s.Word) (hrd : rd ∈ i.registers) (h : exec i s = s.link rd target)
  | branches (taken : Bool) (off : BitVec 12) (h : exec i s = s.branch taken off)
  | loads (rd : Reg) (addr : s.Word) (n : Nat) (extend : BitVec (8 * n) → s.Word) (hrd : rd ∈ i.registers)
      (h : exec i s = s.loadInto i rd addr n extend)
  | stores (rs2 : Reg) (addr : s.Word) (n : Nat) (h : exec i s = s.storeFrom i rs2 addr n)
  | fences (h : exec i s = .next (s.withHart { s.hart with pc := s.pc + 4 }))
  | breaks (hi : i = .ecall ∨ i = .ebreak) (h : exec i s = s.breakRun)

/-- Every instruction's effect has one of the shapes. -/
theorem exec_shape (i : Instr) (s : State) : ExecShape i s := by
  cases i
  case fence => exact .fences rfl
  case ecall => exact .breaks (.inl rfl) rfl
  case ebreak => exact .breaks (.inr rfl) rfl
  all_goals first
    | exact .retires _ _ (List.mem_cons_self ..) rfl
    | exact .links _ _ (List.mem_cons_self ..) rfl
    | exact .branches _ _ rfl
    | exact .loads _ _ _ _ (List.mem_cons_self ..) rfl
    | exact .stores _ _ _ rfl

/-! ## The hook -/

section Effects

variable {w n : Nat} {t : CustomErrorType} (acc : Accessor) (h : Hart w n t)

@[simp] theorem applyEffects_nil : applyEffects acc h [] = h := rfl
@[simp] theorem applyEffects_cons (e : HookEffect) (es : List HookEffect) :
    applyEffects acc h (e :: es) = applyEffects acc (applyEffect acc h e) es := rfl
@[simp] theorem applyEffect_setReg (r : Reg) (v : BitVec 64) :
    applyEffect acc h (.setReg r v) = h.setX r (v.setWidth w) := rfl
@[simp] theorem applyEffect_setPc (v : BitVec 64) :
    applyEffect acc h (.setPc v) = { h with pc := v.setWidth w } := rfl

/-- A store of the hook that the accessor serves. -/
theorem applyEffect_store_of_served {addr : BitVec 64} {size : AccessSize} (v : BitVec 64)
    (hs : accessorGrants acc .store (addr.setWidth w) size.bytes = true) :
    applyEffect acc h (.store addr size v) =
      { h with mem := h.mem.store (addr.setWidth w) size.bytes (v.setWidth _) } := by
  simp only [applyEffect, memWrite, hs, if_true]

/-- A store of the hook that the accessor refuses. -/
theorem applyEffect_store_of_refused {addr : BitVec 64} {size : AccessSize} (v : BitVec 64)
    (hs : accessorGrants acc .store (addr.setWidth w) size.bytes = false) :
    applyEffect acc h (.store addr size v) = h := by
  simp only [applyEffect, memWrite, hs, Bool.false_eq_true, if_false]

/-- A hook's effects leave the status as it was. -/
theorem applyEffects_status (es : List HookEffect) : (applyEffects acc h es).status = h.status := by
  induction es generalizing h with
  | nil => rfl
  | cons e es ih =>
    rw [applyEffects_cons, ih]
    cases e with
    | setReg r v => exact Hart.setX_status ..
    | setPc v => rfl
    | store addr size v =>
      cases hs : accessorGrants acc .store (addr.setWidth w) size.bytes
      · rw [applyEffect_store_of_refused acc h v hs]
      · rw [applyEffect_store_of_served acc h v hs]

end Effects

/-- The hook gets no byte of an access the accessor refuses. -/
theorem State.hookRead_of_refused {s : State} {addr : BitVec 64} {size : AccessSize}
    (h : ¬ s.served .load (addr.setWidth _) size.bytes) : s.hookRead addr size = none := by
  simp only [State.hookRead, memRead, h, if_false, Option.map_none]

/-- The hook gets the value of a read the accessor serves. -/
theorem State.hookRead_of_served {s : State} {addr : BitVec 64} {size : AccessSize}
    (h : s.served .load (addr.setWidth _) size.bytes) :
    s.hookRead addr size = some ((s.hart.mem.load (addr.setWidth s.bits) size.bytes).setWidth 64) := by
  simp only [State.hookRead, memRead, h, if_true, Option.map_some]

/-- The hook answers the same whatever the composite is. -/
@[simp] theorem State.hookAnswer_withComposite (s : State) (vs : List Variant) (w : InsnWord) :
    (s.withComposite vs).hookAnswer w = s.hookAnswer w := by
  obtain ⟨⟨_, _, _, _, _, _, hook⟩, _⟩ := s
  cases hook <;> rfl

/-- The hook does not see the slot of x0. -/
@[simp] theorem State.hookView_withSlot0 (s : State) (v : s.Word) : (s.withSlot0 v).hookView = s.hookView := by
  simp only [State.hookView, State.withSlot0]
  congr 1
  refine List.ext_getElem (by simp) fun i h₁ h₂ => ?_
  by_cases hi : i = 0
  · subst hi; simp
  · simp [List.getElem_set_ne (Ne.symm hi)]

/-- The hook answers the same whatever the slot of x0 holds. -/
@[simp] theorem State.hookAnswer_withSlot0 (s : State) (v : s.Word) (w : InsnWord) :
    (s.withSlot0 v).hookAnswer w = s.hookAnswer w := by
  have hv := s.hookView_withSlot0 v
  obtain ⟨⟨_, _, _, _, _, _, hook⟩, _⟩ := s
  cases hook with
  | none => rfl
  | scripted _ => rfl
  | embedder => exact congrArg (fun view => Config.embedderHook _ w view _ _) hv

/-! ## One step -/

/-- Everything that can happen before an instruction's rule runs. -/
theorem State.prepare_cases (s : State) :
    (s.pc.toNat % 4 ≠ 0 ∧ s.prepare = .error (s.fail (.unalignedFetch s.pc)))
    ∨ (s.pc.toNat % 4 = 0 ∧ s.fetch = none
        ∧ s.prepare = .error (s.fail (.executionFault s.pc none none (.fetchAccess s.pc))))
    ∨ (∃ w d, s.pc.toNat % 4 = 0 ∧ s.fetch = some w ∧ decodeWord s.cfg w = some d ∧ s.prepare = .ok d.insn)
    ∨ (∃ w, s.pc.toNat % 4 = 0 ∧ s.fetch = some w ∧ decodeWord s.cfg w = none
        ∧ s.prepare = .error (s.hookPath w)) := by
  unfold State.prepare
  by_cases ha : s.pc.toNat % 4 = 0
  · rw [if_neg (by simp [ha])]
    cases hf : s.fetch with
    | none => exact .inr (.inl ⟨ha, rfl, rfl⟩)
    | some w =>
      cases hd : decodeWord s.cfg w with
      | none => exact .inr (.inr (.inr ⟨w, ha, rfl, hd, by simp only [hd]⟩))
      | some d => exact .inr (.inr (.inl ⟨w, d, ha, rfl, hd, by simp only [hd]⟩))
  · exact .inl ⟨ha, by rw [if_pos (by simp [ha])]⟩

/-- A step of a running run is what `prepare` says. -/
theorem step_of_running {s : State} (h : s.hart.status = .running) :
    step s = match s.prepare with
      | .ok i => exec i s
      | .error outcome => outcome := by
  cases hp : s.prepare <;> simp only [step, h, hp]

theorem step_of_ok {s : State} {i : Instr} (h : s.hart.status = .running) (hp : s.prepare = .ok i) :
    step s = exec i s := by
  rw [step_of_running h, hp]

theorem step_of_error {s : State} {o : StepOutcome} (h : s.hart.status = .running)
    (hp : s.prepare = .error o) : step s = o := by
  rw [step_of_running h, hp]

end Sys2Proof.Machine
end

