-- ==== Sys2Proof/Tests/Slice0.lean ====
section
/-! SUPPORT. The model's own tests. Expected results are the spec's: the words from the layouts and function codes of
30_encoding.md R64 and R68 to R74, the results of one step from the vectors of 95_test_vectors.md (V1 to V5, V20, V21,
V40 to V47, V60 to V68); and one witness for each statement that has hypotheses. -/

namespace Sys2Proof.Tests

open Sys2Proof.Machine

/-! ## Well-formedness: each check refuses an ill-formed instruction, and its neighbour at the boundary passes -/

theorem test_wf_register_bound :
    (Instr.add 16 1 2).wf .rv64 .e16 = false ∧ (Instr.add 1 16 2).wf .rv64 .e16 = false
      ∧ (Instr.add 1 2 16).wf .rv64 .e16 = false ∧ (Instr.add 15 15 15).wf .rv64 .e16 = true
      ∧ (Instr.add 31 31 31).wf .rv64 .i32 = true := by decide

theorem test_wf_fence_has_no_registers : (Instr.fence 0 15 15 31 31).wf .rv32 .e16 = true := by decide

theorem test_wf_width :
    (Instr.addiw 1 2 0).wf .rv32 .i32 = false ∧ (Instr.addiw 1 2 0).wf .rv64 .i32 = true
      ∧ (Instr.sd 1 2 0).wf .rv32 .i32 = false ∧ (Instr.slliUw 1 2 0).wf .rv32 .i32 = false := by decide

theorem test_wf_shift_amount :
    (Instr.slli 1 2 32).wf .rv32 .i32 = false ∧ (Instr.slli 1 2 31).wf .rv32 .i32 = true
      ∧ (Instr.bexti 1 2 63).wf .rv32 .i32 = false ∧ (Instr.bexti 1 2 63).wf .rv64 .i32 = true := by decide

/-! ## Decoding: a word of every instruction, written out from its encoding -/

/-- Every word decodes, in the reference configuration, to the instruction beside it. -/
def decodesTo (rows : List (InsnWord × Instr)) : Bool :=
  rows.all fun row => (decodeWord Config.reference row.1).map (·.insn) == some row.2

theorem test_decode_upper :
    decodesTo
      [(0b10101011110011011110_10101_0110111, .lui 21 0xabcde),
       (0b10101011110011011110_10101_0010111, .auipc 21 0xabcde)] = true := by decide

theorem test_decode_immediate :
    decodesTo
      [(0b101001011100_01110_000_10101_0010011, .addi 21 14 0xa5c),
       (0b101001011100_01110_010_10101_0010011, .slti 21 14 0xa5c),
       (0b101001011100_01110_011_10101_0010011, .sltiu 21 14 0xa5c),
       (0b101001011100_01110_100_10101_0010011, .xori 21 14 0xa5c),
       (0b101001011100_01110_110_10101_0010011, .ori 21 14 0xa5c),
       (0b101001011100_01110_111_10101_0010011, .andi 21 14 0xa5c),
       (0b000000_101101_01110_001_10101_0010011, .slli 21 14 45),
       (0b000000_101101_01110_101_10101_0010011, .srli 21 14 45),
       (0b010000_101101_01110_101_10101_0010011, .srai 21 14 45)] = true := by decide

theorem test_decode_register :
    decodesTo
      [(0b0000000_01001_01110_000_10101_0110011, .add 21 14 9),
       (0b0100000_01001_01110_000_10101_0110011, .sub 21 14 9),
       (0b0000000_01001_01110_001_10101_0110011, .sll 21 14 9),
       (0b0000000_01001_01110_010_10101_0110011, .slt 21 14 9),
       (0b0000000_01001_01110_011_10101_0110011, .sltu 21 14 9),
       (0b0000000_01001_01110_100_10101_0110011, .xor 21 14 9),
       (0b0000000_01001_01110_101_10101_0110011, .srl 21 14 9),
       (0b0100000_01001_01110_101_10101_0110011, .sra 21 14 9),
       (0b0000000_01001_01110_110_10101_0110011, .or 21 14 9),
       (0b0000000_01001_01110_111_10101_0110011, .and 21 14 9)] = true := by decide

theorem test_decode_word :
    decodesTo
      [(0b101001011100_01110_000_10101_0011011, .addiw 21 14 0xa5c),
       (0b0000000_10110_01110_001_10101_0011011, .slliw 21 14 22),
       (0b0000000_10110_01110_101_10101_0011011, .srliw 21 14 22),
       (0b0100000_10110_01110_101_10101_0011011, .sraiw 21 14 22),
       (0b0000000_01001_01110_000_10101_0111011, .addw 21 14 9),
       (0b0100000_01001_01110_000_10101_0111011, .subw 21 14 9),
       (0b0000000_01001_01110_001_10101_0111011, .sllw 21 14 9),
       (0b0000000_01001_01110_101_10101_0111011, .srlw 21 14 9),
       (0b0100000_01001_01110_101_10101_0111011, .sraw 21 14 9)] = true := by decide

theorem test_decode_control :
    decodesTo
      [(0b1_0111001001_1_01100110_10101_1101111, .jal 21 0xb35c9),
       (0b101001011100_01110_000_10101_1100111, .jalr 21 14 0xa5c),
       (0b1100011_01001_01110_000_11000_1100011, .beq 14 9 0xa3c),
       (0b1100011_01001_01110_001_11000_1100011, .bne 14 9 0xa3c),
       (0b1100011_01001_01110_100_11000_1100011, .blt 14 9 0xa3c),
       (0b1100011_01001_01110_101_11000_1100011, .bge 14 9 0xa3c),
       (0b1100011_01001_01110_110_11000_1100011, .bltu 14 9 0xa3c),
       (0b1100011_01001_01110_111_11000_1100011, .bgeu 14 9 0xa3c)] = true := by decide

theorem test_decode_load :
    decodesTo
      [(0b101001011100_01110_000_10101_0000011, .lb 21 14 0xa5c),
       (0b101001011100_01110_001_10101_0000011, .lh 21 14 0xa5c),
       (0b101001011100_01110_010_10101_0000011, .lw 21 14 0xa5c),
       (0b101001011100_01110_100_10101_0000011, .lbu 21 14 0xa5c),
       (0b101001011100_01110_101_10101_0000011, .lhu 21 14 0xa5c),
       (0b101001011100_01110_110_10101_0000011, .lwu 21 14 0xa5c),
       (0b101001011100_01110_011_10101_0000011, .ld 21 14 0xa5c)] = true := by decide

theorem test_decode_store :
    decodesTo
      [(0b1010010_01001_01110_000_11100_0100011, .sb 14 9 0xa5c),
       (0b1010010_01001_01110_001_11100_0100011, .sh 14 9 0xa5c),
       (0b1010010_01001_01110_010_11100_0100011, .sw 14 9 0xa5c),
       (0b1010010_01001_01110_011_11100_0100011, .sd 14 9 0xa5c)] = true := by decide

theorem test_decode_system :
    decodesTo
      [(0b1001_1010_0110_01110_000_10101_0001111, .fence 9 10 6 14 21),
       (0b000000000000_00000_000_00000_1110011, .ecall),
       (0b000000000001_00000_000_00000_1110011, .ebreak)] = true := by decide

theorem test_decode_mul_div :
    decodesTo
      [(0b0000001_01001_01110_000_10101_0110011, .mul 21 14 9),
       (0b0000001_01001_01110_001_10101_0110011, .mulh 21 14 9),
       (0b0000001_01001_01110_010_10101_0110011, .mulhsu 21 14 9),
       (0b0000001_01001_01110_011_10101_0110011, .mulhu 21 14 9),
       (0b0000001_01001_01110_000_10101_0111011, .mulw 21 14 9),
       (0b0000001_01001_01110_100_10101_0110011, .div 21 14 9),
       (0b0000001_01001_01110_101_10101_0110011, .divu 21 14 9),
       (0b0000001_01001_01110_110_10101_0110011, .rem 21 14 9),
       (0b0000001_01001_01110_111_10101_0110011, .remu 21 14 9),
       (0b0000001_01001_01110_100_10101_0111011, .divw 21 14 9),
       (0b0000001_01001_01110_101_10101_0111011, .divuw 21 14 9),
       (0b0000001_01001_01110_110_10101_0111011, .remw 21 14 9),
       (0b0000001_01001_01110_111_10101_0111011, .remuw 21 14 9)] = true := by decide

theorem test_decode_zba :
    decodesTo
      [(0b0010000_01001_01110_010_10101_0110011, .sh1add 21 14 9),
       (0b0010000_01001_01110_100_10101_0110011, .sh2add 21 14 9),
       (0b0010000_01001_01110_110_10101_0110011, .sh3add 21 14 9),
       (0b0000100_01001_01110_000_10101_0111011, .addUw 21 14 9),
       (0b0010000_01001_01110_010_10101_0111011, .sh1addUw 21 14 9),
       (0b0010000_01001_01110_100_10101_0111011, .sh2addUw 21 14 9),
       (0b0010000_01001_01110_110_10101_0111011, .sh3addUw 21 14 9),
       (0b000010_101101_01110_001_10101_0011011, .slliUw 21 14 45)] = true := by decide

theorem test_decode_zbs :
    decodesTo
      [(0b0010100_01001_01110_001_10101_0110011, .bset 21 14 9),
       (0b0100100_01001_01110_001_10101_0110011, .bclr 21 14 9),
       (0b0110100_01001_01110_001_10101_0110011, .binv 21 14 9),
       (0b0100100_01001_01110_101_10101_0110011, .bext 21 14 9),
       (0b001010_101101_01110_001_10101_0010011, .bseti 21 14 45),
       (0b010010_101101_01110_001_10101_0010011, .bclri 21 14 45),
       (0b011010_101101_01110_001_10101_0010011, .binvi 21 14 45),
       (0b010010_101101_01110_101_10101_0010011, .bexti 21 14 45)] = true := by decide

theorem test_decode_zbc :
    decodesTo
      [(0b0000101_01001_01110_001_10101_0110011, .clmul 21 14 9),
       (0b0000101_01001_01110_010_10101_0110011, .clmulr 21 14 9),
       (0b0000101_01001_01110_011_10101_0110011, .clmulh 21 14 9)] = true := by decide

/-- REF_FULL or REF_CRYPTO at a width. -/
def coreOf (x : Xlen) (variants : Xlen → List Variant) : Config :=
  { Config.reference with xlen := x, composite := variants x }

/-- The set and mnemonic of a word through the four reference cores, in the columns of V20. -/
def column (w : InsnWord) : List (Option Variant) :=
  [coreOf .rv64 refFullVariants, coreOf .rv32 refFullVariants, coreOf .rv64 refCryptoVariants,
    coreOf .rv32 refCryptoVariants].map fun c => (decodeWord c w).map fun d => ⟨d.set, d.insn.op⟩

/-- V20: the rows whose columns differ. -/
theorem test_v20_columns :
    column 0x0A3110B3 =
        [some ⟨.Zbc, .clmul⟩, some ⟨.Zbc, .clmul⟩, some ⟨.Zbkc, .clmul⟩, some ⟨.Zbkc, .clmul⟩]
      ∧ column 0x0A3120B3 = [some ⟨.Zbc, .clmulr⟩, some ⟨.Zbc, .clmulr⟩, none, none]
      ∧ column 0x027302B3 = [some ⟨.M, .mul⟩, some ⟨.M, .mul⟩, some ⟨.Zmmul, .mul⟩, some ⟨.Zmmul, .mul⟩]
      ∧ column 0x027342B3 = [some ⟨.M, .div⟩, some ⟨.M, .div⟩, none, none]
      ∧ column 0x02031293 = [some ⟨.I, .slli⟩, none, some ⟨.I, .slli⟩, none]
      ∧ column 0x2BF31293 = [some ⟨.Zbs, .bseti⟩, none, some ⟨.Zbs, .bseti⟩, none] := by decide

/-- V20: the words that decode nowhere. -/
theorem test_v20_none :
    ([0x00000000, 0xFFFFFFFF, 0x0000100F, 0x00100473, 0x00110073, 0x30200073, 0x10500073, 0x0000301B, 0x00002067]
      : List InsnWord).all (fun w => column w == [none, none, none, none]) = true := by decide

/-- V21: with 16 registers x16 does not decode and x15 does. -/
theorem test_v21_sixteen_registers :
    decodeWord { Config.reference with nreg := .e16 } 0x00208833 = none
      ∧ decodeWord { Config.reference with nreg := .e16 } 0x002087B3 = some ⟨.I, .add 15 1 2⟩ := by decide

theorem test_decode_bytes_little_endian :
    (decodeBytes Config.reference [0xB3, 0x10, 0x31, 0x0A, 0x77]).toOption =
        some (⟨.Zbc, .clmul 1 2 3⟩, [0x77])
      ∧ (decodeBytes Config.reference [0xB3, 0x10, 0x31]).toOption = none := by decide

theorem test_table_word : decodeTableWord 32 0x0A3110B3 = some (.clmul 1 2 3) := by decide

/-! ## One step of each instruction -/

/-- A state of the given configuration at pc 0x1000 with a word there, x6 and x7 as given, every other register 0, and
MEM at 0x2000. -/
def start (c : Config) (x6 x7 : Nat) (w : Nat) : State :=
  State.withFetchWord
    { cfg := c
      hart :=
        { regs := ((Vector.replicate c.nreg.count 0).setIfInBounds 6 (BitVec.ofNat _ x6)).setIfInBounds 7 (BitVec.ofNat _ x7)
          pc := 0x1000
          mem := (List.range 8).map fun j => (0x2000 + j, BitVec.ofNat 8 (0x11 * (j + 1)))
          status := .running } } 32 w

def start64 (x6 x7 w : Nat) : State := start Config.reference x6 x7 w
def start32 (x6 x7 w : Nat) : State := start (coreOf .rv32 refFullVariants) x6 x7 w

/-- The value a step leaves in register `r`, if the run then goes on at 0x1004. -/
def wrote (r : Reg) (s : State) : Option Nat :=
  match step s with
  | .next t => if t.hart.status = .running ∧ t.pc.toNat = 0x1004 then some (t.x r).toNat else none
  | _ => none

/-- The value a step leaves in register `r`, and the next pc. -/
def jumped (r : Reg) (s : State) : Option (Nat × Nat) :=
  match step s with
  | .next t => if t.hart.status = .running then some ((t.x r).toNat, t.pc.toNat) else none
  | _ => none

/-- The eight bytes from 0x2000 on after a step. -/
def stored (s : State) : Option (List Nat) :=
  match step s with
  | .next t => if t.pc.toNat = 0x1004 then some ((List.range 8).map fun j => (t.byteAt (0x2000 + j)).toNat) else none
  | _ => none

theorem test_lui :
    wrote 5 (start64 0 0 0x800002B7) = some 0xFFFFFFFF80000000
      ∧ wrote 5 (start32 0 0 0x800002B7) = some 0x80000000 := by decide

theorem test_auipc :
    wrote 5 (start64 0 0 0x00001297) = some 0x2000
      ∧ wrote 5 (start32 0 0 0x80000297) = some 0x80001000 := by decide

theorem test_addi :
    wrote 5 (start64 0x0 0 0xFFF30293) = some 0xFFFFFFFFFFFFFFFF
      ∧ wrote 5 (start64 0x0 0 0x80030293) = some 0xFFFFFFFFFFFFF800 := by decide

theorem test_slti :
    wrote 5 (start64 0xFFFFFFFFFFFFFFFB 0 0xFFC32293) = some 0x1 := by decide

theorem test_sltiu :
    wrote 5 (start64 0x5 0 0xFFF33293) = some 0x1
      ∧ wrote 5 (start64 0x0 0 0x00133293) = some 0x1 := by decide

theorem test_xori :
    wrote 5 (start64 0xF 0 0xFFF34293) = some 0xFFFFFFFFFFFFFFF0 := by decide

theorem test_ori :
    wrote 5 (start64 0x100 0 0x0F036293) = some 0x1F0 := by decide

theorem test_andi :
    wrote 5 (start64 0xFFFF 0 0xF0037293) = some 0xFF00 := by decide

theorem test_slli :
    wrote 5 (start64 0x1 0 0x03F31293) = some 0x8000000000000000
      ∧ wrote 5 (start32 0x1 0 0x01F31293) = some 0x80000000 := by decide

theorem test_srli :
    wrote 5 (start64 0x8000000000000000 0 0x03F35293) = some 0x1 := by decide

theorem test_srai :
    wrote 5 (start64 0x8000000000000000 0 0x43F35293) = some 0xFFFFFFFFFFFFFFFF
      ∧ wrote 5 (start64 0x7FFFFFFFFFFFFFFF 0 0x40035293) = some 0x7FFFFFFFFFFFFFFF := by decide

theorem test_add :
    wrote 5 (start64 0xFFFFFFFFFFFFFFFF 0x1 0x007302B3) = some 0x0 := by decide

theorem test_sub :
    wrote 5 (start64 0x0 0x1 0x407302B3) = some 0xFFFFFFFFFFFFFFFF
      ∧ wrote 5 (start64 0x8000000000000000 0x1 0x407302B3) = some 0x7FFFFFFFFFFFFFFF := by decide

theorem test_sll :
    wrote 5 (start64 0x1 0x41 0x007312B3) = some 0x2
      ∧ wrote 5 (start32 0x1 0x21 0x007312B3) = some 0x2 := by decide

theorem test_slt :
    wrote 5 (start64 0xFFFFFFFFFFFFFFFF 0x1 0x007322B3) = some 0x1
      ∧ wrote 5 (start64 0x8000000000000000 0x0 0x007322B3) = some 0x1 := by decide

theorem test_sltu :
    wrote 5 (start64 0xFFFFFFFFFFFFFFFF 0x1 0x007332B3) = some 0x0
      ∧ wrote 5 (start64 0x0 0x8000000000000000 0x007332B3) = some 0x1 := by decide

theorem test_xor :
    wrote 5 (start64 0xFF00 0xFF0 0x007342B3) = some 0xF0F0 := by decide

theorem test_srl :
    wrote 5 (start64 0x8000000000000000 0x3F 0x007352B3) = some 0x1
      ∧ wrote 5 (start32 0x80000000 0x3F 0x007352B3) = some 0x1 := by decide

theorem test_sra :
    wrote 5 (start64 0x8000000000000000 0x40 0x407352B3) = some 0x8000000000000000
      ∧ wrote 5 (start32 0x80000000 0x24 0x407352B3) = some 0xF8000000 := by decide

theorem test_or :
    wrote 5 (start64 0xF0 0xF 0x007362B3) = some 0xFF := by decide

theorem test_and :
    wrote 5 (start64 0xF0 0x3C 0x007372B3) = some 0x30 := by decide

theorem test_addiw :
    wrote 5 (start64 0x7FFFFFFF 0 0x0013029B) = some 0xFFFFFFFF80000000
      ∧ wrote 5 (start64 0xFFFFFFFF00000005 0 0x0003029B) = some 0x5 := by decide

theorem test_slliw :
    wrote 5 (start64 0x1 0 0x01F3129B) = some 0xFFFFFFFF80000000 := by decide

theorem test_srliw :
    wrote 5 (start64 0xFFFFFFFF80000000 0 0x01F3529B) = some 0x1
      ∧ wrote 5 (start64 0x80000000 0 0x0003529B) = some 0xFFFFFFFF80000000 := by decide

theorem test_sraiw :
    wrote 5 (start64 0x80000000 0 0x4043529B) = some 0xFFFFFFFFF8000000
      ∧ wrote 5 (start64 0x7FFFFFFF 0 0x41F3529B) = some 0x0 := by decide

theorem test_addw :
    wrote 5 (start64 0x7FFFFFFF 0x1 0x007302BB) = some 0xFFFFFFFF80000000
      ∧ wrote 5 (start64 0x80000000 0x80000000 0x007302BB) = some 0x0 := by decide

theorem test_subw :
    wrote 5 (start64 0x0 0x1 0x407302BB) = some 0xFFFFFFFFFFFFFFFF := by decide

theorem test_sllw :
    wrote 5 (start64 0x100000001 0x20 0x007312BB) = some 0x1 := by decide

theorem test_srlw :
    wrote 5 (start64 0x80000000 0x1F 0x007352BB) = some 0x1 := by decide

theorem test_sraw :
    wrote 5 (start64 0x80000000 0x3F 0x407352BB) = some 0xFFFFFFFFFFFFFFFF
      ∧ wrote 5 (start64 0xFFFFFFFF00000000 0x1 0x407352BB) = some 0x0 := by decide

theorem test_jal :
    jumped 1 (start64 0 0 0x008000EF) = some (0x1004, 0x1008)
      ∧ jumped 0 (start64 0 0 0xFFDFF06F) = some (0, 0xFFC) := by decide

theorem test_jalr :
    jumped 6 (start64 0x2000 0 0x00430367) = some (0x1004, 0x2004)
      ∧ jumped 1 (start64 0x2003 0 0x000300E7) = some (0x1004, 0x2002) := by decide

theorem test_beq :
    jumped 0 (start64 0x5 0x5 0x00730863) = some (0, 0x1010)
      ∧ jumped 0 (start64 0x5 0x6 0x00730863) = some (0, 0x1004) := by decide

theorem test_bne :
    jumped 0 (start64 0x5 0x6 0x00731863) = some (0, 0x1010) := by decide

theorem test_blt :
    jumped 0 (start64 0xFFFFFFFFFFFFFFFF 0x1 0x00734863) = some (0, 0x1010) := by decide

theorem test_bge :
    jumped 0 (start64 0xFFFFFFFFFFFFFFFF 0xFFFFFFFFFFFFFFFF 0x00735863) = some (0, 0x1010)
      ∧ jumped 0 (start64 0xFFFFFFFFFFFFFFFE 0xFFFFFFFFFFFFFFFF 0x00735863) = some (0, 0x1004) := by decide

theorem test_bltu :
    jumped 0 (start64 0xFFFFFFFFFFFFFFFF 0x1 0x00736863) = some (0, 0x1004) := by decide

theorem test_bgeu :
    jumped 0 (start64 0xFFFFFFFFFFFFFFFF 0x1 0x00737863) = some (0, 0x1010)
      ∧ jumped 0 (start64 0x0 0x1 0x00737863) = some (0, 0x1004) := by decide

theorem test_lb :
    wrote 5 (start64 0x2000 0 0x00730283) = some 0xFFFFFFFFFFFFFF88
      ∧ wrote 6 (start64 0x2000 0 0x00730303) = some 0xFFFFFFFFFFFFFF88 := by decide

theorem test_lh :
    wrote 5 (start64 0x2000 0 0x00631283) = some 0xFFFFFFFFFFFF8877
      ∧ wrote 5 (start32 0x2000 0 0x00631283) = some 0xFFFF8877 := by decide

theorem test_lw :
    wrote 5 (start64 0x2000 0 0x00432283) = some 0xFFFFFFFF88776655
      ∧ wrote 5 (start32 0x2000 0 0x00432283) = some 0x88776655 := by decide

theorem test_lbu :
    wrote 5 (start64 0x2000 0 0x00734283) = some 0x88 := by decide

theorem test_lhu :
    wrote 5 (start64 0x2000 0 0x00635283) = some 0x8877 := by decide

theorem test_lwu :
    wrote 5 (start64 0x2000 0 0x00436283) = some 0x88776655 := by decide

theorem test_ld :
    wrote 5 (start64 0x2000 0 0x00033283) = some 0x8877665544332211 := by decide

theorem test_sb :
    stored (start64 0x2000 0x123456789ABCDEF 0x007300A3) = some [0x11, 0xEF, 0x33, 0x44, 0x55, 0x66, 0x77, 0x88] := by decide

theorem test_sh :
    stored (start64 0x2000 0x123456789ABCDEF 0x00731123) = some [0x11, 0x22, 0xEF, 0xCD, 0x55, 0x66, 0x77, 0x88] := by decide

theorem test_sw :
    stored (start64 0x2000 0x123456789ABCDEF 0x00732223) = some [0x11, 0x22, 0x33, 0x44, 0xEF, 0xCD, 0xAB, 0x89] := by decide

theorem test_sd :
    stored (start64 0x2000 0x123456789ABCDEF 0x00733023) = some [0xEF, 0xCD, 0xAB, 0x89, 0x67, 0x45, 0x23, 0x01] := by decide

theorem test_mul :
    wrote 5 (start64 0x7 0x6 0x027302B3) = some 0x2A
      ∧ wrote 5 (start64 0x123456789 0x987654321 0x027302B3) = some 0xD77D742CCE1833A9 := by decide

theorem test_mulh :
    wrote 5 (start64 0x8000000000000000 0x8000000000000000 0x027312B3) = some 0x4000000000000000
      ∧ wrote 5 (start32 0x80000000 0x80000000 0x027312B3) = some 0x40000000 := by decide

theorem test_mulhsu :
    wrote 5 (start64 0xFFFFFFFFFFFFFFFF 0x2 0x027322B3) = some 0xFFFFFFFFFFFFFFFF
      ∧ wrote 5 (start64 0x8000000000000000 0xFFFFFFFFFFFFFFFF 0x027322B3) = some 0x8000000000000000 := by decide

theorem test_mulhu :
    wrote 5 (start64 0x8000000000000000 0x4 0x027332B3) = some 0x2
      ∧ wrote 5 (start32 0xFFFFFFFF 0xFFFFFFFF 0x027332B3) = some 0xFFFFFFFE := by decide

theorem test_mulw :
    wrote 5 (start64 0x7FFFFFFF 0x2 0x027302BB) = some 0xFFFFFFFFFFFFFFFE
      ∧ wrote 5 (start64 0xFFFFFFFF00000003 0x5 0x027302BB) = some 0xF := by decide

theorem test_div :
    wrote 5 (start64 0xFFFFFFFFFFFFFFEC 0x6 0x027342B3) = some 0xFFFFFFFFFFFFFFFD
      ∧ wrote 5 (start32 0x80000000 0xFFFFFFFF 0x027342B3) = some 0x80000000 := by decide

theorem test_divu :
    wrote 5 (start64 0xFFFFFFFFFFFFFFFF 0x2 0x027352B3) = some 0x7FFFFFFFFFFFFFFF
      ∧ wrote 5 (start32 0x7 0x0 0x027352B3) = some 0xFFFFFFFF := by decide

theorem test_rem :
    wrote 5 (start64 0xFFFFFFFFFFFFFFEC 0x6 0x027362B3) = some 0xFFFFFFFFFFFFFFFE
      ∧ wrote 5 (start32 0x80000000 0xFFFFFFFF 0x027362B3) = some 0x0 := by decide

theorem test_remu :
    wrote 5 (start64 0xFFFFFFFFFFFFFFFF 0xA 0x027372B3) = some 0x5
      ∧ wrote 5 (start64 0x5 0x0 0x027372B3) = some 0x5 := by decide

theorem test_divw :
    wrote 5 (start64 0x100000014 0x6 0x027342BB) = some 0x3
      ∧ wrote 5 (start64 0x80000000 0xFFFFFFFF 0x027342BB) = some 0xFFFFFFFF80000000 := by decide

theorem test_divuw :
    wrote 5 (start64 0xFFFFFFFF 0x2 0x027352BB) = some 0x7FFFFFFF
      ∧ wrote 5 (start64 0xFFFFFFFF 0x0 0x027352BB) = some 0xFFFFFFFFFFFFFFFF := by decide

theorem test_remw :
    wrote 5 (start64 0xFFFFFFFFFFFFFFEC 0x6 0x027362BB) = some 0xFFFFFFFFFFFFFFFE
      ∧ wrote 5 (start64 0x80000000 0xFFFFFFFF 0x027362BB) = some 0x0 := by decide

theorem test_remuw :
    wrote 5 (start64 0xFFFFFFFF 0xA 0x027372BB) = some 0x5
      ∧ wrote 5 (start64 0x80000005 0x0 0x027372BB) = some 0xFFFFFFFF80000005 := by decide

theorem test_sh1add :
    wrote 5 (start64 0x5 0x64 0x207322B3) = some 0x6E
      ∧ wrote 5 (start64 0xFFFFFFFFFFFFFFFF 0x0 0x207322B3) = some 0xFFFFFFFFFFFFFFFE := by decide

theorem test_sh2add :
    wrote 5 (start64 0x5 0x64 0x207342B3) = some 0x78 := by decide

theorem test_sh3add :
    wrote 5 (start64 0x5 0x64 0x207362B3) = some 0x8C
      ∧ wrote 5 (start32 0x20000000 0x5 0x207362B3) = some 0x5 := by decide

theorem test_addUw :
    wrote 5 (start64 0xFFFFFFFFFFFFFFFF 0xFFFFFFFFFFFFFFFF 0x087302BB) = some 0xFFFFFFFE
      ∧ wrote 5 (start64 0xFFFFFFFF80000000 0x1 0x087302BB) = some 0x80000001 := by decide

theorem test_sh1addUw :
    wrote 5 (start64 0xFFFFFFFF80000000 0x0 0x207322BB) = some 0x100000000 := by decide

theorem test_sh2addUw :
    wrote 5 (start64 0x1234567880000001 0x1000 0x207342BB) = some 0x200001004 := by decide

theorem test_sh3addUw :
    wrote 5 (start64 0xFFFFFFFFFFFFFFFF 0x0 0x207362BB) = some 0x7FFFFFFF8 := by decide

theorem test_slliUw :
    wrote 5 (start64 0xFFFFFFFF80000000 0 0x0843129B) = some 0x800000000
      ∧ wrote 5 (start64 0xFFFFFFFF80000000 0 0x0803129B) = some 0x80000000 := by decide

theorem test_bset :
    wrote 5 (start64 0x0 0x40 0x287312B3) = some 0x1
      ∧ wrote 5 (start32 0x0 0x21 0x287312B3) = some 0x2 := by decide

theorem test_bclr :
    wrote 5 (start64 0xFFFFFFFFFFFFFFFF 0x3F 0x487312B3) = some 0x7FFFFFFFFFFFFFFF
      ∧ wrote 5 (start64 0x0 0x5 0x487312B3) = some 0x0 := by decide

theorem test_binv :
    wrote 5 (start64 0x5 0x0 0x687312B3) = some 0x4
      ∧ wrote 5 (start64 0x5 0x2 0x687312B3) = some 0x1 := by decide

theorem test_bext :
    wrote 5 (start64 0x8000000000000000 0x7F 0x487352B3) = some 0x1
      ∧ wrote 5 (start32 0x2 0x21 0x487352B3) = some 0x1 := by decide

theorem test_bseti :
    wrote 5 (start64 0x0 0 0x2BF31293) = some 0x8000000000000000 := by decide

theorem test_bclri :
    wrote 5 (start64 0xFFFFFFFFFFFFFFFF 0 0x48031293) = some 0xFFFFFFFFFFFFFFFE := by decide

theorem test_binvi :
    wrote 5 (start64 0x0 0 0x6A031293) = some 0x100000000
      ∧ wrote 5 (start32 0x0 0 0x69F31293) = some 0x80000000 := by decide

theorem test_bexti :
    wrote 5 (start64 0x100000000 0 0x4A035293) = some 0x1
      ∧ wrote 5 (start32 0x80000000 0 0x49F35293) = some 0x1 := by decide

theorem test_clmul :
    wrote 5 (start64 0x123456789ABCDEF0 0xFEDCBA987654321 0x0A7312B3) = some 0x40A0789828C810F0
      ∧ wrote 5 (start32 0xFFFFFFFF 0xFFFFFFFF 0x0A7312B3) = some 0x55555555 := by decide

theorem test_clmulr :
    wrote 5 (start64 0x8000000000000000 0x8000000000000000 0x0A7322B3) = some 0x8000000000000000
      ∧ wrote 5 (start64 0x123456789ABCDEF0 0xFEDCBA987654321 0x0A7322B3) = some 0x1C071B0D110A160 := by decide

theorem test_clmulh :
    wrote 5 (start64 0x123456789ABCDEF0 0xFEDCBA987654321 0x0A7332B3) = some 0xE038D8688850B0
      ∧ wrote 5 (start32 0xFFFFFFFF 0xFFFFFFFF 0x0A7332B3) = some 0x55555555 := by decide

/-- V43: FENCE words go on and change nothing; ECALL and EBREAK stop at their own address. -/
theorem test_fence :
    jumped 6 (start64 5 0 0x0330000F) = some (5, 0x1004) ∧ jumped 6 (start64 5 0 0x8330000F) = some (5, 0x1004)
      ∧ jumped 6 (start64 5 0 0x0100000F) = some (5, 0x1004) := by decide

/-- The status and pc after a step. -/
def ends (s : State) : Option (Bool × Nat) :=
  match step s with
  | .next t => some (t.hart.status = .stopped, t.pc.toNat)
  | _ => none

theorem test_ecall : ends (start64 0 0 0x00000073) = some (true, 0x1000) := by decide
theorem test_ebreak : ends (start64 0 0 0x00100073) = some (true, 0x1000) := by decide

theorem test_add_to_x0 : wrote 0 (start64 5 7 0x00730033) = some 0 := by decide

/-! ## Errors -/

/-- A step fails with this error (pc, word, instruction and kind), leaving pc and x5 as they were. -/
def failsWith (s : State) (e : RunError s.bits s.cfg.customErrors) : Prop :=
  step s = .next (s.ended (.failed e))

/-- V60. -/
theorem test_v60_unaligned_fetch :
    failsWith { State.reset with hart := { State.reset.hart with pc := 0x1002 } } (.unalignedFetch 0x1002) := rfl

/-- V61. -/
theorem test_v61_fetch_refused :
    failsWith (start { Config.reference with accessor := .regions [] } 0 0 0)
      (.executionFault 0x1000 none none (.fetchAccess 0x1000)) := rfl

/-- V62. -/
theorem test_v62_illegal :
    failsWith (start (coreOf .rv64 refCryptoVariants) 0 0 0x0A3120B3) (.illegalInstruction 0x1000 0x0A3120B3) := rfl

/-- V63. -/
theorem test_v63_declined :
    failsWith (start { coreOf .rv64 refCryptoVariants with hook := .scripted [(0x0A3120B3, .decline)] } 0 0 0x0A3120B3)
      (.illegalInstruction 0x1000 0x0A3120B3) := rfl

/-- V64. -/
theorem test_v64_misaligned :
    failsWith (start { Config.reference with misaligned := .fault } 0x2000 0 0x00132283)
      (.executionFault 0x1000 (some 0x00132283) (some (.lw 5 6 1)) (.misalignedAccess 0x2001 4 .load)) := rfl

/-- V65, with MEM's bytes. -/
theorem test_v65_delegated : wrote 5 (start64 0x2000 0 0x00132283) = some 0x55443322 := by decide

/-- An accessor that serves fetches of the word at 0x1000 only. -/
def codeOnly : Accessor := .regions [⟨0x1000, 4, true, false, false⟩]

/-- V66. -/
theorem test_v66_store_refused :
    failsWith (start { Config.reference with accessor := codeOnly } 0x3000 0 0x00533023)
      (.executionFault 0x1000 (some 0x00533023) (some (.sd 6 5 0)) (.memoryAccess 0x3000 8 .store)) := rfl

/-- V68: the pc wraps. -/
theorem test_v68_pc_wraps :
    (match step (State.withFetchWord
        { State.reset with hart := { State.reset.hart with pc := 0xFFFFFFFFFFFFFFFC } } 32 0x00130293) with
      | .next t => some ((t.x 5).toNat, t.pc.toNat)
      | _ => none) = some (1, 0) := by decide

/-! ## The hook (60_exceptions.md R308 to R312) -/

/-- A core at 0x1000 whose hook takes the word 0x0000000B there, with these effects and this outcome. -/
def hooked (c : Config) (effects : List HookEffect) (out : HookEnd c.customErrors) : State :=
  start { c with hook := .scripted [(0x0000000B, .done effects out)] } 0 0 0x0000000B

/-- R310, R311: a hook that writes no pc resumes at the word after the host call; one that writes t at t + 4. -/
theorem test_hook_continue :
    wrote 5 (hooked Config.reference [.setReg 5 7] .cont) = some 7
      ∧ jumped 5 (hooked Config.reference [.setPc 0x2000] .cont) = some (0, 0x2004) := by decide

/-- R41, R310: the hook reads memory through the accessor, and a refused read gives it no byte. -/
theorem test_hook_reads_through_the_accessor :
    (start64 0 0 0).hookRead 0x2000 .half = some 0x2211
      ∧ (start { Config.reference with accessor := codeOnly } 0 0 0).hookRead 0x2000 .half = none := by decide

/-- R7: an error type without values leaves the hook no custom error. -/
theorem test_no_custom_error (c : CustomError (.finite 0)) : False := absurd c.valid (by simp [CustomErrorType.has])

/-! ## Names (10_state.md R24, 30_encoding.md R96) -/

theorem test_names :
    Reg.ofName "sp" = some 2 ∧ Reg.ofName "fp" = some 8 ∧ Reg.ofName "t6" = some 31 ∧ Reg.ofName "x17" = some 17
      ∧ Reg.ofName "x32" = none := by decide

theorem test_text :
    (Instr.lw 5 6 0xFFC).text (0x1000 : BitVec 64) = "lw x5, -4(x6)"
      ∧ (Instr.beq 6 7 8).text (0x1000 : BitVec 64) = "beq x6, x7, 4112"
      ∧ (Instr.fence 0 3 3 0 0).text (0x1000 : BitVec 64) = "fence rw, rw" := by decide

theorem test_pseudo :
    Pseudo.expand .rv64 0x1000 (.li 5 0x7FFFFFFF) = some [.lui 5 0x80000, .addiw 5 5 0xFFF]
      ∧ Pseudo.expand .rv64 0x1000 (.call 0x2800) = some [.auipc 1 2, .jalr 1 1 0x800]
      ∧ Pseudo.expand .rv64 0x1000 (.j 0xFFC) = some [.jal 0 0xFFFFE]
      ∧ Pseudo.expand .rv32 0x1000 (.zextW 5 6) = none := by decide

/-! ## Witnesses: for each statement with hypotheses, a state and operands that meet all of them -/

/-- A core that faults misaligned accesses. -/
def faulting : Config := { Config.reference with misaligned := .fault }

/-- A core that serves nothing but the fetch of its word. -/
def closed : Config := { Config.reference with accessor := codeOnly }

/-- The smallest core: XLEN = 32 and 16 registers. -/
def small : Config := { coreOf .rv32 refFullVariants with nreg := .e16 }

theorem witness_ConstructionFollowsParameters :
    (buildComposite .rv64 .i32 refFull).toOption.isSome = true
      ∧ (buildComposite .rv64 .i32 [⟨[.leaf .Zbc, .leaf .Zbkc], [], []⟩]).toOption.isSome = false := by decide

theorem witness_OnlyStoppedRunsResume :
    (State.reset.ended .stopped).hart.status = .stopped
      ∧ (State.reset.ended (.failed (.unalignedFetch 2))).hart.status = .failed (.unalignedFetch 2)
      ∧ State.reset.hart.status = .running := ⟨rfl, rfl, rfl⟩

theorem witness_SelfJumpReachesEveryBound :
    (start64 0 0 0x6F).hart.status = .running ∧ (start64 0 0 0x6F).pc.toNat % 4 = 0
      ∧ (start64 0 0 0x6F).fetch = some 0x0000006F
      ∧ decodeWord (start64 0 0 0x6F).cfg 0x0000006F = some ⟨.I, .jal 0 0⟩ := by decide

theorem witness_WrittenValueIsReadNext :
    (31 : Reg).val < (start64 1 2 0).cfg.nreg.count
      ∧ CompletesAt (.jal 5 4) (start64 1 2 0) 5 (fun v => v.toNat = 0x1004) 0x1008 :=
  ⟨by decide, { (start64 1 2 0).hart.setX 5 0x1004 with pc := 0x1008 }, rfl, fun _ => by decide,
    ⟨rfl, fun r hr => by revert r; decide, fun _ => rfl, rfl⟩, rfl⟩

theorem witness_SlotOfX0NeverMatters :
    step (start64 1 2 0x00000073) = .next ((start64 1 2 0x00000073).ended .stopped) := rfl

theorem witness_WriteChangesItsBytesOnly : Memory.wf [(3, 1), (5, 9)] = true ∧ 8 ≤ 8 ∧ 32 ≤ 32 := by decide

theorem witness_NarrowReadOfWideWrite :
    Memory.wf [(3, 1), (5, 9)] = true ∧ 8 ≤ 8 ∧ 32 ≤ 64 ∧ 4 + 4 ≤ 8 := by decide

theorem witness_NextFetchSeesTheStore :
    let s := start64 0x1004 7 0
    s.hart.mem.wf = true ∧ s.cfg.xlen = .rv64
      ∧ (∀ n ∈ [1, 2, 4, 8], s.alignmentAllows (effAddr s 6 0xFFF) n ∧ s.served .store (effAddr s 6 0xFFF) n)
      ∧ s.served .fetch (s.pc + 4) 4 ∧ s.served .fetch 0xFFFFFFFFFFFFFFFC 4 := by decide

theorem witness_DecodeOfEncode :
    (Instr.add 31 31 31).wf Config.reference.xlen Config.reference.nreg = true
      ∧ (Instr.slli 31 31 63).wf Config.reference.xlen Config.reference.nreg = true
      ∧ (Instr.slli 15 15 31).wf small.xlen small.nreg = true := by decide

theorem witness_EncodeOfDecode : decodeWord small 0x002087B3 = some ⟨.I, .add 15 1 2⟩ := by decide

theorem witness_OverlapsAreExactlyTheSubsetPairs :
    (⟨.M, .mul⟩ : Variant) ∈ LeafSet.M.variants .rv32 ∧ (⟨.Zmmul, .mul⟩ : Variant) ∈ LeafSet.Zmmul.variants .rv32
      ∧ (⟨.M, .mul⟩ : Variant) ≠ ⟨.Zmmul, .mul⟩ := by decide

theorem witness_AcceptedExactlyWhenWellFormed :
    (inheritAll .rv64 [] [.leaf .Zbkc]).toOption = some ⟨LeafSet.Zbkc.variants .rv64, []⟩ := by decide

theorem witness_CompositeListFollowsItsDeclaration :
    Declaration.build .rv64 .i32 []
        ⟨[LeafSet.Zbc, LeafSet.Zbkc].map .leaf, [LeafSet.Zbc].map .leaf, [⟨.Zbkc, .clmulh⟩]⟩ =
      .ok ⟨[⟨.Zbkc, .clmulh⟩, ⟨.Zbkc, .clmul⟩], []⟩ := rfl

/-- One word for each clause, at the clause's boundary: AMO, a 16-bit pattern, FENCE.I, MRET, all zeros, all ones. -/
theorem witness_UnusedOpcodesDecodeToNothing :
    ((0x0000202F : InsnWord).extractLsb' 0 7 ∉
        ([0b0000011, 0b0001111, 0b0010011, 0b0010111, 0b0011011, 0b0100011, 0b0110011, 0b0110111, 0b0111011,
          0b1100011, 0b1100111, 0b1101111, 0b1110011] : List (BitVec 7)))
      ∧ (0x00000001 : InsnWord).extractLsb' 0 2 ≠ 0b11
      ∧ ((0x0000100F : InsnWord).extractLsb' 0 7 = 0b0001111 ∧ (0x0000100F : InsnWord).extractLsb' 12 3 ≠ 0b000)
      ∧ ((0x30200073 : InsnWord).extractLsb' 0 7 = 0b1110011 ∧ (0x30200073 : InsnWord) ≠ 0x00000073
          ∧ (0x30200073 : InsnWord) ≠ 0x00100073) := by decide

/-- The opcode, funct3, funct7 and bit 25 of a word. -/
def codes (w : InsnWord) : BitVec 7 × BitVec 3 × BitVec 7 × Bool :=
  (w.extractLsb' 0 7, w.extractLsb' 12 3, w.extractLsb' 25 7, w.getLsbD 25)

/-- One word for each clause of the reserved encodings, in their order. -/
theorem witness_ReservedEncodingsDecodeToNothing :
    (coreOf .rv32 refFullVariants).xlen = .rv32
      ∧ [0x02031293, 0x0003029B, 0x00033283, 0x00733023, 0x0203529B, 0x0203129B, 0x0000301B, 0x00007003,
          0x00004023, 0x00002063, 0x00002067, 0x04001013, 0x04005013, 0x0400101B, 0x0400501B, 0x40001033,
          0x0000203B, 0x30200073].map codes =
        [(0b0010011, 0b001, 0b0000001, true), (0b0011011, 0b000, 0b0000000, false),
          (0b0000011, 0b011, 0b0000000, false), (0b0100011, 0b011, 0b0000000, false),
          (0b0011011, 0b101, 0b0000001, true), (0b0011011, 0b001, 0b0000001, true),
          (0b0011011, 0b011, 0b0000000, false), (0b0000011, 0b111, 0b0000000, false),
          (0b0100011, 0b100, 0b0000000, false), (0b1100011, 0b010, 0b0000000, false),
          (0b1100111, 0b010, 0b0000000, false), (0b0010011, 0b001, 0b0000010, false),
          (0b0010011, 0b101, 0b0000010, false), (0b0011011, 0b001, 0b0000010, false),
          (0b0011011, 0b101, 0b0000010, false), (0b0110011, 0b001, 0b0100000, false),
          (0b0111011, 0b010, 0b0000000, false), (0b1110011, 0b000, 0b0011000, false)] := by decide

theorem witness_OrderOfTheCompositeNeverMatters :
    (∀ op, (∃ v ∈ (start64 1 2 0x73).cfg.composite, v.op = op) ↔
        ∃ v ∈ (start64 1 2 0x73).cfg.composite.reverse, v.op = op)
      ∧ step (start64 1 2 0x73) = .next ((start64 1 2 0x73).ended .stopped) :=
  ⟨fun op => by simp only [List.mem_reverse], rfl⟩

theorem witness_LiLoadsItsImmediate : (15 : Reg).val < (start small 0 0 0).cfg.nreg.count := by decide

theorem witness_UpperImmediates :
    (31 : Reg).val < (start64 0 0 0).cfg.nreg.count ∧ (15 : Reg).val < (start small 0 0 0).cfg.nreg.count := by decide

theorem witness_AdditionAndSubtraction :
    (31 : Reg).val < (start64 0 0 0).cfg.nreg.count ∧ (15 : Reg).val < (start small 0 0 0).cfg.nreg.count := by decide

theorem witness_Comparisons :
    (31 : Reg).val < (start64 0 0 0).cfg.nreg.count ∧ (15 : Reg).val < (start small 0 0 0).cfg.nreg.count := by decide

theorem witness_BitwiseLogic :
    (31 : Reg).val < (start64 0 0 0).cfg.nreg.count ∧ (15 : Reg).val < (start small 0 0 0).cfg.nreg.count := by decide

theorem witness_RegisterShifts :
    (31 : Reg).val < (start64 0 0 0).cfg.nreg.count ∧ (15 : Reg).val < (start small 0 0 0).cfg.nreg.count := by decide

theorem witness_JumpsLinkAndGo :
    (31 : Reg).val < (start64 0 0 0).cfg.nreg.count ∧ (15 : Reg).val < (start small 0 0 0).cfg.nreg.count := by decide

theorem witness_Divisions :
    (31 : Reg).val < (start64 0 0 0).cfg.nreg.count ∧ (15 : Reg).val < (start small 0 0 0).cfg.nreg.count := by decide

theorem witness_SingleBitRegisterForms :
    (31 : Reg).val < (start64 0 0 0).cfg.nreg.count ∧ (15 : Reg).val < (start small 0 0 0).cfg.nreg.count := by decide

theorem witness_CarrylessMultiplications :
    (31 : Reg).val < (start64 0 0 0).cfg.nreg.count ∧ (15 : Reg).val < (start small 0 0 0).cfg.nreg.count := by decide

theorem witness_WordAdditionAndSubtraction :
    (31 : Reg).val < (start64 0 0 0).cfg.nreg.count ∧ (start64 0 0 0).cfg.xlen = .rv64 := by decide

theorem witness_WordShifts :
    (31 : Reg).val < (start64 0 0 0).cfg.nreg.count ∧ (start64 0 0 0).cfg.xlen = .rv64 := by decide

theorem witness_Multiplications :
    (31 : Reg).val < (start64 0 0 0).cfg.nreg.count ∧ (start64 0 0 0).cfg.xlen = .rv64 := by decide

theorem witness_WordDivisions :
    (31 : Reg).val < (start64 0 0 0).cfg.nreg.count ∧ (start64 0 0 0).cfg.xlen = .rv64 := by decide

theorem witness_AddressGeneration :
    (31 : Reg).val < (start64 0 0 0).cfg.nreg.count ∧ (start64 0 0 0).cfg.xlen = .rv64 := by decide

theorem witness_ImmediateShifts :
    ((31 : Reg).val < (start64 0 0 0).cfg.nreg.count ∧ (63 : BitVec 6).toNat < (start64 0 0 0).bits)
      ∧ (15 : Reg).val < (start small 0 0 0).cfg.nreg.count ∧ (31 : BitVec 6).toNat < (start small 0 0 0).bits := by
  decide

theorem witness_SingleBitImmediateForms :
    ((31 : Reg).val < (start64 0 0 0).cfg.nreg.count ∧ (63 : BitVec 6).toNat < (start64 0 0 0).bits)
      ∧ (15 : Reg).val < (start small 0 0 0).cfg.nreg.count ∧ (31 : BitVec 6).toNat < (start small 0 0 0).bits := by
  decide

/-- An access is allowed at the address in x6. -/
abbrev allowed (c : Config) (addr : Nat) (k : AccessKind) (n : Nat) : Prop :=
  (start c addr 0 0).alignmentAllows (effAddr (start c addr 0 0) 6 0) n
    ∧ (start c addr 0 0).served k (effAddr (start c addr 0 0) 6 0) n

/-- Each width at its boundary: aligned with the `Fault` policy, and across the top of memory with `Delegate`. -/
theorem witness_LoadsReadTheirBytes :
    (31 : Reg).val < (start faulting 0 0 0).cfg.nreg.count ∧ (start faulting 0 0 0).cfg.xlen = .rv64
      ∧ allowed faulting 0x2007 .load 1 ∧ allowed faulting 0x2006 .load 2 ∧ allowed faulting 0x2004 .load 4
      ∧ allowed faulting 0x2000 .load 8 ∧ allowed Config.reference 0xFFFFFFFFFFFFFFFF .load 8 := by decide

theorem witness_StoresWriteTheirBytes :
    (start faulting 0x2000 0 0).hart.mem.wf = true ∧ (start faulting 0 0 0).cfg.xlen = .rv64
      ∧ allowed faulting 0x2007 .store 1 ∧ allowed faulting 0x2006 .store 2 ∧ allowed faulting 0x2004 .store 4
      ∧ allowed faulting 0x2000 .store 8 ∧ allowed Config.reference 0xFFFFFFFFFFFFFFFF .store 8 := by decide

/-- An access the alignment policy allows is refused at the address in x6. -/
abbrev refused (c : Config) (addr : Nat) (k : AccessKind) (n : Nat) : Prop :=
  (start c addr 0 0).alignmentAllows (effAddr (start c addr 0 0) 6 0) n
    ∧ ¬ (start c addr 0 0).served k (effAddr (start c addr 0 0) 6 0) n

theorem witness_RefusedAccessesRaise :
    (refused closed 0x2001 .load 1 ∧ refused closed 0x2001 .load 2 ∧ refused closed 0x2001 .load 4
      ∧ refused closed 0x2001 .load 8)
      ∧ refused closed 0x1000 .store 1 ∧ refused closed 0x2001 .store 2 ∧ refused closed 0x2001 .store 4
      ∧ refused closed 0x2001 .store 8 ∧ (start closed 0 0 0).cfg.xlen = .rv64 := by decide

theorem witness_MisalignedAccessesRaise :
    (start faulting 0 0 0).cfg.misaligned = .fault ∧ (start faulting 0 0 0).cfg.xlen = .rv64
      ∧ (effAddr (start faulting 0x2001 0 0) 6 0).toNat % 2 ≠ 0
      ∧ (effAddr (start faulting 0x2002 0 0) 6 0).toNat % 4 ≠ 0
      ∧ (effAddr (start faulting 0x2004 0 0) 6 0).toNat % 8 ≠ 0 := by decide

theorem witness_EcallAndEbreakStop : Instr.ecall = .ecall ∨ Instr.ecall = .ebreak := by decide

theorem witness_MultiplyDivideLaws :
    0 < 32 ∧ (0x80000000 : BitVec 32).toInt = -2 ^ (32 - 1) ∧ (0xFFFFFFFF : BitVec 32).toInt = -1
      ∧ (0xFFFFFFFF : BitVec 32) ≠ 0 := by decide

theorem witness_CarrylessLaws : 0 < 64 := by decide

theorem witness_StepRunsTheDecodedInstruction :
    let s := start64 1 2 0x007302B3
    s.hart.status = .running ∧ s.pc.toNat % 4 = 0 ∧ s.served .fetch s.pc 4
      ∧ (decodeBytes s.cfg ((List.range 4).map fun j => s.byteAt (s.pc.toNat + j))).toOption =
          some (⟨.I, .add 5 6 7⟩, []) := by decide

theorem witness_FetchErrors :
    (State.reset.withHart { State.reset.hart with pc := 0x1002 }).pc.toNat % 4 ≠ 0
      ∧ (start { Config.reference with accessor := .regions [] } 0 0 0).hart.status = .running
      ∧ (start { Config.reference with accessor := .regions [] } 0 0 0).pc.toNat % 4 = 0
      ∧ ¬ (start { Config.reference with accessor := .regions [] } 0 0 0).served .fetch 0x1000 4 := by decide

theorem witness_IllegalExactlyWhenNothingTakesTheWord :
    (start64 0 0 0).hart.status = .running
      ∧ step (start64 0 0 0) = .next ((start64 0 0 0).ended (.failed (.illegalInstruction 0x1000 0))) := ⟨rfl, rfl⟩

/-- What the hook of the next witness does: it writes x31, stores two bytes at the top of memory and sets the pc. -/
def hookDoes : List HookEffect := [.setReg 31 7, .store 0xFFFFFFFFFFFFFFFF .half 0x1234, .setPc 0x2000]

/-- A hook takes the word 0x0000000B at 0x1000, with these effects and this outcome. -/
abbrev HookTakes (s : State) (effects : List HookEffect) (out : HookEnd s.cfg.customErrors) : Prop :=
  s.hart.status = .running ∧ s.pc.toNat % 4 = 0 ∧ s.fetch = some 0x0000000B ∧ decodeWord s.cfg 0x0000000B = none
    ∧ s.hart.mem.wf = true ∧ s.hookAnswer 0x0000000B = .done effects out

/-- Every outcome, no effect and each effect, a register the core does not have, and a refused store. -/
theorem witness_HookOutcomes :
    HookTakes (hooked Config.reference hookDoes .cont) hookDoes .cont
      ∧ HookTakes (hooked Config.reference [] .cont) [] .cont
      ∧ HookTakes (hooked Config.reference hookDoes .brk) hookDoes .brk
      ∧ HookTakes (hooked Config.reference hookDoes (.fault 3)) hookDoes (.fault 3)
      ∧ HookTakes (hooked Config.reference hookDoes (.custom ⟨9, rfl⟩)) hookDoes (.custom ⟨9, rfl⟩)
      ∧ HookTakes (hooked small hookDoes .cont) hookDoes .cont
      ∧ HookTakes (hooked closed hookDoes .cont) hookDoes .cont := by decide

theorem witness_ExactlyRunningRunsStep :
    State.reset.hart.status = .running ∧ (State.reset.ended .stopped).hart.status = .stopped
      ∧ (State.reset.ended (.failed (.unalignedFetch 2))).hart.status = .failed (.unalignedFetch 2) :=
  ⟨rfl, rfl, rfl⟩

/-- The hart after a load at 0x2000 that the accessor refuses. -/
def afterRefusedLoad : (start closed 0x2000 0 0).HartOf :=
  { (start closed 0x2000 0 0).hart with
    status := .failed
      (.executionFault 0x1000 (some (encode (.lw 5 6 0))) (some (.lw 5 6 0)) (.memoryAccess 0x2000 4 .load)) }

theorem witness_InstructionErrorsArePrecise :
    (start closed 0x2000 0 0).hart.status = .running
      ∧ exec (.lw 5 6 0) (start closed 0x2000 0 0) = .next ((start closed 0x2000 0 0).withHart afterRefusedLoad) :=
  ⟨rfl, rfl⟩

theorem witness_OnlyEcallAndEbreakBreak :
    (start64 0 0 0).hart.status = .running
      ∧ exec .ebreak (start64 0 0 0) = .next ((start64 0 0 0).ended .stopped) := ⟨rfl, rfl⟩

theorem witness_OnlyJumpsAndBranchesSetThePc :
    exec (.fence 0 0 0 0 0) (start64 0 0 0) =
        .next ((start64 0 0 0).withHart { (start64 0 0 0).hart with pc := 0x1004 })
      ∧ (start64 0 0 0).hart.status = .running
      ∧ (Instr.fence 0 0 0 0 0).op ∉ [.jal, .jalr, .beq, .bne, .blt, .bge, .bltu, .bgeu] :=
  ⟨rfl, rfl, by decide⟩

theorem witness_AtMostOneRegisterIsWritten :
    exec (.addi 5 6 1) (start64 1 0 0) =
      .next ((start64 1 0 0).withHart { (start64 1 0 0).hart.setX 5 2 with pc := 0x1004 }) := rfl

/-- The hart after a byte of x7 is stored at 0x2000. -/
def afterStore : (start64 0x2000 7 0).HartOf :=
  { (start64 0x2000 7 0).hart with mem := (start64 0x2000 7 0).hart.mem.write 0x2000 7, pc := 0x1004 }

theorem witness_OnlyStoresChangeMemory :
    (start64 0x2000 7 0).hart.mem.wf = true
      ∧ exec (.sb 6 7 0) (start64 0x2000 7 0) = .next ((start64 0x2000 7 0).withHart afterStore)
      ∧ afterStore.mem.read 0x2000 ≠ (start64 0x2000 7 0).byteAt 0x2000 := ⟨rfl, rfl, by decide⟩

theorem witness_StepKeepsTheInvariant :
    (start64 1 2 0x73).Inv ∧ step (start64 1 2 0x73) = .next ((start64 1 2 0x73).ended .stopped) :=
  ⟨⟨⟨by decide, by decide⟩, fun _ h => nomatch h⟩, rfl⟩

theorem witness_ResetMeetsTheInvariant : State.construct Parameters.reference = .ok State.reset := by
  simp only [State.construct]
  rfl

end Sys2Proof.Tests
end

section
/-! The reset state is what construction gives from the reference parameters (spec/00_scope.md R7,
70_reset_and_hazards.md R351; logs 1 to 3). -/

namespace Sys2Proof

/-- R88: `refFull` is well-formed at every width and register count; its list is the leaves' in order. -/
theorem buildComposite_refFull (x : Xlen) (n : Nreg) : buildComposite x n refFull = .ok (refFullVariants x) := by
  cases x <;> cases n <;> rfl

end Sys2Proof

namespace Sys2Proof.Machine

/-- R351: a composite that builds gives a state, here with the fields of the parameters. -/
theorem State.construct_of_ok {p : Parameters} {variants : List Variant}
    (h : buildComposite p.xlen p.nreg p.composite = .ok variants) :
    State.construct p =
      .ok
        { cfg := ⟨p.xlen, p.nreg, variants, p.misaligned, p.accessor, p.customErrors, p.hook⟩
          hart := ⟨p.initialRegs.setIfInBounds 0 0, p.entryPc, .ofImage p.xlen.bits p.image, .running⟩ } := by
  unfold State.construct
  rw [h]

theorem State.construct_reference : State.construct Parameters.reference = .ok State.reset :=
  State.construct_of_ok (p := Parameters.reference) (buildComposite_refFull .rv64 .i32)

/-- A register file of zeros reads 0 everywhere: x0, the registers the core has, and the others. -/
theorem Hart.x_of_regs_zero {w n : Nat} {t : CustomErrorType} {h : Hart w n t}
    (hregs : h.regs = Vector.replicate n 0) (r : Reg) : h.x r = 0 := by
  unfold Hart.x
  rw [hregs, Vector.getElem?_replicate]
  by_cases h0 : r = 0
  · rw [if_pos h0]
  · rw [if_neg h0]
    by_cases hr : r.val < n
    · rw [if_pos hr, Option.getD_some]
    · rw [if_neg hr, Option.getD_none]

@[simp] theorem State.reset_x (r : Reg) : State.reset.x r = 0 := Hart.x_of_regs_zero rfl r

@[simp] theorem State.reset_xNat (r : Reg) : State.reset.xNat r = 0 := congrArg BitVec.toNat (State.reset_x r)

@[simp] theorem State.reset_byteAt (a : Nat) : State.reset.byteAt a = 0 := rfl

/-- Settles O2: construction with the reference composite, and a read of each field of the state. -/
theorem resetIsTheReferenceConstruction : Obligations.ResetIsTheReferenceConstruction := by
  unfold Obligations.ResetIsTheReferenceConstruction
  exact ⟨State.construct_reference, State.reset_xNat, rfl, rfl, State.reset_byteAt⟩

end Sys2Proof.Machine
end

section
/-! What one instruction can do to the architectural state, said once, and what follows of it: the pc, the registers
and the runs that take steps (spec/10_state.md R21 to R28, R35, R36; 60_exceptions.md R300, R304, R322). -/

namespace Sys2Proof.Machine

/-! ## One instruction's effect -/

/-- A next state determines the architectural part it was built from. -/
theorem State.hart_eq_of_next {s : State} {h k : s.HartOf}
    (e : (.next (s.withHart h) : StepOutcome) = .next (s.withHart k)) : h = k := by
  simpa [State.withHart] using e

/-- The mnemonics of 41_control_transfer.md, R151 to R158. -/
abbrev jumpsAndBranches : List Op := [.jal, .jalr, .beq, .bne, .blt, .bge, .bltu, .bgeu]

/-- What instruction `i` can leave of the architectural part of `s`. -/
inductive ExecEffect (i : Instr) (s : State) : s.HartOf → Prop where
  | writes (rd : Reg) (v : s.Word) (hrd : rd ∈ i.registers) : ExecEffect i s { s.hart.setX rd v with pc := s.pc + 4 }
  | links (rd : Reg) (target : s.Word) (hrd : rd ∈ i.registers) (hi : i.op ∈ jumpsAndBranches) :
      ExecEffect i s { s.hart.setX rd (s.pc + 4) with pc := target }
  | branches (target : s.Word) (hi : i.op ∈ jumpsAndBranches) :
      ExecEffect i s { s.hart with pc := target }
  | stores (m : Memory) : ExecEffect i s { s.hart with mem := m, pc := s.pc + 4 }
  | fences : ExecEffect i s { s.hart with pc := s.pc + 4 }
  | breaks (hi : i = .ecall ∨ i = .ebreak) : ExecEffect i s { s.hart with status := .stopped }
  | raises (kind : FaultKind s.bits) :
      ExecEffect i s
        { s.hart with status := .failed (.executionFault s.pc (some (encode i)) (some i) kind) }

/-- The outcome is a next state of the same configuration, after an effect of the instruction. -/
def HasExecEffect (i : Instr) (s : State) (o : StepOutcome) : Prop :=
  ∃ h : s.HartOf, o = .next (s.withHart h) ∧ ExecEffect i s h

theorem hasExecEffect_loadInto {i : Instr} {rd : Reg} (hrd : rd ∈ i.registers) (s : State) (addr : s.Word) (n : Nat)
    (extend : BitVec (8 * n) → s.Word) : HasExecEffect i s (s.loadInto i rd addr n extend) := by
  rcases s.loadInto_cases i rd addr n extend with ⟨-, h⟩ | ⟨-, -, h⟩ | ⟨-, -, h⟩
  · exact ⟨_, h, .raises _⟩
  · exact ⟨_, h, .raises _⟩
  · exact ⟨_, h, .writes rd _ hrd⟩

theorem hasExecEffect_storeFrom (i : Instr) (s : State) (rs2 : Reg) (addr : s.Word) (n : Nat) :
    HasExecEffect i s (s.storeFrom i rs2 addr n) := by
  rcases s.storeFrom_cases i rs2 addr n with ⟨-, h⟩ | ⟨-, -, h⟩ | ⟨-, -, h⟩
  · exact ⟨_, h, .raises _⟩
  · exact ⟨_, h, .raises _⟩
  · exact ⟨_, h, .stores _⟩

/-- Every instruction answers a next state, after one of the effects. -/
theorem exec_hasExecEffect (i : Instr) (s : State) : HasExecEffect i s (exec i s) := by
  cases i
  case jal | jalr => exact ⟨_, rfl, .links _ _ (List.mem_cons_self ..) (by simp [Instr.op])⟩
  case beq | bne | blt | bge | bltu | bgeu => exact ⟨_, rfl, .branches _ (by simp [Instr.op])⟩
  case lb | lh | lw | lbu | lhu | lwu | ld => exact hasExecEffect_loadInto (List.mem_cons_self ..) s _ _ _
  case sb | sh | sw | sd => exact hasExecEffect_storeFrom _ s _ _ _
  case fence => exact ⟨_, rfl, .fences⟩
  case ecall => exact ⟨_, rfl, .breaks (.inl rfl)⟩
  case ebreak => exact ⟨_, rfl, .breaks (.inr rfl)⟩
  all_goals exact ⟨_, rfl, .writes _ _ (List.mem_cons_self ..)⟩

/-- What an instruction leaves is one of its effects. -/
theorem effect_of_exec {i : Instr} {s : State} {h : s.HartOf} (he : exec i s = .next (s.withHart h)) :
    ExecEffect i s h := by
  obtain ⟨k, hk, effect⟩ := exec_hasExecEffect i s
  exact State.hart_eq_of_next (hk.symm.trans he) ▸ effect

/-- Settles O56: of the effects that leave the run running, only those of jumps and branches go elsewhere. -/
theorem onlyJumpsAndBranchesSetThePc : Obligations.OnlyJumpsAndBranchesSetThePc := by
  unfold Obligations.OnlyJumpsAndBranchesSetThePc
  intro i s h he hrun hi
  cases effect_of_exec he with
  | writes => rfl
  | links _ _ _ hj => exact absurd hj hi
  | branches _ hb => exact absurd hb hi
  | stores => rfl
  | fences => rfl
  | breaks => cases hrun
  | raises => cases hrun

/-- R22, R23: a write changes at most the register it names, and none where that is x0. -/
theorem Hart.setX_changes_at_most_one {w n : Nat} {t : CustomErrorType} (h : Hart w n t) {rd : Reg}
    {operands : List Reg} (hrd : rd ∈ operands) (v : BitVec w) :
    (∀ r, (h.setX rd v).x r = h.x r) ∨ ∃ q ∈ operands, q ≠ 0 ∧ ∀ r, r ≠ q → (h.setX rd v).x r = h.x r := by
  by_cases h0 : rd = 0
  · exact .inl fun r => by rw [h0, Hart.setX_zero]
  · exact .inr ⟨rd, hrd, h0, fun r hr => Hart.x_setX_of_ne h v hr⟩

/-- Settles O57: an effect that writes a register writes one operand, and the others write none. -/
theorem atMostOneRegisterIsWritten : Obligations.AtMostOneRegisterIsWritten := by
  unfold Obligations.AtMostOneRegisterIsWritten
  intro i s h he
  cases effect_of_exec he with
  | writes rd v hrd => exact s.hart.setX_changes_at_most_one hrd v
  | links rd target hrd => exact s.hart.setX_changes_at_most_one hrd (s.pc + 4)
  | branches => exact .inl fun _ => rfl
  | stores => exact .inl fun _ => rfl
  | fences => exact .inl fun _ => rfl
  | breaks => exact .inl fun _ => rfl
  | raises => exact .inl fun _ => rfl

/-! ## Which runs take steps -/

/-- The hook path answers a next state of the same configuration, whatever the hook does. -/
theorem State.hookPath_next (s : State) (w : InsnWord) : ∃ h : s.HartOf, s.hookPath w = .next (s.withHart h) := by
  unfold State.hookPath
  cases s.hookAnswer w with
  | decline => exact ⟨_, rfl⟩
  | done effects out => cases out <;> exact ⟨_, rfl⟩

theorem step_next_of_running {s : State} (hr : s.hart.status = .running) :
    ∃ h : s.HartOf, step s = .next (s.withHart h) := by
  rcases s.prepare_cases with ⟨-, hp⟩ | ⟨-, -, hp⟩ | ⟨w, d, -, -, -, hp⟩ | ⟨w, -, -, -, hp⟩
  · exact ⟨_, step_of_error hr hp⟩
  · exact ⟨_, step_of_error hr hp⟩
  · obtain ⟨h, he, -⟩ := exec_hasExecEffect d.insn s
    exact ⟨h, (step_of_ok hr hp).trans he⟩
  · obtain ⟨h, he⟩ := s.hookPath_next w
    exact ⟨h, (step_of_error hr hp).trans he⟩

theorem step_of_stopped {s : State} (h : s.hart.status = .stopped) : step s = .fault .runStopped := by
  simp only [step, h]

theorem step_of_failed {s : State} {e : RunError s.bits s.cfg.customErrors} (h : s.hart.status = .failed e) :
    step s = .fault .runFailed := by
  simp only [step, h]

/-- Settles O53: what is prepared, an instruction or an error or the hook path, answers a next state. -/
theorem exactlyRunningRunsStep : Obligations.ExactlyRunningRunsStep := by
  unfold Obligations.ExactlyRunningRunsStep
  exact fun _ => ⟨step_next_of_running, step_of_stopped, fun _ => step_of_failed⟩

/-- Only a running run takes a step. -/
theorem running_of_step_next {s t : State} (h : step s = .next t) : s.hart.status = .running := by
  cases hs : s.hart.status with
  | running => rfl
  | stopped => cases (step_of_stopped hs).symm.trans h
  | failed e => cases (step_of_failed hs).symm.trans h

end Sys2Proof.Machine
end

section
/-! The slot of x0 in the register array is never seen and never moved (spec/10_state.md R20 to R22; log 13): two runs
that differ in it alone take the same step. -/

namespace Sys2Proof.Machine

/-! ## A data access, case by case -/

theorem State.loadInto_of_misaligned {s : State} {addr : s.Word} {n : Nat} (hm : s.misalignedFault addr n = true)
    (i : Instr) (rd : Reg) (extend : BitVec (8 * n) → s.Word) :
    s.loadInto i rd addr n extend = s.raise i (.misalignedAccess addr n .load) := by
  simp only [State.loadInto, hm, if_true]

theorem State.loadInto_of_refused {s : State} {addr : s.Word} {n : Nat} (hm : s.misalignedFault addr n = false)
    (hs : ¬ s.served .load addr n) (i : Instr) (rd : Reg) (extend : BitVec (8 * n) → s.Word) :
    s.loadInto i rd addr n extend = s.raise i (.memoryAccess addr n .load) := by
  simp only [State.loadInto, memRead, hm, hs, Bool.false_eq_true, if_false]

theorem State.loadInto_of_served {s : State} {addr : s.Word} {n : Nat} (hm : s.misalignedFault addr n = false)
    (hs : s.served .load addr n) (i : Instr) (rd : Reg) (extend : BitVec (8 * n) → s.Word) :
    s.loadInto i rd addr n extend = s.retire rd (extend (s.hart.mem.load addr n)) := by
  simp only [State.loadInto, memRead, hm, hs, Bool.false_eq_true, if_false, if_true]

theorem State.storeFrom_of_misaligned {s : State} {addr : s.Word} {n : Nat} (hm : s.misalignedFault addr n = true)
    (i : Instr) (rs2 : Reg) : s.storeFrom i rs2 addr n = s.raise i (.misalignedAccess addr n .store) := by
  simp only [State.storeFrom, hm, if_true]

theorem State.storeFrom_of_refused {s : State} {addr : s.Word} {n : Nat} (hm : s.misalignedFault addr n = false)
    (hs : ¬ s.served .store addr n) (i : Instr) (rs2 : Reg) :
    s.storeFrom i rs2 addr n = s.raise i (.memoryAccess addr n .store) := by
  simp only [State.storeFrom, memWrite, hm, hs, Bool.false_eq_true, if_false]

theorem State.storeFrom_of_served {s : State} {addr : s.Word} {n : Nat} (hm : s.misalignedFault addr n = false)
    (hs : s.served .store addr n) (i : Instr) (rs2 : Reg) :
    s.storeFrom i rs2 addr n =
      .next (s.withHart
        { s.hart with
          mem := s.hart.mem.store addr n ((s.x rs2).setWidth (8 * n))
          pc := s.pc + 4 }) := by
  simp only [State.storeFrom, memWrite, hm, hs, Bool.false_eq_true, if_false, if_true]
  rfl

/-! ## What a step prepares, case by case -/

theorem State.prepare_of_unaligned {s : State} (ha : s.pc.toNat % 4 ≠ 0) :
    s.prepare = .error (s.fail (.unalignedFetch s.pc)) := by
  unfold State.prepare
  rw [if_pos (by simpa using ha)]

theorem State.prepare_of_fetch_refused {s : State} (ha : s.pc.toNat % 4 = 0) (hf : s.fetch = none) :
    s.prepare = .error (s.fail (.executionFault s.pc none none (.fetchAccess s.pc))) := by
  unfold State.prepare
  rw [if_neg (by simp [ha]), hf]

theorem State.prepare_of_decoded {s : State} {word : InsnWord} {d : Decoded} (ha : s.pc.toNat % 4 = 0)
    (hf : s.fetch = some word) (hd : decodeWord s.cfg word = some d) : s.prepare = .ok d.insn := by
  unfold State.prepare
  rw [if_neg (by simp [ha]), hf]
  simp only [hd]

theorem State.prepare_of_undecoded {s : State} {word : InsnWord} (ha : s.pc.toNat % 4 = 0)
    (hf : s.fetch = some word) (hd : decodeWord s.cfg word = none) : s.prepare = .error (s.hookPath word) := by
  unfold State.prepare
  rw [if_neg (by simp [ha]), hf]
  simp only [hd]

/-! ## Another value in the slot of x0 -/

section Slot

variable {w n : Nat} {t : CustomErrorType}

/-- The architectural part with another value in the slot of x0, which no write to a register reaches. -/
def Hart.withSlot0 (h : Hart w n t) (v : BitVec w) : Hart w n t := { h with regs := h.regs.setIfInBounds 0 v }

theorem State.withSlot0_eq (s : State) (v : s.Word) : s.withSlot0 v = s.withHart (s.hart.withSlot0 v) := rfl

@[simp] theorem Hart.x_withSlot0 (h : Hart w n t) (v : BitVec w) (r : Reg) : (h.withSlot0 v).x r = h.x r := by
  unfold Hart.x Hart.withSlot0
  by_cases h0 : r = 0
  · rw [if_pos h0, if_pos h0]
  · have hslot : 0 ≠ r.val := fun e => h0 (Fin.ext e.symm)
    rw [if_neg h0, if_neg h0, Vector.getElem?_setIfInBounds_ne hslot]

/-- A write of a register leaves the slot of x0, a write of x0 included. -/
@[simp] theorem Hart.setX_withSlot0 (h : Hart w n t) (v : BitVec w) (r : Reg) (a : BitVec w) :
    (h.withSlot0 v).setX r a = (h.setX r a).withSlot0 v := by
  by_cases h0 : r = 0
  · rw [h0, Hart.setX_zero, Hart.setX_zero]
  · have hslot : 0 ≠ r.val := fun e => h0 (Fin.ext e.symm)
    simp only [Hart.setX, if_neg h0, Hart.withSlot0, Vector.setIfInBound_comm _ _ hslot]

theorem applyEffect_withSlot0 (acc : Accessor) (h : Hart w n t) (v : BitVec w) (e : HookEffect) :
    applyEffect acc (h.withSlot0 v) e = (applyEffect acc h e).withSlot0 v := by
  cases e with
  | setReg r a => exact h.setX_withSlot0 v r _
  | setPc a => rfl
  | store addr size a =>
    cases hs : accessorGrants acc .store (addr.setWidth w) size.bytes
    · rw [applyEffect_store_of_refused acc h a hs, applyEffect_store_of_refused acc _ a hs]
    · rw [applyEffect_store_of_served acc h a hs, applyEffect_store_of_served acc _ a hs]
      rfl

theorem applyEffects_withSlot0 (acc : Accessor) (h : Hart w n t) (v : BitVec w) (es : List HookEffect) :
    applyEffects acc (h.withSlot0 v) es = (applyEffects acc h es).withSlot0 v := by
  induction es generalizing h with
  | nil => rfl
  | cons e es ih => rw [applyEffects_cons, applyEffects_cons, applyEffect_withSlot0, ih]

end Slot

theorem State.x_withSlot0 (s : State) (v : s.Word) (r : Reg) :
    (s.withHart (s.hart.withSlot0 v)).x r = s.x r := s.hart.x_withSlot0 v r

theorem effAddr_withSlot0 (s : State) (v : s.Word) (rs1 : Reg) (imm : BitVec 12) :
    effAddr (s.withHart (s.hart.withSlot0 v)) rs1 imm = effAddr s rs1 imm :=
  congrArg (· + imm12 _ imm) (s.x_withSlot0 v rs1)

/-! ## The same outcome but for the slot -/

/-- Both outcomes are next states of the configuration of `s`, and the second is the first with `v` in the slot of
x0. -/
def State.SameButSlot0 (s : State) (v : s.Word) (o o' : StepOutcome) : Prop :=
  ∃ h : s.HartOf, o = .next (s.withHart h) ∧ o' = .next (s.withHart (h.withSlot0 v))

namespace State.SameButSlot0

variable {s : State} {v : s.Word}

theorem next (h : s.HartOf) :
    s.SameButSlot0 v (.next (s.withHart h)) (.next (s.withHart (h.withSlot0 v))) := ⟨h, rfl, rfl⟩

theorem continueAt {h h' : s.HartOf} (hh : h' = h.withSlot0 v) {p p' : s.Word} (hp : p' = p) :
    s.SameButSlot0 v (s.continueAt h p) ((s.withHart (s.hart.withSlot0 v)).continueAt h' p') := by
  subst hh hp
  exact next { h with pc := p' }

theorem retire {rd : Reg} {a a' : s.Word} (ha : a' = a) :
    s.SameButSlot0 v (s.retire rd a) ((s.withHart (s.hart.withSlot0 v)).retire rd a') :=
  continueAt (ha ▸ s.hart.setX_withSlot0 v rd a') rfl

theorem link {rd : Reg} {target target' : s.Word} (ht : target' = target) :
    s.SameButSlot0 v (s.link rd target) ((s.withHart (s.hart.withSlot0 v)).link rd target') :=
  continueAt (s.hart.setX_withSlot0 v rd (s.pc + 4)) ht

theorem branch {taken taken' : Bool} (ht : taken' = taken) {off : BitVec 12} :
    s.SameButSlot0 v (s.branch taken off) ((s.withHart (s.hart.withSlot0 v)).branch taken' off) :=
  continueAt rfl (ht ▸ rfl)

theorem endWith {h h' : s.HartOf} (hh : h' = h.withSlot0 v) (e : RunStatus s.bits s.cfg.customErrors) :
    s.SameButSlot0 v (.next (s.withHart { h with status := e })) (.next (s.withHart { h' with status := e })) := by
  subst hh
  exact next { h with status := e }

theorem fail (e : RunError s.bits s.cfg.customErrors) :
    s.SameButSlot0 v (s.fail e) ((s.withHart (s.hart.withSlot0 v)).fail e) := endWith rfl (.failed e)

theorem loadInto {i : Instr} {rd : Reg} {addr addr' : s.Word} (ha : addr' = addr) {n : Nat}
    {extend : BitVec (8 * n) → s.Word} :
    s.SameButSlot0 v (s.loadInto i rd addr n extend)
      ((s.withHart (s.hart.withSlot0 v)).loadInto i rd addr' n extend) := by
  subst ha
  let s' := s.withHart (s.hart.withSlot0 v)
  rcases s.loadInto_cases i rd addr' n extend with ⟨hm, h⟩ | ⟨hm, hs, h⟩ | ⟨hm, hs, h⟩
  · rw [h, State.loadInto_of_misaligned (s := s') hm]
    exact fail _
  · rw [h, State.loadInto_of_refused (s := s') hm hs]
    exact fail _
  · rw [h, State.loadInto_of_served (s := s') hm hs]
    exact retire rfl

theorem storeFrom {i : Instr} {rs2 : Reg} {addr addr' : s.Word} (ha : addr' = addr) {n : Nat} :
    s.SameButSlot0 v (s.storeFrom i rs2 addr n)
      ((s.withHart (s.hart.withSlot0 v)).storeFrom i rs2 addr' n) := by
  subst ha
  let s' := s.withHart (s.hart.withSlot0 v)
  rcases s.storeFrom_cases i rs2 addr' n with ⟨hm, h⟩ | ⟨hm, hs, h⟩ | ⟨hm, hs, h⟩
  · rw [h, State.storeFrom_of_misaligned (s := s') hm]
    exact fail _
  · rw [h, State.storeFrom_of_refused (s := s') hm hs]
    exact fail _
  · rw [h, State.storeFrom_of_served (s := s') hm hs, State.x_withSlot0]
    exact next _

/-- Every instruction reads registers through `State.x` alone, which does not see the slot. -/
theorem exec (i : Instr) : s.SameButSlot0 v (exec i s) (exec i (s.withHart (s.hart.withSlot0 v))) := by
  cases i
  case jal => exact link rfl
  case jalr => exact link (by rw [State.x_withSlot0])
  case beq | bne | blt | bge | bltu | bgeu => exact branch (by rw [State.x_withSlot0, State.x_withSlot0])
  case lb | lh | lw | lbu | lhu | lwu | ld => exact loadInto (by rw [effAddr_withSlot0])
  case sb | sh | sw | sd => exact storeFrom (by rw [effAddr_withSlot0])
  case fence => exact continueAt rfl rfl
  case ecall | ebreak => exact endWith rfl .stopped
  case lui | auipc => exact retire rfl
  all_goals exact retire (by simp only [State.x_withSlot0])

theorem hookPath (word : InsnWord) :
    s.SameButSlot0 v (s.hookPath word) ((s.withHart (s.hart.withSlot0 v)).hookPath word) := by
  unfold State.hookPath
  rw [← State.withSlot0_eq, State.hookAnswer_withSlot0]
  cases s.hookAnswer word with
  | decline => exact fail _
  | done effects out =>
    have he := applyEffects_withSlot0 s.cfg.accessor s.hart v effects
    cases out with
    | cont => exact continueAt he (he ▸ rfl)
    | brk => exact endWith he _
    | fault k => exact endWith he _
    | custom c => exact endWith he _

theorem step (hr : s.hart.status = .running) :
    s.SameButSlot0 v (step s) (step (s.withHart (s.hart.withSlot0 v))) := by
  let s' := s.withHart (s.hart.withSlot0 v)
  rcases s.prepare_cases with ⟨ha, hp⟩ | ⟨ha, hf, hp⟩ | ⟨word, d, ha, hf, hd, hp⟩ | ⟨word, ha, hf, hd, hp⟩
  · rw [step_of_error hr hp, step_of_error (s := s') hr (State.prepare_of_unaligned ha)]
    exact fail _
  · rw [step_of_error hr hp, step_of_error (s := s') hr (State.prepare_of_fetch_refused ha hf)]
    exact fail _
  · rw [step_of_ok hr hp, step_of_ok (s := s') hr (State.prepare_of_decoded ha hf hd)]
    exact exec d.insn
  · rw [step_of_error hr hp, step_of_error (s := s') hr (State.prepare_of_undecoded ha hf hd)]
    exact hookPath word

end State.SameButSlot0

/-- Settles O6: only a running run takes a step, and its outcome is the same but for the slot. -/
theorem slotOfX0NeverMatters : Obligations.SlotOfX0NeverMatters := by
  unfold Obligations.SlotOfX0NeverMatters
  intro s v h hstep
  obtain ⟨k, hk, hk'⟩ := State.SameButSlot0.step (v := v) (running_of_step_next hstep)
  rw [State.hart_eq_of_next (hstep.symm.trans hk)]
  exact hk'

end Sys2Proof.Machine
end

section
/-! What ADDI reads of a register that an instruction has just written (spec/10_state.md R21 to R23, R354). -/

namespace Sys2Proof.Machine

@[simp] theorem imm12_zero (w : Nat) : imm12 w 0 = 0#w :=
  (BitVec.signExtend_eq_setWidth_of_msb_false rfl).trans (BitVec.setWidth_zero ..)

/-- R103: an ADDI of 0 moves its source, so it shows what the source holds. -/
theorem completes_addi_zero {s : State} {rd rs1 : Reg} {result : s.Word → Prop} (hrd : rd.val < s.cfg.nreg.count)
    (h : result (s.x rs1)) : Completes (.addi rd rs1 0) s rd result := by
  have he : exec (.addi rd rs1 0) s = s.retire rd (s.x rs1 + imm12 _ 0) := rfl
  rw [imm12_zero, BitVec.add_zero] at he
  exact completes_of_retire he hrd h

/-- Settles O5: the frame of the first instruction says what each register holds, and ADDI moves it. -/
theorem writtenValueIsReadNext : Obligations.WrittenValueIsReadNext := by
  unfold Obligations.WrittenValueIsReadNext
  rintro i s rd rd' result p hrd' ⟨h, he, hresult, keeps, -⟩
  refine ⟨h, he, completes_addi_zero hrd' ?_, fun q hq => completes_addi_zero hrd' (keeps.registers q hq)⟩
  split
  case isTrue h0 => exact h0 ▸ keeps.zero
  case isFalse h0 => exact hresult h0

end Sys2Proof.Machine
end

section
/-! A word that decodes is a word of a well-formed instruction, and the instruction's own encoding decodes to it again
(spec/30_encoding.md R75, R77, R85). -/

namespace Sys2Proof

/-! ## What a matching row makes of a word -/

@[simp] theorem Op.op_instr (op : Op) (w : InsnWord) : (op.instr w).op = op := by
  cases op <;> rfl

/-- R66: the register operands of an instruction are the fields its row's format has. -/
theorem Op.registers_instr {op : Op} {x : Xlen} {r : Row} (h : op.row x = some r) (w : InsnWord) :
    (op.instr w).registers = r.format.operands w := by
  cases op <;> cases x <;> cases h <;> rfl

/-- R79: an instruction with a row at a width exists at it. -/
theorem Op.widthOk_instr {op : Op} {x : Xlen} {r : Row} (h : op.row x = some r) (w : InsnWord) :
    (op.instr w).widthOk x = true := by
  cases x with
  | rv64 => rfl
  | rv32 => cases op <;> cases h <;> rfl

/-- R67: where a row fixes inst[25] to 0, a shift amount is below 32. -/
theorem InsnWord.shamt6_lt {w pattern : InsnWord} (h : w &&& 0xFE00707F = pattern) (hp : pattern.getLsbD 25 = false) :
    w.shamt6.toNat < 32 := by
  have hbit : w.getLsbD 25 = false := by simpa [← h] using hp
  refine BitVec.toNat_lt_of_msb_false (x := w.shamt6) ?_
  simpa [BitVec.msb_eq_getLsbD_last, InsnWord.shamt6] using hbit

/-- R67, R92: the shift amount of a word that matches its row fits the width. -/
theorem Op.shamtOk_instr {op : Op} {x : Xlen} {n : Nreg} {r : Row} {w : InsnWord} (h : op.row x = some r)
    (hw : r.matches n w = true) : (op.instr w).shamtOk x = true := by
  cases x with
  | rv64 => rfl
  | rv32 =>
    obtain ⟨hmask, -⟩ := (Row.matches_iff n r w).1 hw
    cases op
    case slli | srli | srai | bseti | bclri | binvi | bexti =>
      cases h
      exact decide_eq_true (InsnWord.shamt6_lt hmask rfl)
    all_goals rfl

/-- A row that matches a word makes a well-formed instruction of it. -/
theorem Op.wf_instr {op : Op} {x : Xlen} {n : Nreg} {r : Row} {w : InsnWord} (h : op.row x = some r)
    (hw : r.matches n w = true) : (op.instr w).wf x n = true := by
  have hregisters : (op.instr w).registersOk n = true := by
    rw [Instr.registersOk, Op.registers_instr h]
    exact ((Row.matches_iff n r w).1 hw).2
  simp only [Instr.wf, hregisters, Op.widthOk_instr h, Op.shamtOk_instr h hw, Bool.and_self]

end Sys2Proof

namespace Sys2Proof.Laws

/-- The encoder and the opcode table agree about every instruction. -/
theorem encodesToRow : (i : Instr) → EncodesToRow.Statement i
  | .lui .. => EncodesToRow.lui _ _ | .auipc .. => EncodesToRow.auipc _ _ | .addi .. => EncodesToRow.addi _ _ _
  | .slti .. => EncodesToRow.slti _ _ _ | .sltiu .. => EncodesToRow.sltiu _ _ _
  | .xori .. => EncodesToRow.xori _ _ _ | .ori .. => EncodesToRow.ori _ _ _ | .andi .. => EncodesToRow.andi _ _ _
  | .slli .. => EncodesToRow.slli _ _ _ | .srli .. => EncodesToRow.srli _ _ _ | .srai .. => EncodesToRow.srai _ _ _
  | .add .. => EncodesToRow.add _ _ _ | .sub .. => EncodesToRow.sub _ _ _ | .sll .. => EncodesToRow.sll _ _ _
  | .slt .. => EncodesToRow.slt _ _ _ | .sltu .. => EncodesToRow.sltu _ _ _ | .xor .. => EncodesToRow.xor _ _ _
  | .srl .. => EncodesToRow.srl _ _ _ | .sra .. => EncodesToRow.sra _ _ _ | .or .. => EncodesToRow.or _ _ _
  | .and .. => EncodesToRow.and _ _ _ | .addiw .. => EncodesToRow.addiw _ _ _
  | .slliw .. => EncodesToRow.slliw _ _ _ | .srliw .. => EncodesToRow.srliw _ _ _
  | .sraiw .. => EncodesToRow.sraiw _ _ _ | .addw .. => EncodesToRow.addw _ _ _
  | .subw .. => EncodesToRow.subw _ _ _ | .sllw .. => EncodesToRow.sllw _ _ _ | .srlw .. => EncodesToRow.srlw _ _ _
  | .sraw .. => EncodesToRow.sraw _ _ _ | .jal .. => EncodesToRow.jal _ _ | .jalr .. => EncodesToRow.jalr _ _ _
  | .beq .. => EncodesToRow.beq _ _ _ | .bne .. => EncodesToRow.bne _ _ _ | .blt .. => EncodesToRow.blt _ _ _
  | .bge .. => EncodesToRow.bge _ _ _ | .bltu .. => EncodesToRow.bltu _ _ _ | .bgeu .. => EncodesToRow.bgeu _ _ _
  | .lb .. => EncodesToRow.lb _ _ _ | .lh .. => EncodesToRow.lh _ _ _ | .lw .. => EncodesToRow.lw _ _ _
  | .lbu .. => EncodesToRow.lbu _ _ _ | .lhu .. => EncodesToRow.lhu _ _ _ | .lwu .. => EncodesToRow.lwu _ _ _
  | .ld .. => EncodesToRow.ld _ _ _ | .sb .. => EncodesToRow.sb _ _ _ | .sh .. => EncodesToRow.sh _ _ _
  | .sw .. => EncodesToRow.sw _ _ _ | .sd .. => EncodesToRow.sd _ _ _ | .fence .. => EncodesToRow.fence _ _ _ _ _
  | .ecall => EncodesToRow.ecall | .ebreak => EncodesToRow.ebreak | .mul .. => EncodesToRow.mul _ _ _
  | .mulh .. => EncodesToRow.mulh _ _ _ | .mulhsu .. => EncodesToRow.mulhsu _ _ _
  | .mulhu .. => EncodesToRow.mulhu _ _ _ | .mulw .. => EncodesToRow.mulw _ _ _ | .div .. => EncodesToRow.div _ _ _
  | .divu .. => EncodesToRow.divu _ _ _ | .rem .. => EncodesToRow.rem _ _ _ | .remu .. => EncodesToRow.remu _ _ _
  | .divw .. => EncodesToRow.divw _ _ _ | .divuw .. => EncodesToRow.divuw _ _ _
  | .remw .. => EncodesToRow.remw _ _ _ | .remuw .. => EncodesToRow.remuw _ _ _
  | .sh1add .. => EncodesToRow.sh1add _ _ _ | .sh2add .. => EncodesToRow.sh2add _ _ _
  | .sh3add .. => EncodesToRow.sh3add _ _ _ | .addUw .. => EncodesToRow.addUw _ _ _
  | .sh1addUw .. => EncodesToRow.sh1addUw _ _ _ | .sh2addUw .. => EncodesToRow.sh2addUw _ _ _
  | .sh3addUw .. => EncodesToRow.sh3addUw _ _ _ | .slliUw .. => EncodesToRow.slliUw _ _ _
  | .bset .. => EncodesToRow.bset _ _ _ | .bclr .. => EncodesToRow.bclr _ _ _ | .binv .. => EncodesToRow.binv _ _ _
  | .bext .. => EncodesToRow.bext _ _ _ | .bseti .. => EncodesToRow.bseti _ _ _
  | .bclri .. => EncodesToRow.bclri _ _ _ | .binvi .. => EncodesToRow.binvi _ _ _
  | .bexti .. => EncodesToRow.bexti _ _ _ | .clmul .. => EncodesToRow.clmul _ _ _
  | .clmulr .. => EncodesToRow.clmulr _ _ _ | .clmulh .. => EncodesToRow.clmulh _ _ _

end Sys2Proof.Laws

namespace Sys2Proof

/-- R75, R77: an instruction that decoding gives is well-formed, and a variant of the composite has its mnemonic. -/
theorem wf_of_decodeWord {c : Config} {w : InsnWord} {d : Decoded} (h : decodeWord c w = some d) :
    d.insn.wf c.xlen c.nreg = true ∧ ∃ v ∈ c.composite, v.op = d.insn.op := by
  obtain ⟨v, hv, hits, rfl⟩ := decodeFirst_some h
  obtain ⟨r, hrow, hmatch⟩ := Variant.hits_iff.1 hits
  exact ⟨Op.wf_instr hrow hmatch, v, hv, (Op.op_instr v.op w).symm⟩

/-- A variant with the mnemonic of a well-formed instruction matches the instruction's encoding. -/
theorem Variant.hits_encode {x : Xlen} {n : Nreg} {i : Instr} {v : Variant} (hi : i.wf x n = true)
    (hv : v.op = i.op) : v.hits x n (encode i) = true := by
  obtain ⟨r, hrow, hmatch, -⟩ := Laws.encodesToRow i x n hi
  exact Variant.hits_iff.2 ⟨r, hv ▸ hrow, hmatch⟩

/-- A variant that matches the encoding of a well-formed instruction reads the instruction from it. -/
theorem Variant.instr_encode {x : Xlen} {n : Nreg} {i : Instr} {v : Variant} (hi : i.wf x n = true)
    (hv : v.hits x n (encode i) = true) : v.op.instr (encode i) = i := by
  obtain ⟨r, hrow, hmatch, hinstr⟩ := Laws.encodesToRow i x n hi
  obtain ⟨r', hrow', hmatch'⟩ := Variant.hits_iff.1 hv
  rw [Op.eq_of_matches hrow' hrow hmatch' hmatch, hinstr]

/-- R85: the encoding of an instruction that decoding gave decodes to that instruction. -/
theorem decodeWord_encode_of_decodeWord {c : Config} {w : InsnWord} {d : Decoded} (h : decodeWord c w = some d) :
    (decodeWord c (encode d.insn)).map (·.insn) = some d.insn := by
  obtain ⟨hwf, v, hv, hop⟩ := wf_of_decodeWord h
  cases hd : decodeWord c (encode d.insn) with
  | none => cases (decodeFirst_none_iff.1 hd v hv).symm.trans (Variant.hits_encode hwf hop)
  | some d' =>
    obtain ⟨u, -, hits, rfl⟩ := decodeFirst_some hd
    exact congrArg some (Variant.instr_encode hwf hits)

end Sys2Proof
end

section
/-! The invariant of a state: memory canonical and inside the address space, and a truthful error where the run has
failed (spec/20_memory.md R40; 60_exceptions.md R301, R302, R309, R320, R321). Construction gives it and every step
keeps it. -/

namespace Sys2Proof.Machine

/-- A run that has not failed meets the invariant where its memory is valid. -/
theorem State.inv_of_not_failed {s : State} (hmem : s.hart.mem.valid s.bits)
    (hs : ∀ e, s.hart.status ≠ .failed e) : s.Inv :=
  ⟨hmem, fun e he => absurd he (hs e)⟩

/-! ## Construction -/

/-- R350, R351: the memory of an image is valid, and a constructed run is running. -/
theorem State.inv_of_construct {p : Parameters} {s : State} (h : State.construct p = .ok s) : s.Inv := by
  cases hc : buildComposite p.xlen p.nreg p.composite with
  | error e => simp only [State.construct, hc, reduceCtorEq] at h
  | ok variants =>
    cases (State.construct_of_ok hc).symm.trans h
    exact State.inv_of_not_failed (Memory.valid_ofImage ..) (by simp)

/-- Settles O60: the reset state is a constructed one. -/
theorem resetMeetsTheInvariant : Obligations.ResetMeetsTheInvariant := by
  unfold Obligations.ResetMeetsTheInvariant
  exact ⟨fun _ _ => State.inv_of_construct, State.inv_of_construct State.construct_reference⟩

/-! ## Outcomes that meet the invariant -/

/-- Every next state of the outcome meets the invariant. -/
def InvAfter (o : StepOutcome) : Prop := ∀ t, o = .next t → t.Inv

theorem invAfter_next {t : State} (h : t.Inv) : InvAfter (.next t) := by
  rintro _ ⟨⟩
  exact h

/-- A run that goes on, with valid memory and no error. -/
theorem invAfter_continueAt {s : State} {h : s.HartOf} (hmem : h.mem.valid s.bits)
    (hr : h.status = .running) (p : s.Word) : InvAfter (s.continueAt h p) :=
  invAfter_next (State.inv_of_not_failed hmem (by simp [hr]))

/-- A run that fails with a truthful error, its memory as it was. -/
theorem invAfter_fail {s : State} {e : RunError s.bits s.cfg.customErrors} (hmem : s.hart.mem.valid s.bits)
    (he : e.truthful s.cfg s.pc) : InvAfter (s.fail e) := by
  refine invAfter_next ⟨hmem, ?_⟩
  rintro _ ⟨⟩
  exact he

/-! ## One instruction -/

theorem State.misaligned_of_misalignedFault {s : State} {addr : s.Word} {n : Nat}
    (h : s.misalignedFault addr n = true) : s.cfg.misaligned = .fault ∧ addr.toNat % n ≠ 0 := by
  simpa [State.misalignedFault] using h

section Instruction

variable {s : State} {i : Instr} (hmem : s.hart.mem.valid s.bits) (hr : s.hart.status = .running)
  (hi : (decodeWord s.cfg (encode i)).map (·.insn) = some i)
include hmem hr

theorem invAfter_retire (rd : Reg) (v : s.Word) : InvAfter (s.retire rd v) :=
  invAfter_continueAt (by rwa [Hart.setX_mem]) (by rwa [Hart.setX_status]) _

theorem invAfter_link (rd : Reg) (target : s.Word) : InvAfter (s.link rd target) :=
  invAfter_continueAt (by rwa [Hart.setX_mem]) (by rwa [Hart.setX_status]) _

include hi

theorem invAfter_loadInto (rd : Reg) (addr : s.Word) (n : Nat) (extend : BitVec (8 * n) → s.Word) :
    InvAfter (s.loadInto i rd addr n extend) := by
  rcases s.loadInto_cases i rd addr n extend with ⟨hf, h⟩ | ⟨-, hs, h⟩ | ⟨-, -, h⟩ <;> rw [h]
  · exact invAfter_fail hmem ⟨rfl, hi, State.misaligned_of_misalignedFault hf⟩
  · exact invAfter_fail hmem ⟨rfl, hi, Bool.eq_false_iff.2 hs⟩
  · exact invAfter_retire hmem hr rd _

theorem invAfter_storeFrom (rs2 : Reg) (addr : s.Word) (n : Nat) : InvAfter (s.storeFrom i rs2 addr n) := by
  rcases s.storeFrom_cases i rs2 addr n with ⟨hf, h⟩ | ⟨-, hs, h⟩ | ⟨-, -, h⟩ <;> rw [h]
  · exact invAfter_fail hmem ⟨rfl, hi, State.misaligned_of_misalignedFault hf⟩
  · exact invAfter_fail hmem ⟨rfl, hi, Bool.eq_false_iff.2 hs⟩
  · exact invAfter_continueAt (h := { s.hart with mem := s.hart.mem.store addr n _ })
      (Memory.valid_store hmem ..) hr _

/-- An instruction whose encoding decodes to it keeps the invariant: its errors name that encoding. -/
theorem invAfter_exec : InvAfter (exec i s) := by
  cases exec_shape i s with
  | retires rd v _ h => exact h ▸ invAfter_retire hmem hr rd v
  | links rd target _ h => exact h ▸ invAfter_link hmem hr rd target
  | branches taken off h => exact h ▸ invAfter_continueAt hmem hr _
  | loads rd addr n extend _ h => exact h ▸ invAfter_loadInto hmem hr hi rd addr n extend
  | stores rs2 addr n h => exact h ▸ invAfter_storeFrom hmem hr hi rs2 addr n
  | fences h => exact h ▸ invAfter_continueAt hmem hr _
  | breaks _ h => exact h ▸ invAfter_next (State.inv_of_not_failed hmem (by simp))

end Instruction

/-! ## The hook and one step -/

/-- R310: a hook changes memory through stores alone, so it leaves it valid. -/
theorem valid_applyEffects {w n : Nat} {t : CustomErrorType} (acc : Accessor) {h : Hart w n t}
    (hmem : h.mem.valid w) (es : List HookEffect) : (applyEffects acc h es).mem.valid w := by
  induction es generalizing h with
  | nil => exact hmem
  | cons e es ih =>
    refine ih ?_
    cases e with
    | setReg r v => rwa [applyEffect_setReg, Hart.setX_mem]
    | setPc v => exact hmem
    | store addr size v =>
      cases hs : accessorGrants acc .store (addr.setWidth w) size.bytes
      · rwa [applyEffect_store_of_refused acc h v hs]
      · rw [applyEffect_store_of_served acc h v hs]
        exact Memory.valid_store hmem ..

/-- R308, R309, R312: the errors of the hook path carry a word that does not decode. -/
theorem invAfter_hookPath {s : State} {w : InsnWord} (hmem : s.hart.mem.valid s.bits)
    (hr : s.hart.status = .running) (hd : decodeWord s.cfg w = none) : InvAfter (s.hookPath w) := by
  unfold State.hookPath
  cases s.hookAnswer w with
  | decline => exact invAfter_fail hmem ⟨rfl, hd⟩
  | done effects out =>
    have hleft := valid_applyEffects s.cfg.accessor hmem effects
    cases out with
    | cont => exact invAfter_continueAt hleft ((applyEffects_status ..).trans hr) _
    | brk => exact invAfter_next (State.inv_of_not_failed hleft (by simp))
    | fault k => exact invAfter_next ⟨hleft, by rintro _ ⟨⟩; exact hd⟩
    | custom c => exact invAfter_next ⟨hleft, by rintro _ ⟨⟩; exact hd⟩

/-- Settles O59: whichever way a step of a running run takes, memory stays valid and an error it ends with is truthful;
the word an instruction's error names decodes to the instruction again. -/
theorem stepKeepsTheInvariant : Obligations.StepKeepsTheInvariant := by
  unfold Obligations.StepKeepsTheInvariant
  rintro s t ⟨hmem, -⟩ hstep
  have hr := running_of_step_next hstep
  refine (?_ : InvAfter (step s)) t hstep
  rcases s.prepare_cases with ⟨ha, hp⟩ | ⟨-, -, hp⟩ | ⟨w, d, -, -, hd, hp⟩ | ⟨w, -, -, hd, hp⟩
  · exact step_of_error hr hp ▸ invAfter_fail hmem ⟨rfl, ha⟩
  · exact step_of_error hr hp ▸ invAfter_fail hmem ⟨rfl, rfl⟩
  · exact step_of_ok hr hp ▸ invAfter_exec hmem hr (decodeWord_encode_of_decodeWord hd)
  · exact step_of_error hr hp ▸ invAfter_hookPath hmem hr hd

end Sys2Proof.Machine
end

section
/-! Memory as numbers and bytes: a read is its bytes, least significant first, and a write changes its bytes and no
other (spec/20_memory.md R41 to R45). -/

namespace Sys2Proof.Machine

/-! ## Addresses and bytes -/

/-- R44: the address `k` past another, modulo 2^w. -/
theorem toNat_add_ofNat {w : Nat} (addr : BitVec w) (k : Nat) :
    (addr + BitVec.ofNat w k).toNat = (addr.toNat + k) % 2 ^ w := by
  rw [BitVec.toNat_add, BitVec.toNat_ofNat, Nat.add_mod_mod]

theorem toNat_add_one {w : Nat} (addr : BitVec w) : (addr + 1).toNat = (addr.toNat + 1) % 2 ^ w :=
  toNat_add_ofNat addr 1

theorem add_zero_mod {w : Nat} (addr : BitVec w) : (addr.toNat + 0) % 2 ^ w = addr.toNat :=
  Nat.mod_eq_of_lt addr.isLt

/-- The address `j` past the next one is the one `j + 1` past. -/
theorem next_add_mod {w : Nat} (addr : BitVec w) (j : Nat) :
    ((addr + 1).toNat + j) % 2 ^ w = (addr.toNat + (j + 1)) % 2 ^ w := by
  rw [toNat_add_one, Nat.mod_add_mod, Nat.add_right_comm, Nat.add_assoc]

/-- A value above a byte, as a number. -/
theorem toNat_append_byte {m : Nat} (v : BitVec m) (b : Byte) : (v ++ b).toNat = b.toNat + 256 * v.toNat := by
  rw [BitVec.toNat_append, ← Nat.shiftLeft_add_eq_or_of_lt b.isLt, Nat.shiftLeft_eq, Nat.add_comm, Nat.mul_comm]

/-- Byte `j` of a value as a number. -/
theorem toNat_extractByte {m : Nat} (v : BitVec m) (j : Nat) :
    (v.extractLsb' (8 * j) 8).toNat = v.toNat / 256 ^ j % 256 := by
  rw [BitVec.extractLsb'_toNat, Nat.shiftRight_eq_div_pow, Nat.pow_mul]

/-- Byte `j` above the lowest is byte `j + 1`. -/
theorem extractByte_tail {n j : Nat} (v : BitVec (8 * (n + 1))) (hj : j < n) :
    (v.extractLsb' 8 (8 * n)).extractLsb' (8 * j) 8 = v.extractLsb' (8 * (j + 1)) 8 := by
  ext k hk
  have hin : 8 * j + k < 8 * n := by omega
  simp only [BitVec.getElem_extractLsb', BitVec.getLsbD_extractLsb', hin, decide_true, Bool.true_and]
  congr 1
  omega

/-! ## Reads -/

theorem bytesValue_mod (m : Memory) (w addr n : Nat) : bytesValue m w (addr % 2 ^ w) n = bytesValue m w addr n := by
  induction n generalizing addr with
  | zero => rfl
  | succ n ih =>
    have hnext : bytesValue m w (addr % 2 ^ w + 1) n = bytesValue m w (addr + 1) n := by
      rw [← ih (addr % 2 ^ w + 1), Nat.mod_add_mod, ih]
    rw [bytesValue, bytesValue, Nat.mod_mod, hnext]

/-- Settles O7, by induction on the number of bytes: a byte more is the lowest one, below the rest. -/
theorem readIsLittleEndian : Obligations.ReadIsLittleEndian := by
  unfold Obligations.ReadIsLittleEndian
  intro w n m addr
  induction n generalizing addr with
  | zero => rfl
  | succ n ih =>
    calc (m.load addr (n + 1)).toNat
        = (m.read addr.toNat).toNat + 256 * (m.load (addr + 1) n).toNat := toNat_append_byte ..
      _ = bytesValue m w addr.toNat (n + 1) := by
          rw [ih, toNat_add_one, bytesValue_mod, bytesValue, Nat.mod_eq_of_lt addr.isLt]

/-- Byte `j` of a read is the byte of memory `j` past its address. -/
theorem Memory.extractByte_load {w n j : Nat} (m : Memory) (addr : BitVec w) (hj : j < n) :
    (m.load addr n).extractLsb' (8 * j) 8 = m.read ((addr.toNat + j) % 2 ^ w) := by
  induction n generalizing addr j with
  | zero => cases hj
  | succ n ih =>
    cases j with
    | zero =>
      rw [add_zero_mod]
      exact extract_low (m.load (addr + 1) n) _
    | succ j =>
      rw [← next_add_mod, ← ih (addr + 1) (Nat.lt_of_succ_lt_succ hj)]
      have hstart : 8 * (j + 1) = 8 + 8 * j := by omega
      rw [hstart]
      exact extract_drop (m.load (addr + 1) n) (m.read addr.toNat) (8 * j) 8

/-! ## Writes -/

theorem not_inRange_next {w n a : Nat} {addr : BitVec w} (ha : ¬ inRange w addr.toNat (n + 1) a) :
    ¬ inRange w (addr + 1).toNat n a := by
  rintro ⟨j, hj, rfl⟩
  exact ha ⟨j + 1, Nat.succ_lt_succ hj, next_add_mod addr j⟩

theorem ne_of_not_inRange {w n a : Nat} {addr : BitVec w} (ha : ¬ inRange w addr.toNat (n + 1) a) :
    a ≠ addr.toNat := by
  rintro rfl
  exact ha ⟨0, Nat.succ_pos n, (Nat.mod_eq_of_lt addr.isLt).symm⟩

/-- R42: a write leaves every byte outside its range. -/
theorem Memory.read_store_of_not_inRange {w n a : Nat} {m : Memory} (hm : m.wf = true) {addr : BitVec w}
    (v : BitVec (8 * n)) (ha : ¬ inRange w addr.toNat n a) : (m.store addr n v).read a = m.read a := by
  induction n generalizing m addr with
  | zero => rfl
  | succ n ih =>
    rw [Memory.store, ih (Memory.wf_write hm _ _) _ (not_inRange_next ha), Memory.read_write hm,
      if_neg (ne_of_not_inRange ha)]

/-- An address is none of the fewer than 2^w ones that follow it. -/
theorem not_inRange_of_next {w n : Nat} {addr : BitVec w} (hn : n < 2 ^ w) :
    ¬ inRange w (addr + 1).toNat n addr.toNat := by
  rintro ⟨j, hj, h⟩
  have hmod : 0 ≡ j + 1 [MOD 2 ^ w] :=
    Nat.ModEq.add_left_cancel' addr.toNat (((add_zero_mod addr).trans h).trans (next_add_mod addr j))
  exact absurd (hmod.eq_of_lt_of_lt (Nat.two_pow_pos w) (Nat.lt_of_le_of_lt hj hn)) (by simp)

/-- R42: byte `j` of a write is byte `j` of the value, where the range does not come round to itself. -/
theorem Memory.read_store {w n j : Nat} {m : Memory} (hm : m.wf = true) (addr : BitVec w) (v : BitVec (8 * n))
    (hn : n ≤ 2 ^ w) (hj : j < n) :
    (m.store addr n v).read ((addr.toNat + j) % 2 ^ w) = v.extractLsb' (8 * j) 8 := by
  induction n generalizing m addr j with
  | zero => cases hj
  | succ n ih =>
    rw [Memory.store]
    cases j with
    | zero =>
      rw [add_zero_mod, Memory.read_store_of_not_inRange (Memory.wf_write hm _ _) _ (not_inRange_of_next hn),
        Memory.read_write hm, if_pos rfl]
      exact BitVec.setWidth_eq_extractLsb' (by omega)
    | succ j =>
      have hj' : j < n := Nat.lt_of_succ_lt_succ hj
      rw [← next_add_mod, ih (Memory.wf_write hm _ _) _ _ (Nat.le_of_succ_le hn) hj', extractByte_tail v hj']

theorem le_two_pow_of_le_eight {w n : Nat} (hn : n ≤ 8) (hw : 32 ≤ w) : n ≤ 2 ^ w :=
  calc n ≤ 2 ^ 3 := hn
    _ ≤ 2 ^ w := Nat.pow_le_pow_right (by decide) (by omega)

/-- Settles O8: eight bytes are fewer than there are addresses. -/
theorem writeChangesItsBytesOnly : Obligations.WriteChangesItsBytesOnly := by
  unfold Obligations.WriteChangesItsBytesOnly
  intro w n m addr v hm hn hw
  refine ⟨fun j hj => ?_, fun a ha => Memory.read_store_of_not_inRange hm v ha⟩
  rw [Memory.read_store hm addr v (le_two_pow_of_le_eight hn hw) hj, toNat_extractByte]

/-- A read of bytes that are those of a value from byte `k` on is that part of the value. -/
theorem Memory.load_eq_extract {w n k j : Nat} {m : Memory} {addr : BitVec w} {v : BitVec (8 * n)}
    (h : ∀ i, k ≤ i → i < k + j → m.read ((addr.toNat + i) % 2 ^ w) = v.extractLsb' (8 * i) 8) :
    m.load (addr + BitVec.ofNat w k) j = v.extractLsb' (8 * k) (8 * j) := by
  induction j generalizing k with
  | zero => exact Subsingleton.elim (α := BitVec 0) _ _
  | succ j ih =>
    have hnext : addr + BitVec.ofNat w k + 1 = addr + BitVec.ofNat w (k + 1) := by
      rw [BitVec.ofNat_add, BitVec.add_assoc]; rfl
    rw [Memory.load, hnext, ih fun i hk hi => h i (by omega) (by omega), toNat_add_ofNat, h k (by omega) (by omega)]
    exact BitVec.extractLsb'_append_extractLsb'_eq_extractLsb' (by omega)

/-- Settles O9: the narrow read's bytes are bytes of the write. -/
theorem narrowReadOfWideWrite : Obligations.NarrowReadOfWideWrite := by
  unfold Obligations.NarrowReadOfWideWrite
  intro w n k j m addr v hm hn hw hkj
  exact Memory.load_eq_extract fun i _ hi => Memory.read_store hm addr v (le_two_pow_of_le_eight hn hw) (by omega)

end Sys2Proof.Machine
end

section
/-! What a data access does to memory and to the run: a refused or misaligned one fails it, a load leaves memory, and a
store that is made is what the next fetch sees (spec/20_memory.md R40 to R47, R56; 42_load_store.md R170, R178 to R182;
60_exceptions.md R320 to R324). -/

namespace Sys2Proof.Machine

/-! ## Accesses that fail the run -/

section Failing

variable {i : Instr} {s : State} {addr : s.Word} {n : Nat}

theorem raises_of_load_refused {rd : Reg} {extend : BitVec (8 * n) → s.Word}
    (he : exec i s = s.loadInto i rd addr n extend) (h : s.alignmentAllows addr n ∧ ¬ s.served .load addr n) :
    Raises i s (.memoryAccess addr n .load) :=
  he.trans (State.loadInto_of_refused (State.misalignedFault_eq_false h.1) h.2 ..)

theorem raises_of_store_refused {rs2 : Reg} (he : exec i s = s.storeFrom i rs2 addr n)
    (h : s.alignmentAllows addr n ∧ ¬ s.served .store addr n) : Raises i s (.memoryAccess addr n .store) :=
  he.trans (State.storeFrom_of_refused (State.misalignedFault_eq_false h.1) h.2 ..)

/-- R47: with the `Fault` policy a misaligned access is refused. -/
theorem State.misalignedFault_of_fault (hf : s.cfg.misaligned = .fault) (ha : addr.toNat % n ≠ 0) :
    s.misalignedFault addr n = true := by
  simp [State.misalignedFault, hf, ha]

theorem raises_of_load_misaligned {rd : Reg} {extend : BitVec (8 * n) → s.Word}
    (he : exec i s = s.loadInto i rd addr n extend) (hf : s.cfg.misaligned = .fault) (ha : addr.toNat % n ≠ 0) :
    Raises i s (.misalignedAccess addr n .load) :=
  he.trans (State.loadInto_of_misaligned (State.misalignedFault_of_fault hf ha) ..)

theorem raises_of_store_misaligned {rs2 : Reg} (he : exec i s = s.storeFrom i rs2 addr n)
    (hf : s.cfg.misaligned = .fault) (ha : addr.toNat % n ≠ 0) : Raises i s (.misalignedAccess addr n .store) :=
  he.trans (State.storeFrom_of_misaligned (State.misalignedFault_of_fault hf ha) ..)

end Failing

/-- Settles O36: each load and store is one access at the effective address. -/
theorem refusedAccessesRaise : Obligations.RefusedAccessesRaise := by
  unfold Obligations.RefusedAccessesRaise
  intro s r rs1 imm addr refused
  exact ⟨
    fun h => ⟨raises_of_load_refused rfl h, raises_of_load_refused rfl h⟩,
    fun h => ⟨raises_of_load_refused rfl h, raises_of_load_refused rfl h⟩,
    raises_of_load_refused rfl, fun _ => raises_of_load_refused rfl, fun _ => raises_of_load_refused rfl,
    raises_of_store_refused rfl, raises_of_store_refused rfl, raises_of_store_refused rfl,
    fun _ => raises_of_store_refused rfl⟩

/-- Settles O37: the policy answers before the accessor is asked, and every address is a multiple of 1. -/
theorem misalignedAccessesRaise : Obligations.MisalignedAccessesRaise := by
  unfold Obligations.MisalignedAccessesRaise
  intro s r rs1 imm hf addr
  exact ⟨
    fun ha => ⟨raises_of_load_misaligned rfl hf ha, raises_of_load_misaligned rfl hf ha,
      raises_of_store_misaligned rfl hf ha⟩,
    fun ha => ⟨raises_of_load_misaligned rfl hf ha, raises_of_store_misaligned rfl hf ha⟩,
    fun _ ha => raises_of_load_misaligned rfl hf ha,
    fun _ ha => ⟨raises_of_load_misaligned rfl hf ha, raises_of_store_misaligned rfl hf ha⟩,
    .inr (Nat.mod_one _)⟩

/-! ## Stores -/

/-- The stores of a register at one address form, with the number of bytes each writes (R178 to R181). -/
abbrev storeForms (rs1 rs2 : Reg) (imm : BitVec 12) : List (Instr × Nat) :=
  [(.sb rs1 rs2 imm, 1), (.sh rs1 rs2 imm, 2), (.sw rs1 rs2 imm, 4), (.sd rs1 rs2 imm, 8)]

theorem exec_of_mem_storeForms {i : Instr} {n : Nat} {rs1 rs2 : Reg} {imm : BitVec 12}
    (h : (i, n) ∈ storeForms rs1 rs2 imm) (s : State) :
    n ≤ 8 ∧ exec i s = s.storeFrom i rs2 (effAddr s rs1 imm) n := by
  simp only [storeForms, List.mem_cons, Prod.mk.injEq, List.not_mem_nil, or_false] at h
  rcases h with ⟨rfl, rfl⟩ | ⟨rfl, rfl⟩ | ⟨rfl, rfl⟩ | ⟨rfl, rfl⟩ <;> exact ⟨by decide, rfl⟩

/-- The outcome is a next state with memory as it was. -/
def State.KeepsMemory (s : State) (o : StepOutcome) : Prop :=
  ∃ h : s.HartOf, o = .next (s.withHart h) ∧ h.mem = s.hart.mem

theorem State.keepsMemory_retire (s : State) (rd : Reg) (v : s.Word) : s.KeepsMemory (s.retire rd v) :=
  ⟨_, s.retire_eq rd v, Hart.setX_mem ..⟩

theorem State.keepsMemory_loadInto (s : State) (i : Instr) (rd : Reg) (addr : s.Word) (n : Nat)
    (extend : BitVec (8 * n) → s.Word) : s.KeepsMemory (s.loadInto i rd addr n extend) := by
  rcases s.loadInto_cases i rd addr n extend with ⟨-, h⟩ | ⟨-, -, h⟩ | ⟨-, -, h⟩
  · exact ⟨_, h, rfl⟩
  · exact ⟨_, h, rfl⟩
  · exact h ▸ s.keepsMemory_retire rd _

/-- R40: an instruction is a store or keeps memory. -/
theorem exec_keepsMemory_or_stores (i : Instr) (s : State) :
    s.KeepsMemory (exec i s) ∨ ∃ rs1 rs2 imm n, (i, n) ∈ storeForms rs1 rs2 imm := by
  cases i
  case sb rs1 rs2 imm => exact .inr ⟨rs1, rs2, imm, 1, by simp⟩
  case sh rs1 rs2 imm => exact .inr ⟨rs1, rs2, imm, 2, by simp⟩
  case sw rs1 rs2 imm => exact .inr ⟨rs1, rs2, imm, 4, by simp⟩
  case sd rs1 rs2 imm => exact .inr ⟨rs1, rs2, imm, 8, by simp⟩
  case lb | lh | lw | lbu | lhu | lwu | ld => exact .inl (s.keepsMemory_loadInto _ _ _ _ _)
  case jal | jalr => exact .inl ⟨_, rfl, Hart.setX_mem ..⟩
  case beq | bne | blt | bge | bltu | bgeu | fence | ecall | ebreak => exact .inl ⟨_, rfl, rfl⟩
  all_goals exact .inl (s.keepsMemory_retire _ _)

/-- A byte outside the range of a store is as it was, whether or not the store is made. -/
theorem read_of_storeFrom {i : Instr} {s : State} {h : s.HartOf} {rs2 : Reg} {addr : s.Word} {n a : Nat}
    (hm : s.hart.mem.wf = true) (he : s.storeFrom i rs2 addr n = .next (s.withHart h))
    (ha : ¬ inRange s.bits addr.toNat n a) : h.mem.read a = s.byteAt a := by
  rcases s.storeFrom_cases i rs2 addr n with ⟨-, hs⟩ | ⟨-, -, hs⟩ | ⟨-, -, hs⟩ <;>
    rw [← State.hart_eq_of_next (hs.symm.trans he)]
  · rfl
  · rfl
  · exact Memory.read_store_of_not_inRange hm _ ha

/-- Settles O58: a changed byte rules out the instructions that keep memory, and the bytes a store does not write. -/
theorem onlyStoresChangeMemory : Obligations.OnlyStoresChangeMemory := by
  unfold Obligations.OnlyStoresChangeMemory
  intro i s h a hm he hchanged
  rcases exec_keepsMemory_or_stores i s with ⟨k, hk, hkeep⟩ | ⟨rs1, rs2, imm, n, hi⟩
  · rw [← State.hart_eq_of_next (hk.symm.trans he), hkeep] at hchanged
    exact absurd rfl hchanged
  · obtain ⟨-, hexec⟩ := exec_of_mem_storeForms hi s
    exact ⟨rs1, rs2, imm, n, hi, not_not.1 fun ha => hchanged (read_of_storeFrom hm (hexec.symm.trans he) ha)⟩

/-! ## A fetch after a store -/

theorem State.thirtyTwo_le_bits (s : State) : 32 ≤ s.bits := by
  unfold State.bits
  cases s.cfg.xlen <;> decide

/-- A fetch the accessor serves gives the four bytes at the pc. -/
theorem State.fetch_of_served {s : State} (h : s.served .fetch s.pc 4) : s.fetch = some (s.hart.mem.load s.pc 4) :=
  if_pos h

/-- R178 to R181: a stored byte is that byte of the register. -/
theorem toNat_read_store_reg {s : State} (hm : s.hart.mem.wf = true) (addr : s.Word) (r : Reg) {n k : Nat}
    (hn : n ≤ 8) (hk : k < n) :
    ((s.hart.mem.store addr n ((s.x r).setWidth (8 * n))).read ((addr.toNat + k) % 2 ^ s.bits)).toNat =
      s.xNat r / 256 ^ k % 256 := by
  have hin : 8 * k + 8 ≤ 8 * n := by omega
  rw [Memory.read_store hm addr _ (le_two_pow_of_le_eight hn s.thirtyTwo_le_bits) hk,
    BitVec.extractLsb'_setWidth_of_le hin, toNat_extractByte, State.xNat]

/-- Settles O10: each byte of the fetched word is the byte of memory the store left at its address. -/
theorem nextFetchSeesTheStore : Obligations.NextFetchSeesTheStore := by
  unfold Obligations.NextFetchSeesTheStore
  intro i s rs1 rs2 imm n hm hi _ addr halign hserved
  obtain ⟨hn, hexec⟩ := exec_of_mem_storeForms hi s
  refine ⟨_, hexec.trans (State.storeFrom_of_served (State.misalignedFault_eq_false halign) hserved i rs2), rfl,
    fun p hp => ⟨_, State.fetch_of_served hp, fun j hj => ?_⟩⟩
  intro a byte
  have hbyte : byte = ((s.hart.mem.store addr n ((s.x rs2).setWidth (8 * n))).read a).toNat :=
    (toNat_extractByte _ j).symm.trans (congrArg BitVec.toNat (Memory.extractByte_load _ p hj))
  rw [hbyte]
  refine ⟨fun k hk ha => ?_, fun ha => ?_⟩
  · rw [ha, toNat_read_store_reg hm addr rs2 hn hk]
  · rw [Memory.read_store_of_not_inRange hm _ ha, State.byteAt]

end Sys2Proof.Machine
end

section
/-! Decoding and encoding are inverse to each other (spec/30_encoding.md R66, R75, R77, R79, R85): a well-formed
instruction's word decodes to the instruction alone, and a word that matches a row is put together from the bits the
row fixes and the operands read from it. -/

namespace Sys2Proof

/-! ## The word of an instruction decodes to it -/

/-- Of all variants, those that match the word of a well-formed instruction are those with its mnemonic. -/
theorem Variant.hits_encode_iff {x : Xlen} {n : Nreg} {i : Instr} (hi : i.wf x n = true) (v : Variant) :
    v.hits x n (encode i) = true ↔ v.op = i.op :=
  ⟨fun hv => Variant.op_eq_of_hits hv (Variant.hits_encode (v := ⟨.I, i.op⟩) hi rfl), Variant.hits_encode hi⟩

/-- Settles O12: the first variant that matches is the first with the mnemonic, and reads the instruction back. -/
theorem decodeOfEncode : Obligations.DecodeOfEncode := by
  unfold Obligations.DecodeOfEncode
  intro c i hi
  have hsame : (fun v : Variant => v.hits c.xlen c.nreg (encode i)) = fun v => decide (v.op = i.op) :=
    funext fun v => Bool.eq_iff_iff.2 ((Variant.hits_encode_iff hi v).trans decide_eq_true_iff.symm)
  rw [decodeWord, decodeFirst, hsame]
  refine Option.map_congr fun v hv => ?_
  have hop : v.op = i.op := by simpa using List.find?_some hv
  rw [Variant.instr_encode hi (Variant.hits_encode hi hop)]

/-! ## A word put together from its fields -/

/-- Two neighbouring fields are one. -/
theorem extract_join {n : Nat} (x : BitVec n) (start a b : Nat) :
    x.extractLsb' (start + b) a ++ x.extractLsb' start b = x.extractLsb' start (a + b) :=
  BitVec.extractLsb'_append_extractLsb'_eq_extractLsb' rfl

theorem join_fields3 {a b c : Nat} (x : BitVec (a + b + c)) :
    x.extractLsb' (c + b) a ++ x.extractLsb' c b ++ x.extractLsb' 0 c = x := by
  rw [extract_join, BitVec.extractLsb'_append_extractLsb']

theorem join_fields5 {a b c d e : Nat} (x : BitVec (a + b + c + d + e)) :
    x.extractLsb' (e + d + c + b) a ++ x.extractLsb' (e + d + c) b ++ x.extractLsb' (e + d) c ++ x.extractLsb' e d
      ++ x.extractLsb' 0 e = x := by
  rw [extract_join, extract_join, join_fields3]

theorem join_fields6 {a b c d e f : Nat} (x : BitVec (a + b + c + d + e + f)) :
    x.extractLsb' (f + e + d + c + b) a ++ x.extractLsb' (f + e + d + c) b ++ x.extractLsb' (f + e + d) c
      ++ x.extractLsb' (f + e) d ++ x.extractLsb' f e ++ x.extractLsb' 0 f = x := by
  rw [extract_join, join_fields5]

theorem join_fields7 {a b c d e f g : Nat} (x : BitVec (a + b + c + d + e + f + g)) :
    x.extractLsb' (g + f + e + d + c + b) a ++ x.extractLsb' (g + f + e + d + c) b ++ x.extractLsb' (g + f + e + d) c
      ++ x.extractLsb' (g + f + e) d ++ x.extractLsb' (g + f) e ++ x.extractLsb' g f ++ x.extractLsb' 0 g = x := by
  rw [extract_join, join_fields6]

variable (w : InsnWord)
theorem encR_fields :
    encR (w.extractLsb' 25 7) w.rs2 w.rs1 (w.extractLsb' 12 3) w.rd (w.extractLsb' 0 7) = w :=
  join_fields6 (a := 7) (b := 5) (c := 5) (d := 3) (e := 5) (f := 7) w

theorem encI_fields : encI w.iImm w.rs1 (w.extractLsb' 12 3) w.rd (w.extractLsb' 0 7) = w :=
  join_fields5 (a := 12) (b := 5) (c := 3) (d := 5) (e := 7) w

theorem encShift6_fields :
    encShift6 (w.extractLsb' 26 6) w.shamt6 w.rs1 (w.extractLsb' 12 3) w.rd (w.extractLsb' 0 7) = w :=
  join_fields6 (a := 6) (b := 6) (c := 5) (d := 3) (e := 5) (f := 7) w

theorem encShift5_fields :
    encShift5 (w.extractLsb' 25 7) w.shamt5 w.rs1 (w.extractLsb' 12 3) w.rd (w.extractLsb' 0 7) = w :=
  join_fields6 (a := 7) (b := 5) (c := 5) (d := 3) (e := 5) (f := 7) w

theorem encS_fields : encS w.sImm w.rs2 w.rs1 (w.extractLsb' 12 3) (w.extractLsb' 0 7) = w := by
  have hi : w.sImm.extractLsb' 5 7 = w.extractLsb' 25 7 := extract_top ..
  have lo : w.sImm.extractLsb' 0 5 = w.extractLsb' 7 5 := extract_low ..
  rw [encS, hi, lo]
  exact encR_fields w

/-- The parts of a B-immediate, in the order of the S-immediate's bits. -/
theorem InsnWord.bOff_parts : w.bOff.extractLsb' 11 1 ++ w.bOff.extractLsb' 4 6
      ++ (w.bOff.extractLsb' 0 4 ++ w.bOff.extractLsb' 10 1) = w.sImm := by
  have h11 : w.bOff.extractLsb' 11 1 = w.extractLsb' 31 1 :=
    (extract_drop _ _ 7 1).trans ((extract_drop _ _ 1 1).trans (extract_top ..))
  have h10 : w.bOff.extractLsb' 10 1 = w.extractLsb' 7 1 :=
    (extract_drop _ _ 6 1).trans (extract_mid _ _ _)
  have h4 : w.bOff.extractLsb' 4 6 = w.extractLsb' 25 6 := extract_mid _ _ _
  have h0 : w.bOff.extractLsb' 0 4 = w.extractLsb' 8 4 := extract_low ..
  rw [h11, h10, h4, h0]
  exact congrArg₂ (· ++ ·) (extract_join w 25 1 6) (extract_join w 7 4 1)

theorem encB_fields : encB w.bOff w.rs2 w.rs1 (w.extractLsb' 12 3) (w.extractLsb' 0 7) = w := by
  rw [encB_eq_encS, InsnWord.bOff_parts, encS_fields]

theorem encU_fields : encU w.uImm w.rd (w.extractLsb' 0 7) = w :=
  join_fields3 (a := 20) (b := 5) (c := 7) w

theorem encJ_fields : encJ w.jOff w.rd (w.extractLsb' 0 7) = w := by
  have h19 : w.jOff.extractLsb' 19 1 = w.extractLsb' 31 1 :=
    (extract_drop _ _ 9 1).trans ((extract_drop _ _ 8 1).trans (extract_top ..))
  have h11 : w.jOff.extractLsb' 11 8 = w.extractLsb' 12 8 :=
    (extract_drop _ _ 1 8).trans (extract_mid _ _ _)
  have h10 : w.jOff.extractLsb' 10 1 = w.extractLsb' 20 1 := extract_mid _ _ _
  have h0 : w.jOff.extractLsb' 0 10 = w.extractLsb' 21 10 := extract_low ..
  rw [encJ, h19, h11, h10, h0]
  exact join_fields6 (a := 1) (b := 10) (c := 1) (d := 8) (e := 5) (f := 7) w

/-! ## The word of what a row makes of a word -/

/-- A field that a mask holds whole is the pattern's. -/
theorem InsnWord.field_of_mask {w m p : InsnWord} (h : w &&& m = p) {start len : Nat}
    (hm : m.extractLsb' start len = .allOnes len) : w.extractLsb' start len = p.extractLsb' start len := by
  rw [← h, BitVec.extractLsb'_and, hm, BitVec.and_allOnes]

theorem Row.only64_eq_some {x : Xlen} {r r' : Row} : Row.only64 x r = some r' ↔ x = .rv64 ∧ r = r' := by
  cases x <;> simp [Row.only64]

section Word

variable {w p : InsnWord}

theorem encR_of_mask (h : w &&& 0xFE00707F = p) :
    encR (p.extractLsb' 25 7) w.rs2 w.rs1 (p.extractLsb' 12 3) w.rd (p.extractLsb' 0 7) = w := by
  rw [← InsnWord.field_of_mask h rfl, ← InsnWord.field_of_mask h rfl, ← InsnWord.field_of_mask h rfl, encR_fields]

theorem encI_of_mask (h : w &&& 0x0000707F = p) :
    encI w.iImm w.rs1 (p.extractLsb' 12 3) w.rd (p.extractLsb' 0 7) = w := by
  rw [← InsnWord.field_of_mask h rfl, ← InsnWord.field_of_mask h rfl, encI_fields]

theorem encShift6_of_mask (h : w &&& 0xFC00707F = p) :
    encShift6 (p.extractLsb' 26 6) w.shamt6 w.rs1 (p.extractLsb' 12 3) w.rd (p.extractLsb' 0 7) = w := by
  rw [← InsnWord.field_of_mask h rfl, ← InsnWord.field_of_mask h rfl, ← InsnWord.field_of_mask h rfl,
    encShift6_fields]

theorem encShift6_of_shiftImm {x : Xlen} (h : w &&& (Row.shiftImm x p).mask = p) :
    encShift6 (p.extractLsb' 26 6) w.shamt6 w.rs1 (p.extractLsb' 12 3) w.rd (p.extractLsb' 0 7) = w := by
  cases x
  · have h32 : w &&& 0xFE00707F = p := h
    rw [← InsnWord.field_of_mask h32 rfl, ← InsnWord.field_of_mask h32 rfl, ← InsnWord.field_of_mask h32 rfl,
      encShift6_fields]
  · exact encShift6_of_mask h

theorem encShift5_of_mask (h : w &&& 0xFE00707F = p) :
    encShift5 (p.extractLsb' 25 7) w.shamt5 w.rs1 (p.extractLsb' 12 3) w.rd (p.extractLsb' 0 7) = w := by
  rw [← InsnWord.field_of_mask h rfl, ← InsnWord.field_of_mask h rfl, ← InsnWord.field_of_mask h rfl,
    encShift5_fields]

theorem encS_of_mask (h : w &&& 0x0000707F = p) :
    encS w.sImm w.rs2 w.rs1 (p.extractLsb' 12 3) (p.extractLsb' 0 7) = w := by
  rw [← InsnWord.field_of_mask h rfl, ← InsnWord.field_of_mask h rfl, encS_fields]

theorem encB_of_mask (h : w &&& 0x0000707F = p) :
    encB w.bOff w.rs2 w.rs1 (p.extractLsb' 12 3) (p.extractLsb' 0 7) = w := by
  rw [← InsnWord.field_of_mask h rfl, ← InsnWord.field_of_mask h rfl, encB_fields]

theorem encU_of_mask (h : w &&& 0x0000007F = p) : encU w.uImm w.rd (p.extractLsb' 0 7) = w := by
  rw [← InsnWord.field_of_mask h rfl, encU_fields]

theorem encJ_of_mask (h : w &&& 0x0000007F = p) : encJ w.jOff w.rd (p.extractLsb' 0 7) = w := by
  rw [← InsnWord.field_of_mask h rfl, encJ_fields]

theorem encode_fence_of_mask (h : w &&& 0x0000707F = 0x0000000F) : encode (Op.instr w .fence) = w := by
  have hopc : w.extractLsb' 0 7 = 0b0001111#7 := InsnWord.field_of_mask h rfl
  have hf3 : w.extractLsb' 12 3 = 0b000#3 := InsnWord.field_of_mask h rfl
  rw [Op.instr, encode, ← hopc, ← hf3]
  exact join_fields7 (a := 4) (b := 4) (c := 4) (d := 5) (e := 3) (f := 5) (g := 7) w

end Word

/-- R64, R68 to R74, R77: a row's instruction of a word whose fixed bits are the row's has that word. -/
theorem Op.encode_instr {op : Op} {x : Xlen} {r : Row} {w : InsnWord} (h : op.row x = some r)
    (hw : w &&& r.mask = r.pattern) : encode (op.instr w) = w := by
  cases op
  case lui | auipc => cases h; exact (encU_of_mask hw :)
  case jal => cases h; exact (encJ_of_mask hw :)
  case beq | bne | blt | bge | bltu | bgeu => cases h; exact (encB_of_mask hw :)
  case sb | sh | sw => cases h; exact (encS_of_mask hw :)
  case sd =>
    obtain ⟨-, rfl⟩ := Row.only64_eq_some.1 h
    exact (encS_of_mask hw :)
  case fence => cases h; exact encode_fence_of_mask hw
  case ecall | ebreak => cases h; exact hw.symm.trans (BitVec.and_allOnes (x := w))
  case addi | slti | sltiu | xori | ori | andi | jalr | lb | lh | lw | lbu | lhu => cases h; exact (encI_of_mask hw :)
  case addiw | lwu | ld =>
    obtain ⟨-, rfl⟩ := Row.only64_eq_some.1 h
    exact (encI_of_mask hw :)
  case slli | srli | srai | bseti | bclri | binvi | bexti =>
    cases h
    exact (encShift6_of_shiftImm (hw.trans (by cases x <;> rfl)) :)
  case slliUw =>
    obtain ⟨-, rfl⟩ := Row.only64_eq_some.1 h
    exact (encShift6_of_mask hw :)
  case slliw | srliw | sraiw =>
    obtain ⟨-, rfl⟩ := Row.only64_eq_some.1 h
    exact (encShift5_of_mask hw :)
  case addw | subw | sllw | srlw | sraw | mulw | divw | divuw | remw | remuw | addUw | sh1addUw | sh2addUw
      | sh3addUw =>
    obtain ⟨-, rfl⟩ := Row.only64_eq_some.1 h
    exact (encR_of_mask hw :)
  all_goals
    cases h
    exact (encR_of_mask hw :)

/-- Settles O13: the variant that matched has a row, and its instruction of the word has the word. -/
theorem encodeOfDecode : Obligations.EncodeOfDecode := by
  unfold Obligations.EncodeOfDecode
  intro c w d h
  obtain ⟨hwf, -⟩ := wf_of_decodeWord h
  obtain ⟨v, hv, hits, rfl⟩ := decodeFirst_some h
  obtain ⟨r, hrow, hmatch⟩ := Variant.hits_iff.1 hits
  exact ⟨Op.encode_instr hrow ((Row.matches_iff ..).1 hmatch).1, hwf, by rwa [Op.op_instr]⟩

end Sys2Proof
end

section
/-! The order of the composite never matters (spec/30_encoding.md R86, R87): a word decodes to the one instruction its
matching mnemonic makes of it, and nothing else of a step looks at the composite. -/

namespace Sys2Proof

/-- What a word decodes to, its set apart, is what some variant of the list that matches makes of it. -/
theorem decodeFirst_insn_iff {x : Xlen} {n : Nreg} {vs : List Variant} {w : InsnWord} {i : Instr} :
    (decodeFirst x n vs w).map (·.insn) = some i ↔ ∃ v ∈ vs, v.hits x n w = true ∧ v.op.instr w = i := by
  constructor
  · intro h
    obtain ⟨d, hd, rfl⟩ := Option.map_eq_some_iff.1 h
    obtain ⟨v, hv, hits, rfl⟩ := decodeFirst_some hd
    exact ⟨v, hv, hits, rfl⟩
  · rintro ⟨v, hv, hits, rfl⟩
    cases hd : decodeFirst x n vs w with
    | none => cases (decodeFirst_none_iff.1 hd v hv).symm.trans hits
    | some d =>
      obtain ⟨u, -, hu, rfl⟩ := decodeFirst_some hd
      rw [Option.map_some, Variant.op_eq_of_hits hu hits]

/-- A variant's set says nothing of the words it matches. -/
theorem Variant.hits_congr {u v : Variant} (h : u.op = v.op) (x : Xlen) (n : Nreg) (w : InsnWord) :
    u.hits x n w = v.hits x n w := by
  unfold Variant.hits
  rw [h]

/-- R87: lists with the same mnemonics decode a word to the same instruction. -/
theorem decodeFirst_insn_congr {us vs : List Variant} (h : ∀ op, (∃ u ∈ us, u.op = op) ↔ ∃ v ∈ vs, v.op = op)
    (x : Xlen) (n : Nreg) (w : InsnWord) :
    (decodeFirst x n vs w).map (·.insn) = (decodeFirst x n us w).map (·.insn) := by
  refine Option.ext fun i => ?_
  rw [decodeFirst_insn_iff, decodeFirst_insn_iff]
  have transfer {as bs : List Variant} (hab : ∀ op, (∃ a ∈ as, a.op = op) → ∃ b ∈ bs, b.op = op) :
      (∃ a ∈ as, a.hits x n w = true ∧ a.op.instr w = i) → ∃ b ∈ bs, b.hits x n w = true ∧ b.op.instr w = i := by
    rintro ⟨a, ha, hits, hi⟩
    obtain ⟨b, hb, hop⟩ := hab a.op ⟨a, ha, rfl⟩
    exact ⟨b, hb, Variant.hits_congr hop x n w ▸ hits, hop ▸ hi⟩
  exact ⟨transfer fun op => (h op).2, transfer fun op => (h op).1⟩

end Sys2Proof

namespace Sys2Proof.Machine

/-- Both outcomes are next states, and the second is the first with the composite `vs`. -/
def State.SameButComposite (s : State) (vs : List Variant) (o o' : StepOutcome) : Prop :=
  ∃ h : s.HartOf, o = .next (s.withHart h) ∧ o' = .next ((s.withHart h).withComposite vs)

namespace State.SameButComposite

variable {s : State} {vs : List Variant}

theorem next (h : s.HartOf) :
    s.SameButComposite vs (.next (s.withHart h)) (.next ((s.withHart h).withComposite vs)) := ⟨h, rfl, rfl⟩

theorem loadInto (i : Instr) (rd : Reg) (addr : s.Word) (n : Nat) (extend : BitVec (8 * n) → s.Word) :
    s.SameButComposite vs (s.loadInto i rd addr n extend) ((s.withComposite vs).loadInto i rd addr n extend) := by
  rcases s.loadInto_cases i rd addr n extend with ⟨hm, h⟩ | ⟨hm, hs, h⟩ | ⟨hm, hs, h⟩
  · exact ⟨_, h, State.loadInto_of_misaligned (s := s.withComposite vs) hm ..⟩
  · exact ⟨_, h, State.loadInto_of_refused (s := s.withComposite vs) hm hs ..⟩
  · exact ⟨_, h, State.loadInto_of_served (s := s.withComposite vs) hm hs ..⟩

theorem storeFrom (i : Instr) (rs2 : Reg) (addr : s.Word) (n : Nat) :
    s.SameButComposite vs (s.storeFrom i rs2 addr n) ((s.withComposite vs).storeFrom i rs2 addr n) := by
  rcases s.storeFrom_cases i rs2 addr n with ⟨hm, h⟩ | ⟨hm, hs, h⟩ | ⟨hm, hs, h⟩
  · exact ⟨_, h, State.storeFrom_of_misaligned (s := s.withComposite vs) hm ..⟩
  · exact ⟨_, h, State.storeFrom_of_refused (s := s.withComposite vs) hm hs ..⟩
  · exact ⟨_, h, State.storeFrom_of_served (s := s.withComposite vs) hm hs ..⟩

/-- No instruction's meaning looks at the composite. -/
theorem exec (i : Instr) : s.SameButComposite vs (exec i s) (exec i (s.withComposite vs)) := by
  cases i
  case lb | lh | lw | lbu | lhu | lwu | ld => exact loadInto ..
  case sb | sh | sw | sd => exact storeFrom ..
  all_goals exact next _

theorem hookPath (w : InsnWord) : s.SameButComposite vs (s.hookPath w) ((s.withComposite vs).hookPath w) := by
  unfold State.hookPath
  rw [State.hookAnswer_withComposite]
  cases s.hookAnswer w with
  | decline => exact next _
  | done effects out => cases out <;> exact next _

/-- R87: a step that decodes to the same instructions with the composite `vs` is the same step. -/
theorem step (hr : s.hart.status = .running)
    (hdecode : ∀ w, (decodeWord (s.withComposite vs).cfg w).map (·.insn) = (decodeWord s.cfg w).map (·.insn)) :
    s.SameButComposite vs (step s) (step (s.withComposite vs)) := by
  let s' := s.withComposite vs
  rcases s.prepare_cases with ⟨ha, hp⟩ | ⟨ha, hf, hp⟩ | ⟨w, d, ha, hf, hd, hp⟩ | ⟨w, ha, hf, hd, hp⟩
  · rw [step_of_error hr hp, step_of_error (s := s') hr (State.prepare_of_unaligned ha)]
    exact next _
  · rw [step_of_error hr hp, step_of_error (s := s') hr (State.prepare_of_fetch_refused ha hf)]
    exact next _
  · obtain ⟨d', hd', hinsn⟩ := Option.map_eq_some_iff.1 ((hdecode w).trans (congrArg _ hd))
    rw [step_of_ok hr hp, step_of_ok (s := s') hr (State.prepare_of_decoded ha hf hd'), hinsn]
    exact exec d.insn
  · have hd' : decodeWord s'.cfg w = none := Option.map_eq_none_iff.1 ((hdecode w).trans (congrArg _ hd))
    rw [step_of_error hr hp, step_of_error (s := s') hr (State.prepare_of_undecoded ha hf hd')]
    exact hookPath w

end State.SameButComposite

/-- Settles O21: a running run prepares the same instruction, and both outcomes are next states. -/
theorem orderOfTheCompositeNeverMatters : Obligations.OrderOfTheCompositeNeverMatters := by
  unfold Obligations.OrderOfTheCompositeNeverMatters
  intro s vs hops t hstep
  obtain ⟨h, hs, hvs⟩ := State.SameButComposite.step (vs := vs) (running_of_step_next hstep)
    (decodeFirst_insn_congr hops s.cfg.xlen s.cfg.nreg)
  cases hstep.symm.trans hs
  exact hvs

end Sys2Proof.Machine
end

section
/-! Which variants match a common word (spec/30_encoding.md R76, R78, R84): none of one leaf set, those whose rows agree
where both fix a bit, and between leaf sets those of the subset pairs. -/

namespace Sys2Proof

/-! ## Leaf sets -/

theorem LeafSet.mem_variants {x : Xlen} {set : LeafSet} {v : Variant} :
    v ∈ set.variants x ↔ v.set = set ∧ v.op ∈ set.ops x := by
  obtain ⟨s, op⟩ := v
  simp only [LeafSet.variants, List.mem_map, Variant.mk.injEq]
  constructor
  · rintro ⟨_, hop, rfl, rfl⟩
    exact ⟨rfl, hop⟩
  · rintro ⟨rfl, hop⟩
    exact ⟨op, hop, rfl, rfl⟩

/-- Two variants of one leaf set that match a common word are one. -/
theorem LeafSet.eq_of_hits {x : Xlen} {n : Nreg} {set : LeafSet} {w : InsnWord} {u v : Variant}
    (hu : u ∈ set.variants x) (hv : v ∈ set.variants x) (hits : u.hits x n w = true) (hits' : v.hits x n w = true) :
    u = v := by
  have hset : u.set = v.set := (LeafSet.mem_variants.1 hu).1.trans (LeafSet.mem_variants.1 hv).1.symm
  have hop : u.op = v.op := Variant.op_eq_of_hits hits hits'
  cases u; cases v
  exact congrArg₂ Variant.mk hset hop

/-- Settles O14: the first match of a leaf set is its one match. -/
theorem leafSetsAreUnambiguous : Obligations.LeafSetsAreUnambiguous := by
  unfold Obligations.LeafSetsAreUnambiguous
  intro x n set w
  refine ⟨fun u hu v hv => LeafSet.eq_of_hits hu hv, fun d => ⟨decodeFirst_some, ?_⟩, decodeFirst_none_iff⟩
  rintro ⟨v, hv, hits, rfl⟩
  cases hd : set.decode x n w with
  | none => cases (decodeFirst_none_iff.1 hd v hv).symm.trans hits
  | some d =>
    obtain ⟨u, hu, hits', rfl⟩ := decodeFirst_some hd
    rw [LeafSet.eq_of_hits hu hv hits' hits]

/-! ## Patterns under masks -/

/-- A masked word, bit by bit. -/
theorem masked_eq_iff {k : Nat} {x y z : BitVec k} :
    x &&& y = z ↔ ∀ (i : Nat) (hi : i < k), (x[i] && y[i]) = z[i] := by
  rw [BitVec.eq_of_getElem_eq_iff]
  simp only [BitVec.getElem_and]

/-- A word has a pattern under two disjoint masks together where it has it under the first and nothing under the
second. -/
theorem masked_or_eq_iff {k : Nat} {w m h p : BitVec k} (hp : p &&& m = p) (hm : m &&& h = 0#k) :
    w &&& (m ||| h) = p ↔ w &&& m = p ∧ w &&& h = 0#k := by
  have bit (w m h p : Bool) : (p && m) = p → (m && h) = false →
      ((w && (m || h)) = p ↔ (w && m) = p ∧ (w && h) = false) := by revert w m h p; decide
  simp only [masked_eq_iff, BitVec.getElem_or, BitVec.getElem_zero] at hp hm ⊢
  simp only [← forall_and]
  exact forall₂_congr fun i hi => bit _ _ _ _ (hp i hi) (hm i hi)

/-- Two patterns under their masks have a common word exactly when they agree on the bits of both masks. -/
theorem exists_masked_eq_iff {k : Nat} {p₁ m₁ p₂ m₂ : BitVec k} (h₁ : p₁ &&& m₁ = p₁) (h₂ : p₂ &&& m₂ = p₂) :
    (∃ w, w &&& m₁ = p₁ ∧ w &&& m₂ = p₂) ↔ (p₁ ^^^ p₂) &&& (m₁ &&& m₂) = 0#k := by
  have agree (w m₁ m₂ : Bool) : (((w && m₁) ^^ (w && m₂)) && (m₁ && m₂)) = false := by revert w m₁ m₂; decide
  have join (p m q l : Bool) : (p && m) = p → (q && l) = q → ((p ^^ q) && (m && l)) = false →
      ((p || q) && m) = p ∧ ((p || q) && l) = q := by revert p m q l; decide
  constructor
  · rintro ⟨w, rfl, rfl⟩
    refine masked_eq_iff.2 fun i hi => ?_
    simpa only [BitVec.getElem_xor, BitVec.getElem_and, BitVec.getElem_zero] using agree ..
  · intro h
    refine ⟨p₁ ||| p₂, ?_⟩
    simp only [masked_eq_iff, BitVec.getElem_or, BitVec.getElem_xor, BitVec.getElem_and, BitVec.getElem_zero] at h₁ h₂ h ⊢
    simp only [← forall_and]
    exact fun i hi => join _ _ _ _ (h₁ i hi) (h₂ i hi) (h i hi)

theorem masked_or_of_masked_eq {k : Nat} {p m : BitVec k} (h : BitVec k) (hp : p &&& m = p) : p &&& (m ||| h) = p := by
  have bit (p m h : Bool) : (p && m) = p → (p && (m || h)) = p := by revert p m h; decide
  simp only [masked_eq_iff, BitVec.getElem_or] at hp ⊢
  exact fun i hi => bit _ _ _ (hp i hi)

/-! ## Rows that match a common word -/

/-- What is checked of every row holds of the row of a mnemonic. -/
theorem Op.row_of_all {P : Row → Bool}
    (h : (Op.all.all fun op => (op.row .rv32).all P && (op.row .rv64).all P) = true) {op : Op} {x : Xlen} {r : Row}
    (hr : op.row x = some r) : P r = true := by
  obtain ⟨h32, h64⟩ := Bool.and_eq_true_iff.1 (List.all_eq_true.1 h op op.mem_all)
  cases x
  · simpa [hr] using h32
  · simpa [hr] using h64

/-- A row's pattern fixes no bit its mask leaves free. -/
theorem Op.pattern_and_mask {op : Op} {x : Xlen} {r : Row} (hr : op.row x = some r) :
    r.pattern &&& r.mask = r.pattern :=
  beq_iff_eq.1 (Op.row_of_all (P := fun r => r.pattern &&& r.mask == r.pattern) (by decide +kernel) hr)

/-- A row's mask holds no bit of a register operand. -/
theorem Op.mask_and_highRegisterBits {op : Op} {x : Xlen} {r : Row} (hr : op.row x = some r) (n : Nreg) :
    r.mask &&& r.format.highRegisterBits n = 0 := by
  cases n with
  | i32 => exact BitVec.and_zero
  | e16 =>
    exact beq_iff_eq.1
      (Op.row_of_all (P := fun r => r.mask &&& r.format.highRegisterBits .e16 == 0) (by decide +kernel) hr)

theorem and_twoPow_eq_zero_iff {k : Nat} (w : BitVec k) {i : Nat} (hi : i < k) :
    w &&& BitVec.twoPow k i = 0#k ↔ w.getLsbD i = false := by
  constructor
  · intro h
    simpa [hi] using congrArg (·.getLsbD i) h
  · intro h
    simp [BitVec.and_twoPow, h]

/-- R66: a register field is below 16 where its bit 4 is 0. -/
theorem InsnWord.field_lt_iff (w : InsnWord) {start : Nat} (hs : start + 4 < 32) :
    (w.extractLsb' start 5).toNat < 16 ↔ w &&& BitVec.twoPow 32 (start + 4) = 0#32 := by
  have hmsb : (w.extractLsb' start 5).msb = w.getLsbD (start + 4) := by simp [BitVec.msb_eq_getLsbD_last]
  have hlt := BitVec.msb_eq_false_iff_two_mul_lt (x := w.extractLsb' start 5)
  rw [and_twoPow_eq_zero_iff w hs, ← hmsb, hlt]
  omega

theorem InsnWord.rd_lt_iff (w : InsnWord) : w.rd.val < 16 ↔ w &&& 0x00000800#32 = 0#32 :=
  w.field_lt_iff (start := 7) (by decide)

theorem InsnWord.rs1_lt_iff (w : InsnWord) : w.rs1.val < 16 ↔ w &&& 0x00080000#32 = 0#32 :=
  w.field_lt_iff (start := 15) (by decide)

theorem InsnWord.rs2_lt_iff (w : InsnWord) : w.rs2.val < 16 ↔ w &&& 0x01000000#32 = 0#32 :=
  w.field_lt_iff (start := 20) (by decide)

theorem masked_or_eq_zero_iff {k : Nat} (w a b : BitVec k) : w &&& (a ||| b) = 0#k ↔ w &&& a = 0#k ∧ w &&& b = 0#k := by
  rw [BitVec.and_or_distrib_left, BitVec.or_eq_zero_iff]

/-- R66: the operand registers are below NREG where the high bits of their fields are 0. -/
theorem Format.operands_all_iff (f : Format) (n : Nreg) (w : InsnWord) :
    (f.operands w).all (fun r => r.val < n.count) = true ↔ w &&& f.highRegisterBits n = 0#32 := by
  cases n with
  | i32 => exact iff_of_true (List.all_eq_true.2 fun r _ => decide_eq_true r.isLt) BitVec.and_zero
  | e16 =>
    have hdest : w &&& 0x00080800#32 = 0#32 ↔ _ := masked_or_eq_zero_iff w 0x00000800#32 0x00080000#32
    have hsources : w &&& 0x01080000#32 = 0#32 ↔ _ := masked_or_eq_zero_iff w 0x00080000#32 0x01000000#32
    have hall : w &&& 0x01080800#32 = 0#32 ↔ _ := masked_or_eq_zero_iff w 0x00000800#32 0x01080000#32
    cases f <;>
      simp [Format.operands, Format.highRegisterBits, Nreg.count, InsnWord.rd_lt_iff, InsnWord.rs1_lt_iff,
        InsnWord.rs2_lt_iff, hdest, hsources, hall]

/-- R75: the bits a row fixes, the register bound included, say whether it matches a word. -/
theorem Op.matches_iff_fullMask {op : Op} {x : Xlen} {r : Row} (hr : op.row x = some r) (n : Nreg) (w : InsnWord) :
    r.matches n w = true ↔ w &&& r.fullMask n = r.pattern := by
  rw [Row.matches_iff, Format.operands_all_iff, Row.fullMask,
    masked_or_eq_iff (Op.pattern_and_mask hr) (Op.mask_and_highRegisterBits hr n)]

theorem Op.pattern_and_fullMask {op : Op} {x : Xlen} {r : Row} (hr : op.row x = some r) (n : Nreg) :
    r.pattern &&& r.fullMask n = r.pattern :=
  masked_or_of_masked_eq _ (Op.pattern_and_mask hr)

/-- R84: the overlap test of two rows is right. -/
theorem Op.overlaps_iff {a b : Op} {x : Xlen} {n : Nreg} {r₁ r₂ : Row} (h₁ : a.row x = some r₁)
    (h₂ : b.row x = some r₂) :
    r₁.overlaps n r₂ = true ↔ ∃ w, r₁.matches n w = true ∧ r₂.matches n w = true := by
  simp only [Op.matches_iff_fullMask h₁, Op.matches_iff_fullMask h₂]
  rw [exists_masked_eq_iff (Op.pattern_and_fullMask h₁ n) (Op.pattern_and_fullMask h₂ n), Row.overlaps, beq_iff_eq]
  rfl

theorem Variant.overlaps_iff (x : Xlen) (n : Nreg) (u v : Variant) :
    u.overlaps x n v = true ↔ ∃ w, u.hits x n w = true ∧ v.hits x n w = true := by
  unfold Variant.overlaps Variant.hits
  cases hu : u.op.row x with
  | none => simp
  | some r₁ =>
    cases hv : v.op.row x with
    | none => simp
    | some r₂ => exact Op.overlaps_iff hu hv

/-! ## Leaf sets that share a mnemonic -/

/-- The leaf sets (R78). -/
def LeafSet.all : List LeafSet := [.I, .M, .Zmmul, .Zba, .Zbs, .Zbc, .Zbkc]

theorem LeafSet.mem_all (set : LeafSet) : set ∈ LeafSet.all := by cases set <;> decide

/-- The widths. -/
def Xlen.all : List Xlen := [.rv32, .rv64]

theorem Xlen.mem_all (x : Xlen) : x ∈ Xlen.all := by cases x <;> decide

theorem LeafSet.row_isSome_all :
    ∀ x ∈ Xlen.all, ∀ set ∈ LeafSet.all, ∀ op ∈ set.ops x, (op.row x).isSome = true := by decide +kernel

/-- R78, R79: a mnemonic that a leaf set has at a width has a row at it. -/
theorem LeafSet.exists_row {x : Xlen} {set : LeafSet} {op : Op} (h : op ∈ set.ops x) : ∃ r, op.row x = some r :=
  Option.isSome_iff_exists.1 (LeafSet.row_isSome_all x x.mem_all set set.mem_all op h)

/-- The mnemonic is one of a set and of a subset of it: of M and Zmmul, or of Zbc and Zbkc (R84). -/
abbrev LeafSet.ShareSubset (s t : LeafSet) (op : Op) : Prop :=
  (op ∈ [.mul, .mulh, .mulhsu, .mulhu, .mulw] ∧ ((s = .M ∧ t = .Zmmul) ∨ (s = .Zmmul ∧ t = .M)))
    ∨ (op ∈ [.clmul, .clmulh] ∧ ((s = .Zbc ∧ t = .Zbkc) ∨ (s = .Zbkc ∧ t = .Zbc)))

theorem LeafSet.shareSubset_all :
    ∀ x ∈ Xlen.all, ∀ s ∈ LeafSet.all, ∀ t ∈ LeafSet.all, ∀ op ∈ s.ops x, op ∈ t.ops x → s ≠ t →
      LeafSet.ShareSubset s t op := by decide +kernel

/-- Two leaf sets share a mnemonic only where one is a subset of the other. -/
theorem LeafSet.shareSubset {x : Xlen} {s t : LeafSet} {op : Op} (hs : op ∈ s.ops x) (ht : op ∈ t.ops x)
    (hne : s ≠ t) : LeafSet.ShareSubset s t op :=
  LeafSet.shareSubset_all x x.mem_all s s.mem_all t t.mem_all op hs ht hne

/-- Variants of one mnemonic that has a row overlap. -/
theorem Variant.overlaps_of_op_eq {x : Xlen} {u v : Variant} {r : Row} (hr : u.op.row x = some r)
    (hop : u.op = v.op) (n : Nreg) : u.overlaps x n v = true := by
  simp only [Variant.overlaps, ← hop, hr, Row.overlaps, BitVec.xor_self]
  exact beq_iff_eq.2 BitVec.zero_and

/-- Settles O15: variants that overlap have one mnemonic, and so two sets where they differ. -/
theorem overlapsAreExactlyTheSubsetPairs : Obligations.OverlapsAreExactlyTheSubsetPairs := by
  unfold Obligations.OverlapsAreExactlyTheSubsetPairs
  intro x n u v
  refine ⟨Variant.overlaps_iff x n u v, fun hu hv hne => ⟨fun h => ?_, fun ⟨hop, _⟩ => ?_⟩⟩
  · obtain ⟨w, hits, hits'⟩ := (Variant.overlaps_iff x n u v).1 h
    have hop : u.op = v.op := Variant.op_eq_of_hits hits hits'
    have hset : u.set ≠ v.set := fun hset => hne (LeafSet.eq_of_hits hu (hset ▸ hv) hits hits')
    exact ⟨hop, LeafSet.shareSubset (LeafSet.mem_variants.1 hu).2 (hop ▸ (LeafSet.mem_variants.1 hv).2) hset⟩
  · obtain ⟨r, hr⟩ := LeafSet.exists_row (LeafSet.mem_variants.1 hu).2
    exact Variant.overlaps_of_op_eq hr hop n

end Sys2Proof
end

section
/-! Building a composite from its declaration (spec/30_encoding.md R80 to R84, R88, R89): when a declaration is
accepted, and what its final list is. -/

namespace Sys2Proof

/-! ## Acceptance -/

section Acceptance

variable {x : Xlen} {n : Nreg} {reorder : List Variant}

/-- R84 item 2, for the first variant of a list and for the others. -/
theorem firstUnresolved_cons_eq_none_iff {u : Variant} {vs : List Variant} :
    firstUnresolved x n reorder (u :: vs) = none ↔
      (∀ v ∈ vs, u.overlaps x n v = true → u ∈ reorder) ∧ firstUnresolved x n reorder vs = none := by
  rw [firstUnresolved]
  by_cases hu : u ∈ reorder
  · simp [hu]
  · cases hf : vs.find? (u.overlaps x n ·) with
    | none =>
      have hnone : ∀ v ∈ vs, u.overlaps x n v = false := by simpa using hf
      simp +contextual [hu, hnone]
    | some v =>
      have hv : u.overlaps x n v = true := List.find?_some (p := (u.overlaps x n ·)) hf
      simpa [hu, hf] using fun h => absurd hv (Bool.eq_false_iff.1 (h v (List.mem_of_find?_eq_some hf)))

/-- R84 item 2: no pair is unresolved where every variant that overlaps a later one is reordered. -/
theorem firstUnresolved_eq_none_iff {vs : List Variant} :
    firstUnresolved x n reorder vs = none ↔ vs.Pairwise fun u v => u.overlaps x n v = true → u ∈ reorder := by
  induction vs with
  | nil => simp [firstUnresolved]
  | cons u vs ih => rw [firstUnresolved_cons_eq_none_iff, List.pairwise_cons, ih]

end Acceptance

/-- R81 to R84: what a declaration builds, and when. -/
theorem Declaration.build_eq_ok_iff {x : Xlen} {n : Nreg} {earlier : List Built} {d : Declaration} {all b : Built}
    (h : inheritAll x earlier d.inherits = .ok all) :
    d.build x n earlier = .ok b ↔
      (∀ v ∈ d.reorder, v ∈ d.kept earlier all) ∧ firstUnresolved x n d.reorder (d.final earlier all) = none
        ∧ ⟨d.final earlier all, all.reaches⟩ = b := by
  unfold Declaration.build
  simp only [h]
  split
  · next v hv =>
    have hv' : v ∈ d.reorder ∧ v ∉ d.kept earlier all :=
      ⟨List.mem_of_find?_eq_some hv, by simpa using List.find?_some hv⟩
    exact iff_of_false nofun fun hall => hv'.2 (hall.1 v hv'.1)
  · next hnone =>
    have hkept : ∀ v ∈ d.reorder, v ∈ d.kept earlier all := by simpa using hnone
    split
    · next p hp => exact iff_of_false nofun fun hall => nomatch hp.symm.trans hall.2.1
    · next hp => exact ⟨fun hb => ⟨hkept, hp, Except.ok.inj hb⟩, fun hall => congrArg _ hall.2.2⟩

/-- Settles O16: the second check looks at every pair of the final list, in order. -/
theorem acceptedExactlyWhenWellFormed : Obligations.AcceptedExactlyWhenWellFormed := by
  unfold Obligations.AcceptedExactlyWhenWellFormed
  intro x n earlier d all h
  simp only [Declaration.build_eq_ok_iff h, firstUnresolved_eq_none_iff, exists_and_left, exists_eq', and_true]
  refine and_congr_right fun _ => ?_
  rw [List.pairwise_iff_getElem]
  constructor
  · intro hp i j u v hij hu hv hw
    obtain ⟨hi, rfl⟩ := List.getElem?_eq_some_iff.1 hu
    obtain ⟨hj, rfl⟩ := List.getElem?_eq_some_iff.1 hv
    exact hp i j hi hj hij ((Variant.overlaps_iff ..).2 hw)
  · intro hp i j hi hj hij ho
    exact hp i j _ _ hij (List.getElem?_eq_getElem hi) (List.getElem?_eq_getElem hj) ((Variant.overlaps_iff ..).1 ho)

/-! ## The final list -/

theorem keepFirst_filter (p : Variant → Bool) (vs : List Variant) :
    keepFirst (vs.filter p) = (keepFirst vs).filter p := by
  induction vs with
  | nil => rfl
  | cons v vs ih =>
    cases hv : p v
    · have hne : ∀ a, p a = true → a ≠ v := by
        rintro _ ha rfl
        cases hv.symm.trans ha
      have hdrop : ¬ p v = true := Bool.eq_false_iff.1 hv
      rw [List.filter_cons_of_neg hdrop, ih, keepFirst, List.filter_cons_of_neg hdrop, List.filter_filter]
      refine List.filter_congr fun a _ => ?_
      cases ha : p a
      · rfl
      · simp [hne a ha]
    · rw [List.filter_cons_of_pos hv, keepFirst, ih, keepFirst, List.filter_cons_of_pos hv, List.filter_comm]

/-- R81: `keepFirst` keeps the first occurrence of each variant. -/
theorem keepFirst_eq_eraseDups : (vs : List Variant) → keepFirst vs = vs.eraseDups
  | [] => rfl
  | v :: vs => by
    have hne : (fun u => decide (u ≠ v)) = fun u => !u == v := funext fun u => decide_not
    rw [keepFirst, ← keepFirst_filter, keepFirst_eq_eraseDups (vs.filter _), List.eraseDups_cons, hne]
termination_by vs => vs.length
decreasing_by exact Nat.lt_succ_of_le (List.length_filter_le ..)

/-- What leaf sets contribute (R81). -/
theorem inheritAll_leaves (x : Xlen) (sets : List LeafSet) :
    inheritAll x [] (sets.map .leaf) = .ok ⟨sets.flatMap (·.variants x), []⟩ := by
  induction sets with
  | nil => rfl
  | cons s sets ih => simp [inheritAll, ih, SetName.contributes]

theorem LeafSet.eraseDups_variants_all :
    ∀ x ∈ Xlen.all, ∀ s ∈ LeafSet.all, (s.variants x).eraseDups = s.variants x := by decide +kernel

/-- R78: a leaf set lists each of its variants once. -/
theorem LeafSet.eraseDups_variants (x : Xlen) (s : LeafSet) : (s.variants x).eraseDups = s.variants x :=
  LeafSet.eraseDups_variants_all x x.mem_all s s.mem_all

/-- The variants of a set, removed from those of several sets, leave those of the other sets. -/
theorem LeafSet.removeAll_variants (x : Xlen) (s : LeafSet) (sets : List LeafSet) :
    (sets.flatMap (·.variants x)).removeAll (s.variants x) = (sets.filter (· ≠ s)).flatMap (·.variants x) := by
  induction sets with
  | nil => rfl
  | cons t sets ih =>
    rw [List.flatMap_cons, List.removeAll, List.filter_append, ← List.removeAll, ← List.removeAll, ih]
    by_cases hts : t = s
    · subst hts
      simp [List.removeAll]
    · have hout : ∀ v ∈ t.variants x, v ∉ s.variants x := fun v ht hs =>
        hts ((LeafSet.mem_variants.1 ht).1.symm.trans (LeafSet.mem_variants.1 hs).1)
      have hall : (t.variants x).removeAll (s.variants x) = t.variants x :=
        List.filter_eq_self.2 fun v hv => by simpa using hout v hv
      simp [hts, hall]

/-- R81: a set named again contributes nothing more. -/
theorem LeafSet.eraseDups_flatMap_variants (x : Xlen) : (sets : List LeafSet) →
    (sets.flatMap (·.variants x)).eraseDups = sets.eraseDups.flatMap (·.variants x)
  | [] => rfl
  | s :: sets => by
    have hne : (fun t => decide (t ≠ s)) = fun t => !t == s := funext fun t => decide_not
    rw [List.flatMap_cons, List.eraseDups_append, LeafSet.eraseDups_variants, LeafSet.removeAll_variants,
      LeafSet.eraseDups_flatMap_variants x (sets.filter _), List.eraseDups_cons, List.flatMap_cons, hne]
termination_by sets => sets.length
decreasing_by exact Nat.lt_succ_of_le (List.length_filter_le ..)

/-- R82: a variant comes from an ignored leaf set where its own set is ignored. -/
theorem Variant.any_comesFrom_leaves (v : Variant) (ignored : List LeafSet) :
    (ignored.map SetName.leaf).any (v.comesFrom [] []) = decide (v.set ∈ ignored) := by
  induction ignored with
  | nil => rfl
  | cons s ignored ih => simp [ih, Variant.comesFrom]

/-- Settles O17: the filters of `ignore` and of `reorder` are one filter of the inherited variants. -/
theorem compositeListFollowsItsDeclaration : Obligations.CompositeListFollowsItsDeclaration := by
  unfold Obligations.CompositeListFollowsItsDeclaration
  intro x n sets ignored reorder b h
  obtain ⟨-, -, rfl⟩ := (Declaration.build_eq_ok_iff (inheritAll_leaves x sets)).1 h
  simp only [Declaration.final, Declaration.kept, keepFirst_eq_eraseDups, LeafSet.eraseDups_flatMap_variants,
    Variant.any_comesFrom_leaves, List.filter_filter]
  congr 1
  refine List.filter_congr fun v _ => ?_
  simp [Bool.and_comm]

/-! ## The reference composites and the examples -/

/-- R88: `refCrypto` is well-formed at every width and register count; its list is the leaves' in order. -/
theorem buildComposite_refCrypto (x : Xlen) (n : Nreg) :
    buildComposite x n refCrypto = .ok (refCryptoVariants x) := by
  cases x <;> cases n <;> rfl

/-- Settles O18: the reference lists hold at every width and register count, and the examples of R89 are evaluated. -/
theorem referenceCompositesAndExamples : Obligations.ReferenceCompositesAndExamples := by
  unfold Obligations.ReferenceCompositesAndExamples
  intro build decodes zbkc zmmul
  refine ⟨fun x n => ⟨buildComposite_refFull x n, buildComposite_refCrypto x n⟩, rfl, ?_, ?_, ?_, ?_, rfl, ?_, ?_, ?_⟩
  case refine_1 | refine_2 | refine_3 | refine_4 | refine_5 | refine_6 | refine_7 => decide +kernel

end Sys2Proof
end

section
/-! What the opcode tables leave out (spec/30_encoding.md R62, R68 to R74, R92, R94, R95): a word that decodes has an
opcode and function codes of the tables, or is ECALL or EBREAK. -/

namespace Sys2Proof

/-- The major opcode (R62, R68). -/
abbrev InsnWord.opcode (w : InsnWord) : BitVec 7 := w.extractLsb' 0 7

/-- inst[14:12] (R64). -/
abbrev InsnWord.funct3 (w : InsnWord) : BitVec 3 := w.extractLsb' 12 3

/-- inst[31:25] (R64). -/
abbrev InsnWord.funct7 (w : InsnWord) : BitVec 7 := w.extractLsb' 25 7

/-- The funct7 and funct3 of the OP instructions whose funct7 is not used with every funct3 (R72). -/
def opCodes : List (BitVec 7 × BitVec 3) :=
  [(0b0100000, 0b000), (0b0100000, 0b101), (0b0010000, 0b010), (0b0010000, 0b100), (0b0010000, 0b110),
   (0b0010100, 0b001), (0b0100100, 0b001), (0b0100100, 0b101), (0b0110100, 0b001), (0b0000101, 0b001),
   (0b0000101, 0b010), (0b0000101, 0b011)]

/-- The funct7 and funct3 of the OP-32 instructions (R73). -/
def op32Codes : List (BitVec 7 × BitVec 3) :=
  [(0b0000000, 0b000), (0b0000000, 0b001), (0b0000000, 0b101), (0b0100000, 0b000), (0b0100000, 0b101),
   (0b0000001, 0b000), (0b0000001, 0b100), (0b0000001, 0b101), (0b0000001, 0b110), (0b0000001, 0b111),
   (0b0000100, 0b000), (0b0010000, 0b010), (0b0010000, 0b100), (0b0010000, 0b110)]

/-- The major opcodes but SYSTEM, and whether the width uses one with these function codes (R68 to R74). -/
def codeTable (x : Xlen) (funct3 : BitVec 3) (funct7 : BitVec 7) : List (BitVec 7 × Bool) :=
  let funct6 := funct7.extractLsb' 1 6
  let rv64 := decide (x = .rv64)
  [(0b0110111, true), (0b0010111, true), (0b1101111, true),
   (0b1100111, decide (funct3 = 0b000)),
   (0b1100011, decide (funct3 ∉ ([0b010, 0b011] : List (BitVec 3)))),
   (0b0000011, decide (funct3 ≠ 0b111) && (decide (funct3 ∉ ([0b011, 0b110] : List (BitVec 3))) || rv64)),
   (0b0100011, decide (funct3 < 0b100) && (decide (funct3 ≠ 0b011) || rv64)),
   (0b0001111, decide (funct3 = 0b000)),
   (0b0010011,
     if funct3 = 0b001 then
       (rv64 || !funct7.getLsbD 0) &&
         decide (funct6 ∈ ([0b000000, 0b001010, 0b010010, 0b011010] : List (BitVec 6)))
     else if funct3 = 0b101 then
       (rv64 || !funct7.getLsbD 0) && decide (funct6 ∈ ([0b000000, 0b010000, 0b010010] : List (BitVec 6)))
     else true),
   (0b0011011,
     rv64 &&
       (decide (funct3 = 0b000)
         || (decide (funct3 = 0b001) && (decide (funct7 = 0b0000000) || decide (funct6 = 0b000010)))
         || (decide (funct3 = 0b101) && decide (funct7 ∈ ([0b0000000, 0b0100000] : List (BitVec 7)))))),
   (0b0110011,
     decide (funct7 ∈ ([0b0000000, 0b0000001] : List (BitVec 7)))
       || decide ((funct7, funct3) ∈
          opCodes)),
   (0b0111011,
     rv64 && decide ((funct7, funct3) ∈
          op32Codes))]

/-- The table has the opcode with the function codes. -/
abbrev UsedCodes (x : Xlen) (opcode : BitVec 7) (funct3 : BitVec 3) (funct7 : BitVec 7) : Prop :=
  (codeTable x funct3 funct7).lookup opcode = some true

/-- The opcode and function codes of a word are in the table. -/
abbrev InsnWord.Used (x : Xlen) (w : InsnWord) : Prop := UsedCodes x w.opcode w.funct3 w.funct7

section Masks

variable {x : Xlen} {w p : InsnWord}

theorem InsnWord.used_of_mask_opcode (hw : w &&& 0x0000007F = p) (hp : ∀ f3 f7, UsedCodes x p.opcode f3 f7) :
    w.Used x := by
  rw [InsnWord.Used, InsnWord.opcode, InsnWord.field_of_mask hw rfl]
  exact hp _ _

theorem InsnWord.used_of_mask_funct3 (hw : w &&& 0x0000707F = p) (hp : ∀ f7, UsedCodes x p.opcode p.funct3 f7) :
    w.Used x := by
  rw [InsnWord.Used, InsnWord.opcode, InsnWord.funct3, InsnWord.field_of_mask hw rfl, InsnWord.field_of_mask hw rfl]
  exact hp _

theorem InsnWord.used_of_mask_funct7 (hw : w &&& 0xFE00707F = p) (hp : UsedCodes x p.opcode p.funct3 p.funct7) :
    w.Used x := by
  rw [InsnWord.Used, InsnWord.opcode, InsnWord.funct3, InsnWord.funct7, InsnWord.field_of_mask hw rfl,
    InsnWord.field_of_mask hw rfl, InsnWord.field_of_mask hw rfl]
  exact hp

theorem InsnWord.funct6_eq (w : InsnWord) : w.extractLsb' 26 6 = w.funct7.extractLsb' 1 6 := by
  ext i hi
  have hin : 1 + i < 7 := by omega
  simp [hin, ← Nat.add_assoc]

theorem InsnWord.used_of_mask_funct6 (hw : w &&& 0xFC00707F = p)
    (hp : ∀ f7 : BitVec 7, f7.extractLsb' 1 6 = p.extractLsb' 26 6 → UsedCodes x p.opcode p.funct3 f7) : w.Used x := by
  rw [InsnWord.Used, InsnWord.opcode, InsnWord.funct3, InsnWord.field_of_mask hw rfl, InsnWord.field_of_mask hw rfl]
  exact hp _ (w.funct6_eq.symm.trans (InsnWord.field_of_mask hw rfl))

end Masks

/-- R68 to R74: a word that matches a row has codes of the tables, or is ECALL or EBREAK. -/
theorem Op.used_of_row {op : Op} {x : Xlen} {r : Row} {w : InsnWord} (h : op.row x = some r)
    (hw : w &&& r.mask = r.pattern) : w.Used x ∨ w = 0x00000073 ∨ w = 0x00100073 := by
  cases op
  case ecall => cases h; exact .inr (.inl (BitVec.and_allOnes.symm.trans hw))
  case ebreak => cases h; exact .inr (.inr (BitVec.and_allOnes.symm.trans hw))
  case lui | auipc | jal => cases h; exact .inl (InsnWord.used_of_mask_opcode hw fun _ _ => rfl)
  case addi | slti | sltiu | xori | ori | andi | jalr | beq | bne | blt | bge | bltu | bgeu | lb | lh | lw | lbu | lhu
      | sb | sh | sw | fence =>
    cases h
    exact .inl (InsnWord.used_of_mask_funct3 hw fun _ => rfl)
  case addiw | lwu | ld | sd =>
    obtain ⟨rfl, rfl⟩ := Row.only64_eq_some.1 h
    exact .inl (InsnWord.used_of_mask_funct3 hw fun _ => rfl)
  case slli | srli | srai | bseti | bclri | binvi | bexti =>
    cases h
    cases x
    · exact .inl (InsnWord.used_of_mask_funct7 hw rfl)
    · exact .inl (InsnWord.used_of_mask_funct6 hw (by decide))
  case slliUw =>
    obtain ⟨rfl, rfl⟩ := Row.only64_eq_some.1 h
    exact .inl (InsnWord.used_of_mask_funct6 hw (by decide))
  case slliw | srliw | sraiw | addw | subw | sllw | srlw | sraw | mulw | divw | divuw | remw | remuw | addUw | sh1addUw
      | sh2addUw | sh3addUw =>
    obtain ⟨rfl, rfl⟩ := Row.only64_eq_some.1 h
    exact .inl (InsnWord.used_of_mask_funct7 hw rfl)
  all_goals
    cases h
    exact .inl (InsnWord.used_of_mask_funct7 hw rfl)

/-- R85: a word that decodes matches a row, so it has codes of the tables or is ECALL or EBREAK. -/
theorem used_of_decodeWord {c : Config} {w : InsnWord} {d : Decoded} (h : decodeWord c w = some d) :
    w.Used c.xlen ∨ w = 0x00000073 ∨ w = 0x00100073 := by
  obtain ⟨v, -, hits, -⟩ := decodeFirst_some h
  obtain ⟨r, hrow, hmatch⟩ := Variant.hits_iff.1 hits
  exact Op.used_of_row hrow ((Row.matches_iff ..).1 hmatch).1

/-! ## The table read opcode by opcode -/

/-- The opcodes of the table (R68). -/
def tableOpcodes : List (BitVec 7) :=
  [0b0110111, 0b0010111, 0b1101111, 0b1100111, 0b1100011, 0b0000011, 0b0100011, 0b0001111, 0b0010011, 0b0011011,
   0b0110011, 0b0111011]

section Table

variable {x : Xlen} {f3 : BitVec 3} {f7 : BitVec 7}

theorem opcode_mem_of_usedCodes {opcode : BitVec 7} (h : UsedCodes x opcode f3 f7) : opcode ∈ tableOpcodes := by
  obtain ⟨l, r, hsplit, -⟩ := List.lookup_eq_some_iff.1 h
  have hmem : (opcode, true) ∈ codeTable x f3 f7 := hsplit ▸ by simp
  exact List.mem_map_of_mem (f := Prod.fst) hmem

theorem usedCodes_jalr : UsedCodes x 0b1100111 f3 f7 ↔ f3 = 0b000 := by
  simp [UsedCodes, codeTable, List.lookup]

theorem usedCodes_branch : UsedCodes x 0b1100011 f3 f7 ↔ f3 ≠ 0b010 ∧ f3 ≠ 0b011 := by
  simp [UsedCodes, codeTable, List.lookup]

theorem usedCodes_load :
    UsedCodes x 0b0000011 f3 f7 ↔ f3 ≠ 0b111 ∧ ((f3 ≠ 0b011 ∧ f3 ≠ 0b110) ∨ x = .rv64) := by
  simp [UsedCodes, codeTable, List.lookup]

theorem usedCodes_store : UsedCodes x 0b0100011 f3 f7 ↔ f3 < 0b100 ∧ (f3 ≠ 0b011 ∨ x = .rv64) := by
  simp [UsedCodes, codeTable, List.lookup]

theorem usedCodes_miscMem : UsedCodes x 0b0001111 f3 f7 ↔ f3 = 0b000 := by
  simp [UsedCodes, codeTable, List.lookup]

theorem usedCodes_opImm_left :
    UsedCodes x 0b0010011 0b001 f7 ↔
      (x = .rv64 ∨ f7.getLsbD 0 = false) ∧
        f7.extractLsb' 1 6 ∈ ([0b000000, 0b001010, 0b010010, 0b011010] : List (BitVec 6)) := by
  simp [UsedCodes, codeTable, List.lookup]

theorem usedCodes_opImm_right :
    UsedCodes x 0b0010011 0b101 f7 ↔
      (x = .rv64 ∨ f7.getLsbD 0 = false) ∧
        f7.extractLsb' 1 6 ∈ ([0b000000, 0b010000, 0b010010] : List (BitVec 6)) := by
  simp [UsedCodes, codeTable, List.lookup]

theorem usedCodes_opImm32 :
    UsedCodes x 0b0011011 f3 f7 ↔
      x = .rv64 ∧ (f3 = 0b000 ∨ f3 = 0b001 ∧ (f7 = 0b0000000 ∨ f7.extractLsb' 1 6 = 0b000010)
        ∨ f3 = 0b101 ∧ f7 ∈ ([0b0000000, 0b0100000] : List (BitVec 7))) := by
  simp [UsedCodes, codeTable, List.lookup, or_assoc]

theorem usedCodes_op :
    UsedCodes x 0b0110011 f3 f7 ↔ f7 ∈ ([0b0000000, 0b0000001] : List (BitVec 7)) ∨ (f7, f3) ∈ opCodes := by
  simp [UsedCodes, codeTable, List.lookup, opCodes]

theorem usedCodes_op32 : UsedCodes x 0b0111011 f3 f7 ↔ x = .rv64 ∧ (f7, f3) ∈ op32Codes := by
  simp [UsedCodes, codeTable, List.lookup, op32Codes]

end Table

/-- Settles O19: the table has none of these opcodes, and MISC-MEM with funct3 0 alone; ECALL and EBREAK meet no
clause. -/
theorem unusedOpcodesDecodeToNothing : Obligations.UnusedOpcodesDecodeToNothing := by
  unfold Obligations.UnusedOpcodesDecodeToNothing
  intro c w h
  refine Option.eq_none_iff_forall_ne_some.2 fun d hd => ?_
  rcases used_of_decodeWord hd with hused | rfl | rfl
  · have hopc := opcode_mem_of_usedCodes hused
    rcases h with h | h | ⟨(h : w.opcode = _), h3⟩ | ⟨(h : w.opcode = _), -⟩ | rfl | rfl
    · exact h ((by decide : ∀ opcode ∈ tableOpcodes, opcode ∈ _) _ hopc)
    · have hlow : w.opcode.extractLsb' 0 2 = w.extractLsb' 0 2 := BitVec.extractLsb'_extractLsb'_of_le (by decide)
      exact h (hlow.symm.trans ((by decide : ∀ opcode ∈ tableOpcodes, opcode.extractLsb' 0 2 = 0b11) _ hopc))
    · rw [InsnWord.Used, h] at hused
      exact h3 (usedCodes_miscMem.1 hused)
    · rw [h] at hopc
      exact absurd hopc (by decide)
    · exact absurd hopc (by decide)
    · exact absurd hopc (by decide)
  · revert h; decide
  · revert h; decide

/-- R74: a word that decodes has codes of the table, where it is no SYSTEM word. -/
theorem used_of_decodeWord_of_opcode_ne {c : Config} {w : InsnWord} {d : Decoded} (h : decodeWord c w = some d)
    (hopc : w.opcode ≠ 0b1110011) : w.Used c.xlen := by
  rcases used_of_decodeWord h with hused | rfl | rfl
  · exact hused
  · exact absurd rfl hopc
  · exact absurd rfl hopc

/-- R74: a SYSTEM word that decodes is ECALL or EBREAK. -/
theorem eq_of_decodeWord_of_system {c : Config} {w : InsnWord} {d : Decoded} (h : decodeWord c w = some d)
    (hopc : w.opcode = 0b1110011) : w = 0x00000073 ∨ w = 0x00100073 := by
  rcases used_of_decodeWord h with hused | hw
  · exact absurd (hopc ▸ opcode_mem_of_usedCodes hused) (by decide)
  · exact hw

/-- Settles O20: each clause names a cell the table does not have. -/
theorem reservedEncodingsDecodeToNothing : Obligations.ReservedEncodingsDecodeToNothing := by
  unfold Obligations.ReservedEncodingsDecodeToNothing
  intro c w opcode funct3 funct7 h
  refine Option.eq_none_iff_forall_ne_some.2 fun d hd => ?_
  have hused : opcode ≠ 0b1110011 → UsedCodes c.xlen opcode funct3 funct7 := used_of_decodeWord_of_opcode_ne hd
  have hsystem : opcode = 0b1110011 → w = 0x00000073 ∨ w = 0x00100073 := eq_of_decodeWord_of_system hd
  have h26 : w.extractLsb' 26 6 = funct7.extractLsb' 1 6 := w.funct6_eq
  have h25 : w.getLsbD 25 = funct7.getLsbD 0 := by simp [funct7]
  rw [h26, h25] at h
  clear_value opcode funct3 funct7
  rcases h with ⟨hx, rfl, rfl | rfl, hbit⟩ | ⟨hx, rfl | rfl⟩ | ⟨hx, rfl, h3⟩ | ⟨hx, rfl, rfl⟩ | ⟨rfl, hbit, rfl⟩
    | ⟨rfl, hbit, rfl, h6⟩ | ⟨rfl, h3⟩ | ⟨rfl, rfl⟩ | ⟨rfl, h3⟩ | ⟨rfl, h3⟩ | ⟨rfl, h3⟩ | ⟨rfl, rfl, h6⟩
    | ⟨rfl, rfl, h6⟩ | ⟨rfl, rfl, h6⟩ | ⟨rfl, rfl, h7⟩ | ⟨rfl, h7, h73⟩ | ⟨rfl, h73⟩ | ⟨rfl, hecall, hebreak⟩
  · obtain h | h := (usedCodes_opImm_left.1 (hused (by decide))).1
    · cases hx.symm.trans h
    · cases hbit.symm.trans h
  · obtain h | h := (usedCodes_opImm_right.1 (hused (by decide))).1
    · cases hx.symm.trans h
    · cases hbit.symm.trans h
  · simpa [hx] using (usedCodes_opImm32.1 (hused (by decide))).1
  · simpa [hx] using (usedCodes_op32.1 (hused (by decide))).1
  · rcases h3 with rfl | rfl <;> simpa [hx] using (usedCodes_load.1 (hused (by decide))).2
  · simpa [hx] using (usedCodes_store.1 (hused (by decide))).2
  · obtain ⟨-, h0 | ⟨h1, -⟩ | ⟨-, h7⟩⟩ := usedCodes_opImm32.1 (hused (by decide))
    · cases h0
    · cases h1
    · rcases List.mem_pair.1 h7 with rfl | rfl <;> cases hbit
  · obtain ⟨-, h0 | ⟨-, rfl | h⟩ | ⟨h5, -⟩⟩ := usedCodes_opImm32.1 (hused (by decide))
    · cases h0
    · cases hbit
    · exact h6 h
    · cases h5
  · obtain ⟨-, rfl | ⟨rfl, -⟩ | ⟨rfl, -⟩⟩ := usedCodes_opImm32.1 (hused (by decide)) <;> simp at h3
  · exact (usedCodes_load.1 (hused (by decide))).1 rfl
  · exact absurd h3 (BitVec.not_le.2 (usedCodes_store.1 (hused (by decide))).1)
  · exact h3.elim (usedCodes_branch.1 (hused (by decide))).1 (usedCodes_branch.1 (hused (by decide))).2
  · exact h3 (usedCodes_jalr.1 (hused (by decide)))
  · exact h6 (usedCodes_opImm_left.1 (hused (by decide))).2
  · exact h6 (usedCodes_opImm_right.1 (hused (by decide))).2
  · obtain ⟨-, h0 | ⟨-, rfl | h⟩ | ⟨h5, -⟩⟩ := usedCodes_opImm32.1 (hused (by decide))
    · cases h0
    · simp at h6
    · simp [h] at h6
    · cases h5
  · obtain ⟨-, h0 | ⟨h1, -⟩ | ⟨-, h⟩⟩ := usedCodes_opImm32.1 (hused (by decide))
    · cases h0
    · cases h1
    · exact h7 h
  · exact (usedCodes_op.1 (hused (by decide))).elim h7 h73
  · exact h73 (usedCodes_op32.1 (hused (by decide))).2
  · exact (hsystem rfl).elim hecall hebreak

end Sys2Proof
end

section
/-! The pseudo-instruction `li` (spec/30_encoding.md R98): its upper and lower part add up to the immediate, and its
expansion leaves it. -/

namespace Sys2Proof.Machine

/-! ## The parts of an immediate -/

theorem toNat_lo12 (v : BitVec 32) : (lo12 v).toNat = v.toNat % 4096 := by
  simp [lo12, BitVec.extractLsb'_toNat]

theorem toNat_hi20 (v : BitVec 32) : (hi20 v).toNat = (v.toNat + 2048) % 2 ^ 32 / 4096 := by
  have hlt : (v.toNat + 2048) % 2 ^ 32 / 4096 < 2 ^ 20 := by omega
  rw [hi20, BitVec.extractLsb'_toNat, Nat.shiftRight_eq_div_pow, BitVec.toNat_add]
  exact Nat.mod_eq_of_lt hlt

/-- R98: `hi(v)` above twelve zeros and `lo(v)` sign-extended add up to `v`. -/
theorem immU_hi20_add_imm12_lo12 (v : BitVec 32) : immU 32 (hi20 v) + imm12 32 (lo12 v) = v := by
  have hupper : (immU 32 (hi20 v)).toNat = (v.toNat + 2048) % 2 ^ 32 / 4096 * 4096 := by
    rw [← toNat_hi20, immU, BitVec.signExtend_eq, BitVec.toNat_append]
    simp [Nat.shiftLeft_eq]
  have hlower : (imm12 32 (lo12 v)).toNat = v.toNat % 4096 + if 2048 ≤ v.toNat % 4096 then 2 ^ 32 - 4096 else 0 := by
    rw [← toNat_lo12, imm12, BitVec.toNat_signExtend, BitVec.toNat_setWidth]
    have hsmall : (lo12 v).toNat % 2 ^ 32 = (lo12 v).toNat := Nat.mod_eq_of_lt (by omega)
    have hmsb : (lo12 v).msb = decide (2048 ≤ (lo12 v).toNat) := BitVec.msb_eq_decide ..
    simp only [hsmall, hmsb, decide_eq_true_eq]
  apply BitVec.eq_of_toNat_eq
  rw [BitVec.toNat_add, hupper, hlower]
  have hv := v.isLt
  split <;> omega

theorem setWidth_signExtend {w v k : Nat} (x : BitVec w) (h : k ≤ v) :
    (x.signExtend v).setWidth k = x.signExtend k := by
  ext i hi
  have hiv : i < v := Nat.lt_of_lt_of_le hi h
  simp [BitVec.getElem_signExtend, hiv]

/-- R98, R122: with XLEN = 64 the parts add up in the low 32 bits, which ADDIW sign-extends. -/
theorem sextW_immU_hi20_add_imm12_lo12 (v : BitVec 32) :
    sextW 64 (low32 (immU 64 (hi20 v) + imm12 64 (lo12 v))) = v.signExtend 64 := by
  have hlow : low32 (immU 64 (hi20 v) + imm12 64 (lo12 v)) = immU 32 (hi20 v) + imm12 32 (lo12 v) :=
    (BitVec.setWidth_add _ _ (by decide)).trans
      (congrArg₂ (· + ·) (setWidth_signExtend _ (by decide)) (setWidth_signExtend _ (by decide)))
  rw [hlow, immU_hi20_add_imm12_lo12, sextW]

/-! ## Two instructions in a row -/

/-- Instructions run one after another, each in the state the one before left, up to an outcome that is none. -/
def runAll (is : List Instr) (s : State) : Except StepOutcome State :=
  is.foldlM (m := Except StepOutcome) (fun t i => match exec i t with | .next u => .ok u | o => .error o) s

theorem runAll_cons {i : Instr} {is : List Instr} {s t : State} (h : exec i s = .next t) :
    runAll (i :: is) s = runAll is t := by
  simp only [runAll, List.foldlM_cons, h]
  rfl

/-- Running the instructions leaves the value in `rd`, unless `rd` is x0, and the pc past them, and changes nothing
else. -/
def LeavesInteger (is : List Instr) (s : State) (rd : Reg) (value : Int) : Prop :=
  ∃ h : s.HartOf, runAll is s = .ok (s.withHart h) ∧ (rd ≠ 0 → (h.x rd).toInt = value) ∧ s.Keeps h rd
    ∧ h.pc = s.pc + BitVec.ofNat _ (4 * is.length)

/-- What two changes both keep, they keep in a row. -/
theorem State.Keeps.trans {s : State} {h k : s.HartOf} {rd : Reg} (hh : s.Keeps h rd)
    (hk : (s.withHart h).Keeps k rd) : s.Keeps k rd where
  zero := hk.zero
  registers r hr := (hk.registers r hr).trans (hh.registers r hr)
  bytes a := (hk.bytes a).trans (hh.bytes a)
  status := hk.status.trans hh.status

theorem leavesInteger_of_completes {i : Instr} {s : State} {rd : Reg} {value : Int}
    (h : Completes i s rd fun v => v.toInt = value) : LeavesInteger [i] s rd value := by
  obtain ⟨h, he, hv, hk, hpc⟩ := h
  exact ⟨h, runAll_cons he, hv, hk, hpc⟩

theorem leavesInteger_of_completes₂ {i j : Instr} {s : State} {rd : Reg} {value : Int} {p : s.Word → Prop}
    (hi : Completes i s rd p)
    (hj : ∀ h : s.HartOf, (rd ≠ 0 → p (h.x rd)) →
      Completes j (s.withHart h) rd fun v => rd ≠ 0 → v.toInt = value) : LeavesInteger [i, j] s rd value := by
  obtain ⟨h, he, hv, hk, hpc⟩ := hi
  obtain ⟨k, he', hv', hk', hpc'⟩ := hj h hv
  refine ⟨k, (runAll_cons he).trans (runAll_cons he'), fun h0 => hv' h0 h0, hk.trans hk', ?_⟩
  rw [hpc', State.withHart_pc, hpc, BitVec.add_assoc]
  exact congrArg (s.pc + ·) (BitVec.ofNat_add 4 4).symm

/-! ## The expansions -/

theorem completes_lui {s : State} {rd : Reg} (hrd : rd.val < s.cfg.nreg.count) (imm : BitVec 20) :
    Completes (.lui rd imm) s rd (· = immU _ imm) := completes_of_retire rfl hrd rfl

/-- R98: one ADDI where 12 bits hold the immediate. -/
theorem leavesInteger_expandLi_of_fits {s : State} {rd : Reg} (hrd : rd.val < s.cfg.nreg.count) {imm : BitVec 32}
    (hfits : (imm.extractLsb' 0 12).signExtend 32 = imm) :
    LeavesInteger (expandLi s.cfg.xlen rd imm) s rd imm.toInt := by
  unfold expandLi
  rw [if_pos hfits]
  refine leavesInteger_of_completes (completes_of_retire rfl hrd ?_)
  have hbits : 12 ≤ s.bits := Nat.le_trans (by decide) s.thirtyTwo_le_bits
  calc (0#s.bits + imm12 s.bits (imm.extractLsb' 0 12)).toInt
      = (imm.extractLsb' 0 12).toInt := by rw [BitVec.zero_add, imm12, BitVec.toInt_signExtend_of_le hbits]
    _ = ((imm.extractLsb' 0 12).signExtend 32).toInt := (BitVec.toInt_signExtend_of_le (by decide)).symm
    _ = imm.toInt := by rw [hfits]

/-- R98: LUI of the upper part, then ADDI of the lower, or ADDIW with XLEN = 64. -/
theorem leavesInteger_expandLi_of_not_fits {s : State} {rd : Reg} (hrd : rd.val < s.cfg.nreg.count) {imm : BitVec 32}
    (hfits : (imm.extractLsb' 0 12).signExtend 32 ≠ imm) :
    LeavesInteger (expandLi s.cfg.xlen rd imm) s rd imm.toInt := by
  unfold expandLi
  rw [if_neg hfits]
  refine leavesInteger_of_completes₂ (completes_lui hrd _) fun h hupper => ?_
  obtain ⟨⟨x, n, vs, mis, acc, ce, hook⟩, hart⟩ := s
  cases x with
  | rv32 =>
    refine completes_of_retire rfl hrd fun h0 => ?_
    rw [State.withHart_x, hupper h0]
    exact congrArg BitVec.toInt (immU_hi20_add_imm12_lo12 imm)
  | rv64 =>
    refine completes_of_retire rfl hrd fun h0 => ?_
    rw [State.withHart_x, hupper h0]
    exact (congrArg BitVec.toInt (sextW_immU_hi20_add_imm12_lo12 imm)).trans
      (BitVec.toInt_signExtend_of_le (by decide))

/-- Settles O22: the immediate fits 12 bits or not, and either expansion leaves it. -/
theorem liLoadsItsImmediate : Obligations.LiLoadsItsImmediate := by
  unfold Obligations.LiLoadsItsImmediate
  intro s rd imm hrd
  by_cases hfits : (imm.extractLsb' 0 12).signExtend 32 = imm
  · exact leavesInteger_expandLi_of_fits hrd hfits
  · exact leavesInteger_expandLi_of_not_fits hrd hfits

end Sys2Proof.Machine
end

section
/-! What a step fetches and runs (spec/30_encoding.md R61; 60_exceptions.md R300, R303), and words written out from the
encodings (R89, 95_test_vectors.md). -/

namespace Sys2Proof.Machine

/-- Settles O11: each word is decoded by the reference composite. -/
theorem sampleWordsDecode : Obligations.SampleWordsDecode := by
  unfold Obligations.SampleWordsDecode
  decide +kernel

/-- The four bytes from an aligned pc on do not come round to address 0. -/
theorem State.pc_add_mod {s : State} (ha : s.pc.toNat % 4 = 0) {j : Nat} (hj : j < 4) :
    (s.pc.toNat + j) % 2 ^ s.bits = s.pc.toNat + j := by
  have hpc : s.pc.toNat < 2 ^ s.bits := s.pc.isLt
  have hdvd : 4 ∣ 2 ^ s.bits := Nat.pow_dvd_pow 2 (Nat.le_trans (by decide : 2 ≤ 32) s.thirtyTwo_le_bits)
  exact Nat.mod_eq_of_lt (by omega)

theorem Memory.load_one {w : Nat} (m : Memory) (addr : BitVec w) : m.load addr 1 = m.read addr.toNat :=
  BitVec.zero_width_append ..

/-- R41, R44: four bytes from an address on, the lowest address last, each address modulo 2^w. -/
theorem Memory.load_four {w : Nat} (m : Memory) (addr : BitVec w) :
    m.load addr 4 = m.read ((addr.toNat + 3) % 2 ^ w) ++ m.read ((addr.toNat + 2) % 2 ^ w)
      ++ m.read ((addr.toNat + 1) % 2 ^ w) ++ m.read addr.toNat := by
  have h2 : (addr + 1 + 1).toNat = (addr.toNat + 2) % 2 ^ w := by rw [toNat_add_one, toNat_add_one, Nat.mod_add_mod]
  have h3 : (addr + 1 + 1 + 1).toNat = (addr.toNat + 3) % 2 ^ w := by rw [toNat_add_one, h2, Nat.mod_add_mod]
  rw [← toNat_add_one, ← h2, ← h3, ← Memory.load_one m (addr + 1 + 1 + 1)]
  rfl

/-- R61, R43: at an aligned pc the fetched word is the four bytes from the pc on, the lowest address last. -/
theorem State.fetch_eq_bytes {s : State} (ha : s.pc.toNat % 4 = 0) (hs : s.served .fetch s.pc 4) :
    s.fetch = some (s.byteAt (s.pc.toNat + 3) ++ s.byteAt (s.pc.toNat + 2) ++ s.byteAt (s.pc.toNat + 1)
      ++ s.byteAt (s.pc.toNat + 0)) := by
  rw [State.fetch_of_served hs, Memory.load_four, State.pc_add_mod ha (j := 3) (by decide),
    State.pc_add_mod ha (j := 2) (by decide), State.pc_add_mod ha (j := 1) (by decide)]
  rfl

/-- R61: four bytes that decode are those of a word that decodes. -/
theorem decodeWord_of_decodeBytes {c : Config} {b0 b1 b2 b3 : Byte} {d : Decoded}
    (h : decodeBytes c [b0, b1, b2, b3] = .ok (d, [])) : decodeWord c (b3 ++ b2 ++ b1 ++ b0) = some d := by
  unfold decodeBytes at h
  cases hd : decodeWord c (b3 ++ b2 ++ b1 ++ b0) with
  | none => simp [hd] at h
  | some d' => simpa [hd] using h

/-- Settles O49: the bytes at the pc are the fetched word, which decodes to a well-formed instruction. -/
theorem stepRunsTheDecodedInstruction : Obligations.StepRunsTheDecodedInstruction := by
  unfold Obligations.StepRunsTheDecodedInstruction
  intro s d hr ha hs hbytes
  have hd := decodeWord_of_decodeBytes hbytes
  exact ⟨step_of_ok hr (State.prepare_of_decoded ha (State.fetch_eq_bytes ha hs) hd), (wf_of_decodeWord hd).1⟩

end Sys2Proof.Machine
end

section
/-! The operands and results of the integer computational instructions as integers and bits: the immediates, sums,
differences, comparisons and shifts of words, and the low halves of the W forms (spec/30_encoding.md R65;
40_integer_computational.md R100). -/

namespace Sys2Proof.Machine

variable {w : Nat}

/-! ## Immediates -/

theorem imm12_eq_ofInt (w : Nat) (imm : BitVec 12) : imm12 w imm = BitVec.ofInt w imm.toInt := rfl

theorem toInt_imm12 (hw : 12 ≤ w) (imm : BitVec 12) : (imm12 w imm).toInt = imm.toInt :=
  BitVec.toInt_signExtend_of_le hw

/-- R65: bit `k` of a sign-extended 12-bit immediate above bit 11 is its bit 11. -/
theorem getLsbD_imm12 {k : Nat} (hk : k < w) (imm : BitVec 12) :
    (imm12 w imm).getLsbD k = imm.getLsbD (min k 11) := by
  rw [imm12, BitVec.getLsbD_signExtend, decide_eq_true hk, Bool.true_and]
  split
  case isTrue h => rw [Nat.min_eq_left (Nat.le_of_lt_succ h)]
  case isFalse h => rw [Nat.min_eq_right (by omega), BitVec.msb_eq_getLsbD_last]

theorem toInt_append_zero12 (imm : BitVec 20) : (imm ++ (0 : BitVec 12)).toInt = imm.toInt * 4096 :=
  BitVec.toInt_append_zero.trans (Int.mul_comm ..)

theorem immU_eq_ofInt (w : Nat) (imm : BitVec 20) : immU w imm = BitVec.ofInt w (imm.toInt * 4096) :=
  congrArg (BitVec.ofInt w) (toInt_append_zero12 imm)

/-- R65: the U immediate is the field times 4096, sign-extended. -/
theorem toInt_immU (hw : 32 ≤ w) (imm : BitVec 20) : (immU w imm).toInt = imm.toInt * 4096 :=
  (BitVec.toInt_signExtend_of_le hw).trans (toInt_append_zero12 imm)

/-! ## Sums and differences: the words of the integers' -/

theorem ofInt_toNat (a : BitVec w) : BitVec.ofInt w a.toNat = a := by
  rw [BitVec.ofInt_natCast, BitVec.ofNat_toNat, BitVec.setWidth_eq]

theorem add_ofInt (a : BitVec w) (z : Int) : a + BitVec.ofInt w z = BitVec.ofInt w (a.toNat + z) := by
  rw [BitVec.ofInt_add, ofInt_toNat]

theorem add_eq_ofInt (a b : BitVec w) : a + b = BitVec.ofInt w (a.toNat + b.toNat) := by
  rw [← add_ofInt, ofInt_toNat]

theorem sub_eq_ofInt (a b : BitVec w) : a - b = BitVec.ofInt w (a.toNat - b.toNat) := by
  rw [BitVec.sub_eq_add_neg, Int.sub_eq_add_neg, ← add_ofInt, BitVec.ofInt_neg, ofInt_toNat]

theorem cast_toNat_ofInt (w : Nat) (z : Int) : ((BitVec.ofInt w z).toNat : Int) = z % 2 ^ w := by
  rw [BitVec.toNat_ofInt, Int.toNat_of_nonneg (Int.emod_nonneg z (by positivity)), Nat.cast_pow, Nat.cast_ofNat]

theorem cast_toNat_imm12 (w : Nat) (imm : BitVec 12) : ((imm12 w imm).toNat : Int) = imm.toInt % 2 ^ w :=
  cast_toNat_ofInt ..

theorem cast_toNat_add_imm12 (a : BitVec w) (imm : BitVec 12) :
    ((a + imm12 w imm).toNat : Int) = (a.toNat + imm.toInt) % 2 ^ w := by
  rw [imm12_eq_ofInt, add_ofInt, cast_toNat_ofInt]

theorem cast_toNat_sub (a b : BitVec w) : ((a - b).toNat : Int) = ((a.toNat : Int) - b.toNat) % 2 ^ w := by
  rw [sub_eq_ofInt, cast_toNat_ofInt]

/-! ## Comparisons -/

theorem toNat_boolWord (hw : 0 < w) (b : Bool) : (boolWord w b).toNat = if b then 1 else 0 := by
  cases b
  case false => exact BitVec.toNat_zero
  case true => exact BitVec.toNat_one hw

theorem toNat_boolWord_ltS (hw : 0 < w) (a b : BitVec w) :
    (boolWord w (ltS a b)).toNat = if a.toInt < b.toInt then 1 else 0 := by
  simp only [toNat_boolWord hw, ltS, decide_eq_true_eq]

theorem toNat_boolWord_ltU (hw : 0 < w) (a b : BitVec w) :
    (boolWord w (ltU a b)).toNat = if a.toNat < b.toNat then 1 else 0 := by
  simp only [toNat_boolWord hw, ltU, decide_eq_true_eq]

/-! ## Shifts: products and quotients by a power of 2 -/

theorem toNat_shiftLeft_eq_mul (a : BitVec w) (k : Nat) : (a <<< k).toNat = a.toNat * 2 ^ k % 2 ^ w := by
  rw [BitVec.toNat_shiftLeft, Nat.shiftLeft_eq]

theorem toNat_ushiftRight_eq_div (a : BitVec w) (k : Nat) : (a >>> k).toNat = a.toNat / 2 ^ k := by
  rw [BitVec.toNat_ushiftRight, Nat.shiftRight_eq_div_pow]

theorem toInt_sshiftRight_eq_div (a : BitVec w) (k : Nat) : (a.sshiftRight k).toInt = a.toInt / 2 ^ k := by
  rw [BitVec.toInt_sshiftRight, Int.shiftRight_eq_div_pow, Nat.cast_pow, Nat.cast_ofNat]

/-! ## The results of the W forms -/

theorem toNat_low32 (a : BitVec w) : (low32 a).toNat = a.toNat % 2 ^ 32 := BitVec.toNat_setWidth ..

theorem toInt_low32 (a : BitVec w) : (low32 a).toInt = (a.toNat : Int).bmod (2 ^ 32) := BitVec.toInt_setWidth ..

/-- R100: the value a W form writes is that of its 32-bit result. -/
theorem toInt_sextW (hw : 32 ≤ w) (v : BitVec 32) : (sextW w v).toInt = v.toInt := BitVec.toInt_signExtend_of_le hw

/-- R100: the upper half of the word of an integer does not affect the result. -/
theorem toInt_sextW_low32_ofInt (hw : 32 ≤ w) (z : Int) :
    (sextW w (low32 (BitVec.ofInt w z))).toInt = z.bmod (2 ^ 32) := by
  have hdvd : 2 ^ 32 ∣ 2 ^ w := Nat.pow_dvd_pow 2 hw
  rw [toInt_sextW hw, toInt_low32, ← Int.bmod_bmod_of_dvd hdvd, ← BitVec.toInt_eq_toNat_bmod, BitVec.toInt_ofInt,
    Int.bmod_bmod_of_dvd hdvd]

theorem toInt_sextW_low32_add_imm12 (hw : 32 ≤ w) (a : BitVec w) (imm : BitVec 12) :
    (sextW w (low32 (a + imm12 w imm))).toInt = ((a.toNat : Int) + imm.toInt).bmod (2 ^ 32) := by
  rw [imm12_eq_ofInt, add_ofInt, toInt_sextW_low32_ofInt hw]

theorem toInt_sextW_low32_add (hw : 32 ≤ w) (a b : BitVec w) :
    (sextW w (low32 (a + b))).toInt = ((a.toNat : Int) + b.toNat).bmod (2 ^ 32) := by
  rw [add_eq_ofInt, toInt_sextW_low32_ofInt hw]

theorem toInt_sextW_low32_sub (hw : 32 ≤ w) (a b : BitVec w) :
    (sextW w (low32 (a - b))).toInt = ((a.toNat : Int) - b.toNat).bmod (2 ^ 32) := by
  rw [sub_eq_ofInt, toInt_sextW_low32_ofInt hw]

theorem toInt_sextW_shiftLeft (hw : 32 ≤ w) (a : BitVec w) (k : Nat) :
    (sextW w (low32 a <<< k)).toInt = ((a.toNat % 2 ^ 32 * 2 ^ k : Nat) : Int).bmod (2 ^ 32) := by
  rw [toInt_sextW hw, BitVec.toInt_shiftLeft, Nat.shiftLeft_eq, toNat_low32]

theorem toInt_sextW_ushiftRight (hw : 32 ≤ w) (a : BitVec w) (k : Nat) :
    (sextW w (low32 a >>> k)).toInt = ((a.toNat % 2 ^ 32 / 2 ^ k : Nat) : Int).bmod (2 ^ 32) := by
  rw [toInt_sextW hw, BitVec.toInt_eq_toNat_bmod, toNat_ushiftRight_eq_div, toNat_low32]

theorem toInt_sextW_sshiftRight (hw : 32 ≤ w) (a : BitVec w) (k : Nat) :
    (sextW w ((low32 a).sshiftRight k)).toInt = (a.toNat : Int).bmod (2 ^ 32) / 2 ^ k := by
  rw [toInt_sextW hw, toInt_sshiftRight_eq_div, toInt_low32]

end Sys2Proof.Machine
end

section
/-! The integer computational instructions (spec/40_integer_computational.md): each retires, with the value its
operands' integers or bits give. -/

namespace Sys2Proof.Machine

theorem State.bits_pos (s : State) : 0 < s.bits := Nat.lt_of_lt_of_le (by decide) s.thirtyTwo_le_bits

theorem State.twelve_le_bits (s : State) : 12 ≤ s.bits := Nat.le_trans (by decide) s.thirtyTwo_le_bits

/-- Settles O23: the U immediate is its field times 4096, and the pc plus that is the word of the integer sum. -/
theorem upperImmediates : Obligations.UpperImmediates := by
  unfold Obligations.UpperImmediates
  intro s rd imm hrd
  have hauipc : s.pc + immU s.bits imm = BitVec.ofInt s.bits (s.pc.toNat + imm.toInt * 4096) := by
    rw [immU_eq_ofInt, add_ofInt]
  exact ⟨completes_of_retire rfl hrd (toInt_immU s.thirtyTwo_le_bits imm), completes_of_retire rfl hrd hauipc⟩

/-- Settles O24: each result is the word of the integer sum or difference. -/
theorem additionAndSubtraction : Obligations.AdditionAndSubtraction := by
  unfold Obligations.AdditionAndSubtraction
  intro s rd rs1 rs2 imm hrd
  exact ⟨completes_of_retire rfl hrd (cast_toNat_add_imm12 _ imm), completes_of_retire rfl hrd (BitVec.toNat_add ..),
    completes_of_retire rfl hrd (cast_toNat_sub ..)⟩

/-- Settles O25: each result is the word of the comparison; of a sign-extended immediate the signed value is the
field's, and the unsigned one the field's modulo 2^XLEN. -/
theorem comparisons : Obligations.Comparisons := by
  unfold Obligations.Comparisons
  intro s rd rs1 rs2 imm hrd
  refine ⟨completes_of_retire rfl hrd ?slti, completes_of_retire rfl hrd ?sltiu,
    completes_of_retire rfl hrd (toNat_boolWord_ltS s.bits_pos ..),
    completes_of_retire rfl hrd (toNat_boolWord_ltU s.bits_pos ..)⟩
  case slti =>
    rw [toNat_boolWord_ltS s.bits_pos, toInt_imm12 s.twelve_le_bits, State.xInt]
  case sltiu =>
    rw [toNat_boolWord_ltU s.bits_pos, ← cast_toNat_imm12, State.xNat]
    simp only [Int.ofNat_lt]

/-- Settles O26: a bit of the result is the operation of the operands' bits, and a bit of the immediate above bit 11
is its bit 11. -/
theorem bitwiseLogic : Obligations.BitwiseLogic := by
  unfold Obligations.BitwiseLogic
  intro s rd rs1 rs2 imm hrd a b c
  have himm : ∀ k, k < s.bits → (imm12 s.bits imm).getLsbD k = c k := fun k hk => getLsbD_imm12 hk imm
  exact ⟨completes_of_retire rfl hrd fun k hk => BitVec.getLsbD_xor.trans (congrArg (a k ^^ ·) (himm k hk)),
    completes_of_retire rfl hrd fun k hk => BitVec.getLsbD_or.trans (congrArg (a k || ·) (himm k hk)),
    completes_of_retire rfl hrd fun k hk => BitVec.getLsbD_and.trans (congrArg (a k && ·) (himm k hk)),
    completes_of_retire rfl hrd fun _ _ => BitVec.getLsbD_xor,
    completes_of_retire rfl hrd fun _ _ => BitVec.getLsbD_or,
    completes_of_retire rfl hrd fun _ _ => BitVec.getLsbD_and⟩

/-- Settles O27: a shift multiplies or divides by the power of 2, whatever the amount. -/
theorem immediateShifts : Obligations.ImmediateShifts := by
  unfold Obligations.ImmediateShifts
  intro s rd rs1 shamt hrd _
  exact ⟨completes_of_retire rfl hrd (toNat_shiftLeft_eq_mul ..),
    completes_of_retire rfl hrd (toNat_ushiftRight_eq_div ..),
    completes_of_retire rfl hrd (toInt_sshiftRight_eq_div ..)⟩

/-- Settles O28: the same shifts, by the second register modulo XLEN. -/
theorem registerShifts : Obligations.RegisterShifts := by
  unfold Obligations.RegisterShifts
  intro s rd rs1 rs2 hrd amount
  exact ⟨completes_of_retire rfl hrd (toNat_shiftLeft_eq_mul ..),
    completes_of_retire rfl hrd (toNat_ushiftRight_eq_div ..),
    completes_of_retire rfl hrd (toInt_sshiftRight_eq_div ..)⟩

/-- Settles O29: the low half of the word of the integer sum or difference, sign-extended. -/
theorem wordAdditionAndSubtraction : Obligations.WordAdditionAndSubtraction := by
  unfold Obligations.WordAdditionAndSubtraction
  intro s rd rs1 rs2 imm hrd _
  have hw := s.thirtyTwo_le_bits
  exact ⟨completes_of_retire rfl hrd (toInt_sextW_low32_add_imm12 hw _ imm),
    completes_of_retire rfl hrd (toInt_sextW_low32_add hw ..),
    completes_of_retire rfl hrd (toInt_sextW_low32_sub hw ..)⟩

/-- Settles O30: the 32-bit shifts of the low half, sign-extended. -/
theorem wordShifts : Obligations.WordShifts := by
  unfold Obligations.WordShifts
  intro s rd rs1 rs2 shamt hrd _ low signedLow amount
  have hw := s.thirtyTwo_le_bits
  exact ⟨completes_of_retire rfl hrd (toInt_sextW_shiftLeft hw ..),
    completes_of_retire rfl hrd (toInt_sextW_ushiftRight hw ..),
    completes_of_retire rfl hrd (toInt_sextW_sshiftRight hw ..),
    completes_of_retire rfl hrd (toInt_sextW_shiftLeft hw ..),
    completes_of_retire rfl hrd (toInt_sextW_ushiftRight hw ..),
    completes_of_retire rfl hrd (toInt_sextW_sshiftRight hw ..)⟩

end Sys2Proof.Machine
end

section
/-! Jumps and branches (spec/41_control_transfer.md): their targets as words of integers, their conditions, and the jump
to itself, whose run never ends (60_exceptions.md R335). -/

namespace Sys2Proof.Machine

variable {w : Nat}

/-! ## Offsets -/

/-- R65: a field above its unencoded bit 0, sign-extended, is twice the field. -/
theorem signExtend_append_bit0 {k : Nat} (w : Nat) (off : BitVec k) :
    (off ++ (0 : BitVec 1)).signExtend w = BitVec.ofInt w (2 * off.toInt) :=
  congrArg (BitVec.ofInt w) BitVec.toInt_append_zero

theorem add_immJ (pc : BitVec w) (off : BitVec 20) : pc + immJ w off = BitVec.ofInt w (pc.toNat + 2 * off.toInt) := by
  rw [immJ, signExtend_append_bit0, add_ofInt]

theorem add_immB (pc : BitVec w) (off : BitVec 12) : pc + immB w off = BitVec.ofInt w (pc.toNat + 2 * off.toInt) := by
  rw [immB, signExtend_append_bit0, add_ofInt]

/-! ## Clearing bit 0 -/

theorem ofInt_two_mul (w : Nat) (q : Int) : BitVec.ofInt w (2 * q) = BitVec.ofInt w q <<< 1 := by
  have htwo : BitVec.ofInt w 2 = BitVec.twoPow w 1 := BitVec.eq_of_toNat_eq (by simp)
  rw [BitVec.ofInt_mul, htwo, BitVec.mul_comm, BitVec.shiftLeft_eq_mul_twoPow]

theorem shiftLeft_one_and_one (a : BitVec w) : a <<< 1 &&& 1#w = 0#w := by
  ext k hk
  by_cases h0 : k = 0
  · simp [h0]
  · simp [h0, BitVec.getElem_one]

theorem and_not_one_of_even {a : BitVec w} (ha : a &&& 1#w = 0#w) : a &&& ~~~1#w = a :=
  calc a &&& ~~~1#w
      = a &&& 1#w ||| a &&& ~~~1#w := by rw [ha, BitVec.zero_or]
    _ = a := by rw [← BitVec.and_or_distrib_left, BitVec.or_not_self, BitVec.and_allOnes]

theorem add_one_and_not_one_of_even {a : BitVec w} (ha : a &&& 1#w = 0#w) : (a + 1#w) &&& ~~~1#w = a :=
  calc (a + 1#w) &&& ~~~1#w
      = (a ||| 1#w) &&& ~~~1#w := by rw [BitVec.add_eq_or_of_and_eq_zero a 1#w ha]
    _ = a &&& ~~~1#w ||| 1#w &&& ~~~1#w := BitVec.and_or_distrib_right
    _ = a := by rw [and_not_one_of_even ha, BitVec.and_not_self]; exact BitVec.or_zero

/-- R152: clearing bit 0 of the word of an integer leaves the word of twice its half, rounded down. -/
theorem ofInt_and_not_one (w : Nat) (z : Int) : BitVec.ofInt w z &&& ~~~1#w = BitVec.ofInt w (2 * (z / 2)) := by
  have heven : BitVec.ofInt w (2 * (z / 2)) &&& 1#w = 0#w := by rw [ofInt_two_mul, shiftLeft_one_and_one]
  rcases Int.emod_two_eq_zero_or_one z with hz | hz
  · have hz' : z = 2 * (z / 2) := by omega
    rw [← hz'] at heven ⊢
    exact and_not_one_of_even heven
  · have hz' : z = 2 * (z / 2) + (1 : Nat) := by omega
    have hword : BitVec.ofInt w z = BitVec.ofInt w (2 * (z / 2)) + 1#w := by
      rw [← BitVec.ofInt_natCast w 1, ← BitVec.ofInt_add, ← hz']
    rw [hword, add_one_and_not_one_of_even heven]

theorem add_imm12_and_not_one (a : BitVec w) (imm : BitVec 12) :
    (a + imm12 w imm) &&& ~~~1#w = BitVec.ofInt w (2 * ((a.toInt + imm.toInt) / 2)) := by
  rw [← ofInt_and_not_one, BitVec.ofInt_add, BitVec.ofInt_toInt, imm12_eq_ofInt]

/-! ## Jumps -/

/-- R150: a jump leaves in `rd` the word of the pc plus 4, at whatever target. -/
theorem completesAt_of_link_eq {i : Instr} {s : State} {rd : Reg} {target nextPc : s.Word}
    (he : exec i s = s.link rd target) (hrd : rd.val < s.cfg.nreg.count) (ht : target = nextPc) :
    CompletesAt i s rd (fun v => v.toNat = (s.pc.toNat + 4) % 2 ^ s.bits) nextPc := by
  obtain ⟨h, hexec, hlink, hkeeps, hpc⟩ := completesAt_of_link he hrd
  exact ⟨h, hexec, fun h0 => (congrArg BitVec.toNat (hlink h0)).trans (toNat_add_ofNat s.pc 4), hkeeps, hpc.trans ht⟩

/-- Settles O31: both jumps link, and their targets are the words of the integer sums, of which JALR's is made even. -/
theorem jumpsLinkAndGo : Obligations.JumpsLinkAndGo := by
  unfold Obligations.JumpsLinkAndGo
  intro s rd rs1 off imm hrd
  exact ⟨completesAt_of_link_eq rfl hrd (add_immJ s.pc off),
    completesAt_of_link_eq rfl hrd (add_imm12_and_not_one (s.x rs1) imm)⟩

/-! ## Branches -/

theorem ltS_iff (a b : BitVec w) : ltS a b = true ↔ a.toInt < b.toInt := decide_eq_true_iff

theorem ltU_iff (a b : BitVec w) : ltU a b = true ↔ a.toNat < b.toNat := decide_eq_true_iff

theorem not_ltS_iff (a b : BitVec w) : (!ltS a b) = true ↔ b.toInt ≤ a.toInt := by
  rw [Bool.not_eq_true', ← Bool.not_eq_true, ltS_iff, Int.not_lt]

theorem not_ltU_iff (a b : BitVec w) : (!ltU a b) = true ↔ b.toNat ≤ a.toNat := by
  rw [Bool.not_eq_true', ← Bool.not_eq_true, ltU_iff, Nat.not_lt]

/-- A branch whose comparison decides `cond` goes to the pc plus its offset when `cond` holds, else to `pc + 4`. -/
theorem goesTo_of_branch {i : Instr} {s : State} {taken : Bool} {off : BitVec 12} {cond : Prop} [Decidable cond]
    (he : exec i s = s.branch taken off) (hc : taken = true ↔ cond) :
    GoesTo i s (if cond then BitVec.ofInt _ (s.pc.toNat + 2 * off.toInt) else s.pc + 4) := by
  apply goesTo_of_setPc
  rw [he, State.branch_eq, add_immB]
  simp only [hc]

/-- Settles O32: each comparison decides its condition; words are equal where their unsigned values are. -/
theorem branchesGoByTheirCondition : Obligations.BranchesGoByTheirCondition := by
  unfold Obligations.BranchesGoByTheirCondition
  intro s rs1 rs2 off taken next
  have heq : s.x rs1 = s.x rs2 ↔ s.xNat rs1 = s.xNat rs2 := BitVec.toNat_inj.symm
  exact ⟨goesTo_of_branch rfl (beq_iff_eq.trans heq), goesTo_of_branch rfl (bne_iff_ne.trans heq.not),
    goesTo_of_branch rfl (ltS_iff ..), goesTo_of_branch rfl (not_ltS_iff ..),
    goesTo_of_branch rfl (ltU_iff ..), goesTo_of_branch rfl (not_ltU_iff ..)⟩

/-! ## The jump to itself -/

theorem exec_jal_zero (s : State) : exec (.jal 0 0) s = .next s := by
  have htarget : s.pc + immJ s.bits 0 = s.pc := (add_immJ s.pc 0).trans (ofInt_toNat s.pc)
  calc exec (.jal 0 0) s
      = s.link 0 (s.pc + immJ s.bits 0) := rfl
    _ = s.link 0 s.pc := by rw [htarget]
    _ = .next s := by rw [State.link_eq, Hart.setX_zero]; rfl

/-- R335: a running run whose step changes nothing reaches every bound where it began. -/
theorem run_of_step_self {s : State} (hr : s.hart.status = .running) (hstep : step s = .next s) (k : Nat) :
    run k s = .boundReached s := by
  induction k with
  | zero => simp only [run, hr]
  | succ k ih => simp only [run, hr, hstep, ih]

/-- Settles O4: the step runs `jal x0, 0`, which leaves the state as it is. -/
theorem selfJumpReachesEveryBound : Obligations.SelfJumpReachesEveryBound := by
  unfold Obligations.SelfJumpReachesEveryBound
  intro s set k hr ha hf hd
  have hstep : step s = .next s := (step_of_ok hr (State.prepare_of_decoded ha hf hd)).trans (exec_jal_zero s)
  exact run_of_step_self hr hstep k

end Sys2Proof.Machine
end

section
/-! Loads and stores (spec/42_load_store.md): a load the accessor serves retires with the number its bytes hold, as an
unsigned or a signed integer, and a store it serves leaves the bytes of its register. -/

namespace Sys2Proof.Machine

/-- Settles O33: the base plus the word of the offset is the word of the integer sum. -/
theorem effectiveAddress : Obligations.EffectiveAddress := by
  unfold Obligations.EffectiveAddress
  intro s rs1 imm
  exact cast_toNat_add_imm12 (s.x rs1) imm

/-! ## Loads -/

/-- Up to four bytes fit a register of either width. -/
theorem State.eight_mul_le_bits {n : Nat} (s : State) (hn : n ≤ 4) : 8 * n ≤ s.bits :=
  Nat.le_trans (Nat.mul_le_mul_left 8 hn) s.thirtyTwo_le_bits

/-- Eight bytes fit a register of RV64. -/
theorem State.sixtyFour_le_bits_of_rv64 {s : State} (hx : s.cfg.xlen = .rv64) : 64 ≤ s.bits := by
  rw [State.bits, hx]
  decide

/-- R41: zero-extended, `n` bytes that fit the word are the number they hold. -/
theorem toNat_setWidth_load {w n : Nat} (m : Memory) (addr : BitVec w) (hw : 8 * n ≤ w) :
    ((m.load addr n).setWidth w).toNat = bytesValue m w addr.toNat n := by
  rw [BitVec.toNat_setWidth_of_le hw, readIsLittleEndian]

/-- R41: sign-extended, `n` bytes that fit the word are the number they hold as a signed one of `8 * n` bits. -/
theorem toInt_signExtend_load {w n : Nat} (m : Memory) (addr : BitVec w) (hw : 8 * n ≤ w) :
    ((m.load addr n).signExtend w).toInt = (bytesValue m w addr.toNat n : Int).bmod (2 ^ (8 * n)) := by
  rw [BitVec.toInt_signExtend_of_le hw, BitVec.toInt_eq_toNat_bmod, readIsLittleEndian]

/-- R170: a load that is allowed completes, with its bytes extended in `rd`. -/
theorem completes_of_load_served {i : Instr} {s : State} {rd : Reg} {addr : s.Word} {n : Nat}
    {extend : BitVec (8 * n) → s.Word} {result : s.Word → Prop} (he : exec i s = s.loadInto i rd addr n extend)
    (hrd : rd.val < s.cfg.nreg.count) (hv : result (extend (s.hart.mem.load addr n)))
    (h : s.alignmentAllows addr n ∧ s.served .load addr n) : Completes i s rd result :=
  completes_of_retire (he.trans (State.loadInto_of_served (State.misalignedFault_eq_false h.1) h.2 ..)) hrd hv

/-- Settles O34: each load is one access at the effective address, and its bytes fit the register. -/
theorem loadsReadTheirBytes : Obligations.LoadsReadTheirBytes := by
  unfold Obligations.LoadsReadTheirBytes
  intro s rd rs1 imm hrd addr value allowed
  have hsigned (n : Nat) (hn : 8 * n ≤ s.bits) :
      ((s.hart.mem.load addr n).signExtend s.bits).toInt = (value n : Int).bmod (2 ^ (8 * n)) :=
    toInt_signExtend_load s.hart.mem addr hn
  have hunsigned (n : Nat) (hn : 8 * n ≤ s.bits) : ((s.hart.mem.load addr n).setWidth s.bits).toNat = value n :=
    toNat_setWidth_load s.hart.mem addr hn
  exact ⟨completes_of_load_served rfl hrd (hsigned 1 (s.eight_mul_le_bits (by decide))),
    completes_of_load_served rfl hrd (hsigned 2 (s.eight_mul_le_bits (by decide))),
    completes_of_load_served rfl hrd (hsigned 4 (s.eight_mul_le_bits (by decide))),
    completes_of_load_served rfl hrd (hunsigned 1 (s.eight_mul_le_bits (by decide))),
    completes_of_load_served rfl hrd (hunsigned 2 (s.eight_mul_le_bits (by decide))),
    fun _ => completes_of_load_served rfl hrd (hunsigned 4 (s.eight_mul_le_bits (by decide))),
    fun hx => completes_of_load_served rfl hrd (hunsigned 8 (State.sixtyFour_le_bits_of_rv64 hx))⟩

/-! ## Stores -/

/-- A store that is allowed completes: it leaves the low bytes of its register, and every other byte and register. -/
theorem storesBytes_of_served {i : Instr} {s : State} {rs1 rs2 : Reg} {imm : BitVec 12} {n : Nat}
    (hm : s.hart.mem.wf = true) (hi : (i, n) ∈ storeForms rs1 rs2 imm)
    (h : s.alignmentAllows (effAddr s rs1 imm) n ∧ s.served .store (effAddr s rs1 imm) n) :
    StoresBytes i s (effAddr s rs1 imm).toNat n (s.xNat rs2) := by
  obtain ⟨hn, hexec⟩ := exec_of_mem_storeForms hi s
  obtain ⟨halign, hserved⟩ := h
  exact ⟨_, hexec.trans (State.storeFrom_of_served (State.misalignedFault_eq_false halign) hserved i rs2), rfl, rfl,
    fun _ => rfl, fun _ hj => toNat_read_store_reg hm _ rs2 hn hj,
    fun _ ha => Memory.read_store_of_not_inRange hm _ ha⟩

/-- Settles O35: each of the four is a store of its number of bytes. -/
theorem storesWriteTheirBytes : Obligations.StoresWriteTheirBytes := by
  unfold Obligations.StoresWriteTheirBytes
  intro s rs1 rs2 imm hm addr allowed
  exact ⟨storesBytes_of_served hm (by simp), storesBytes_of_served hm (by simp), storesBytes_of_served hm (by simp),
    fun _ => storesBytes_of_served hm (by simp)⟩

end Sys2Proof.Machine
end

section
/-! FENCE, ECALL and EBREAK (spec/43_system.md): the first only moves the pc, the other two only end the run. -/

namespace Sys2Proof.Machine

/-- R190, R193: the effect of FENCE depends on none of its fields. -/
theorem exec_fence (fm pred succ : BitVec 4) (rs1 rd : BitVec 5) (s : State) :
    exec (.fence fm pred succ rs1 rd) s = .next (s.withHart { s.hart with pc := s.pc + 4 }) := rfl

/-- Settles O38: FENCE only moves the pc, and moving the pc keeps everything else. -/
theorem fenceDoesNothing : Obligations.FenceDoesNothing := by
  unfold Obligations.FenceDoesNothing
  intro s fm pred succ rs1 rd
  exact goesTo_of_setPc (exec_fence fm pred succ rs1 rd s)

/-- R191, R192, R306: ECALL and EBREAK break, which sets the status alone. -/
theorem exec_ecall_or_ebreak {i : Instr} (hi : i = .ecall ∨ i = .ebreak) (s : State) :
    exec i s = .next (s.ended .stopped) := by
  rcases hi with rfl | rfl
  · exact s.breakRun_eq
  · exact s.breakRun_eq

/-- Settles O39: the state an ECALL or EBREAK leaves is the given one with another status. -/
theorem ecallAndEbreakStop : Obligations.EcallAndEbreakStop := by
  unfold Obligations.EcallAndEbreakStop
  intro s i hi
  exact ⟨(s.ended .stopped).hart, exec_ecall_or_ebreak hi s, s.ended_status _, s.ended_pc _, s.ended_x _,
    fun a => congrArg (Memory.read · a) (s.ended_mem .stopped)⟩

end Sys2Proof.Machine
end

section
/-! Multiply and divide as arithmetic (spec/44_mul_div.md R200): the two halves of a product as one word, the quotients
and remainders as the library's, and the laws that follow (R216), at every operation width. -/

namespace Sys2Proof.Machine

variable {w : Nat}

/-! ## Products -/

theorem mul_eq_ofInt_toInt (a b : BitVec w) : a * b = BitVec.ofInt w (a.toInt * b.toInt) := by
  rw [BitVec.ofInt_mul, BitVec.ofInt_toInt, BitVec.ofInt_toInt]

theorem mul_eq_ofInt_toNat (a b : BitVec w) : a * b = BitVec.ofInt w (a.toNat * b.toNat) := by
  rw [BitVec.ofInt_mul, ofInt_toNat, ofInt_toNat]

theorem highHalf_eq_ofInt_div (w : Nat) (z : Int) : highHalf w z = BitVec.ofInt w (z / 2 ^ w) := by
  rw [highHalf, Int.shiftRight_eq_div_pow, Nat.cast_pow, Nat.cast_ofNat]

theorem natAbs_toInt_le (a : BitVec w) : a.toInt.natAbs ≤ 2 ^ (w - 1) := by
  have hlo := a.le_toInt
  have hhi := a.toInt_lt
  zify
  exact abs_le.2 ⟨hlo, hhi.le⟩

theorem natAbs_toInt_lt (hw : 0 < w) (a : BitVec w) : a.toInt.natAbs < 2 ^ w :=
  (natAbs_toInt_le a).trans_lt (Nat.pow_lt_pow_right Nat.one_lt_two (Nat.sub_one_lt_of_lt hw))

/-- A signed operand times a factor of at most `w` bits and a sign is in the signed range of a double word. -/
theorem natAbs_toInt_mul_lt (hw : 0 < w) (a : BitVec w) {y : Int} (hy : y.natAbs < 2 ^ w) :
    (a.toInt * y).natAbs < 2 ^ (w + w - 1) := by
  rw [Int.natAbs_mul, Nat.sub_add_comm hw, pow_add]
  exact Nat.mul_lt_mul_of_le_of_lt (natAbs_toInt_le a) hy (by positivity)

theorem toInt_highHalf (hw : 0 < w) {z : Int} (hz : z.natAbs < 2 ^ (w + w - 1)) :
    (highHalf w z).toInt = z / 2 ^ w := by
  rw [Nat.sub_add_comm hw, pow_add] at hz
  zify at hz
  obtain ⟨hlo, hhi⟩ := abs_lt.1 hz
  rw [highHalf_eq_ofInt_div]
  apply BitVec.toInt_ofInt_eq_self hw
  · exact (Int.le_ediv_iff_mul_le (by positivity)).2 (by linarith)
  · exact Int.ediv_lt_of_lt_mul (by positivity) hhi

/-- R200: the high half before the low half is the integer. -/
theorem toInt_highHalf_append_ofInt (hw : 0 < w) {z : Int} (hz : z.natAbs < 2 ^ (w + w - 1)) :
    (highHalf w z ++ BitVec.ofInt w z).toInt = z := by
  rw [BitVec.toInt_append, if_neg (mt beq_iff_eq.1 hw.ne'), toInt_highHalf hw hz, cast_toNat_ofInt,
    Int.mul_ediv_add_emod]

/-- R202. -/
theorem toInt_highHalf_signed (hw : 0 < w) (a b : BitVec w) :
    (highHalf w (a.toInt * b.toInt)).toInt = a.toInt * b.toInt / 2 ^ w :=
  toInt_highHalf hw (natAbs_toInt_mul_lt hw a (natAbs_toInt_lt hw b))

/-- R203. -/
theorem toInt_highHalf_mixed (hw : 0 < w) (a b : BitVec w) :
    (highHalf w (a.toInt * b.toNat)).toInt = a.toInt * b.toNat / 2 ^ w :=
  toInt_highHalf hw (natAbs_toInt_mul_lt hw a b.isLt)

/-- R204. -/
theorem toNat_highHalf_unsigned (a b : BitVec w) :
    (highHalf w ((a.toNat : Int) * b.toNat)).toNat = a.toNat * b.toNat / 2 ^ w := by
  have hlt : a.toNat * b.toNat / 2 ^ w < 2 ^ w := Nat.div_lt_of_lt_mul (Nat.mul_lt_mul'' a.isLt b.isLt)
  rw [highHalf_eq_ofInt_div]
  zify
  rw [cast_toNat_ofInt]
  exact Int.emod_eq_of_lt (by positivity) (mod_cast hlt)

theorem toInt_highHalf_append_mul (hw : 0 < w) (a b : BitVec w) :
    (highHalf w (a.toInt * b.toInt) ++ a * b).toInt = a.toInt * b.toInt := by
  rw [mul_eq_ofInt_toInt, toInt_highHalf_append_ofInt hw (natAbs_toInt_mul_lt hw a (natAbs_toInt_lt hw b))]

theorem toNat_highHalf_append_mul (a b : BitVec w) :
    (highHalf w ((a.toNat : Int) * b.toNat) ++ a * b).toNat = a.toNat * b.toNat := by
  rw [BitVec.toNat_append, ← Nat.shiftLeft_add_eq_or_of_lt (BitVec.isLt _), Nat.shiftLeft_eq,
    toNat_highHalf_unsigned, BitVec.toNat_mul, Nat.div_add_mod']

/-- R205: the low word of a product is that of the operands' low words. -/
theorem toInt_sextW_low32_mul_low32 (hw : 32 ≤ w) (a b : BitVec w) :
    (sextW w (low32 a * low32 b)).toInt = ((a.toNat * b.toNat : Nat) : Int).bmod (2 ^ 32) := by
  have hlow : low32 a * low32 b = low32 (a * b) := (BitVec.setWidth_mul a b hw).symm
  rw [hlow, mul_eq_ofInt_toNat, toInt_sextW_low32_ofInt hw, Nat.cast_mul]

/-! ## Quotients and remainders -/

theorem eq_zero_iff_toNat (b : BitVec w) : b = 0 ↔ b.toNat = 0 := BitVec.toNat_eq

theorem eq_zero_iff_toInt (b : BitVec w) : b = 0 ↔ b.toInt = 0 := by
  rw [← BitVec.toInt_inj]
  exact iff_of_eq (congrArg _ BitVec.toInt_zero)

theorem eq_intMin_iff (hw : 0 < w) (a : BitVec w) : a = BitVec.intMin w ↔ a.toInt = -2 ^ (w - 1) := by
  rw [← BitVec.toInt_inj, BitVec.toInt_intMin_of_pos hw]

theorem toInt_allOnes_of_pos (hw : 0 < w) : (BitVec.allOnes w).toInt = -1 := by
  rw [BitVec.toInt_allOnes, if_pos hw]

theorem eq_allOnes_iff (hw : 0 < w) (b : BitVec w) : b = BitVec.allOnes w ↔ b.toInt = -1 := by
  rw [← BitVec.toInt_inj, toInt_allOnes_of_pos hw]

theorem divU_zero (a : BitVec w) : divU a 0 = BitVec.allOnes w := if_pos rfl

theorem divU_of_ne_zero (a : BitVec w) {b : BitVec w} (hb : b ≠ 0) : divU a b = a / b := by
  rw [divU, if_neg hb, ← BitVec.toNat_udiv, BitVec.ofNat_toNat, BitVec.setWidth_eq]

theorem remU_eq_umod (a b : BitVec w) : remU a b = a % b := by
  unfold remU
  split
  case isTrue hb => rw [hb]; exact BitVec.umod_zero.symm
  case isFalse => rw [← BitVec.toNat_umod, BitVec.ofNat_toNat, BitVec.setWidth_eq]

/-- R207. -/
theorem toNat_divU (a b : BitVec w) :
    (divU a b).toNat = if b.toNat = 0 then 2 ^ w - 1 else a.toNat / b.toNat := by
  by_cases hb : b = 0
  · rw [if_pos ((eq_zero_iff_toNat b).1 hb), hb, divU_zero, BitVec.toNat_allOnes]
  · rw [if_neg (hb ∘ (eq_zero_iff_toNat b).2), divU_of_ne_zero a hb, BitVec.toNat_udiv]

/-- R209. -/
theorem toNat_remU (a b : BitVec w) :
    (remU a b).toNat = if b.toNat = 0 then a.toNat else a.toNat % b.toNat := by
  rw [remU_eq_umod, BitVec.toNat_umod]
  split
  case isTrue hb => rw [hb, Nat.mod_zero]
  case isFalse => rfl

/-- R211: the unsigned quotient read as a signed number. -/
theorem toInt_divU (hw : 0 < w) (a b : BitVec w) :
    (divU a b).toInt = if b.toNat = 0 then -1 else ((a.toNat / b.toNat : Nat) : Int).bmod (2 ^ w) := by
  by_cases hb : b = 0
  · rw [if_pos ((eq_zero_iff_toNat b).1 hb), hb, divU_zero, toInt_allOnes_of_pos hw]
  · rw [if_neg (hb ∘ (eq_zero_iff_toNat b).2), divU_of_ne_zero a hb, BitVec.toInt_eq_toNat_bmod, BitVec.toNat_udiv]

/-- R213: the unsigned remainder read as a signed number. -/
theorem toInt_remU (a b : BitVec w) :
    (remU a b).toInt = if b.toNat = 0 then a.toInt else ((a.toNat % b.toNat : Nat) : Int).bmod (2 ^ w) := by
  rw [BitVec.toInt_eq_toNat_bmod, toNat_remU, apply_ite Nat.cast, apply_ite (Int.bmod · _),
    ← BitVec.toInt_eq_toNat_bmod]

theorem tmod_neg_one (a : Int) : a.tmod (-1) = 0 := by rw [Int.tmod_neg, Int.tmod_one]

theorem toInt_sdiv_of_not_overflow {a b : BitVec w} (hover : ¬(a = BitVec.intMin w ∧ b = BitVec.allOnes w)) :
    (a.sdiv b).toInt = a.toInt.tdiv b.toInt := by
  rw [← BitVec.neg_one_eq_allOnes, not_and_or] at hover
  exact BitVec.toInt_sdiv_of_ne_or_ne a b hover

theorem divS_zero (a : BitVec w) : divS a 0 = BitVec.allOnes w := if_pos rfl

/-- The overflow case of R206 is the quotient modulo `2 ^ w`, so the library's quotient needs no case for it. -/
theorem divS_of_ne_zero (a : BitVec w) {b : BitVec w} (hb : b ≠ 0) : divS a b = a.sdiv b := by
  rw [divS, if_neg hb]
  split
  case isTrue hover => rw [hover.1, hover.2, ← BitVec.neg_one_eq_allOnes, BitVec.intMin_sdiv_neg_one]
  case isFalse hover => rw [← toInt_sdiv_of_not_overflow hover, BitVec.ofInt_toInt]

theorem remS_eq_srem (hw : 0 < w) (a b : BitVec w) : remS a b = a.srem b := by
  unfold remS
  split
  case isTrue hb => rw [hb]; exact BitVec.srem_zero.symm
  case isFalse =>
    split
    case isTrue hover =>
      apply BitVec.eq_of_toInt_eq
      rw [BitVec.toInt_srem, hover.2, toInt_allOnes_of_pos hw, tmod_neg_one]
      exact BitVec.toInt_zero
    case isFalse => rw [Int.mul_comm, ← Int.tmod_def, ← BitVec.toInt_srem, BitVec.ofInt_toInt]

/-- R206. -/
theorem toInt_divS (hw : 0 < w) (a b : BitVec w) :
    (divS a b).toInt =
      if b.toInt = 0 then -1
      else if a.toInt = -2 ^ (w - 1) ∧ b.toInt = -1 then a.toInt else a.toInt.tdiv b.toInt := by
  simp only [← eq_zero_iff_toInt, ← eq_intMin_iff hw, ← eq_allOnes_iff hw]
  split
  case isTrue hb => rw [hb, divS_zero, toInt_allOnes_of_pos hw]
  case isFalse hb =>
    split
    case isTrue hover => rw [divS, if_neg hb, if_pos hover]
    case isFalse hover => rw [divS_of_ne_zero a hb, toInt_sdiv_of_not_overflow hover]

theorem toInt_remS (hw : 0 < w) (a b : BitVec w) : (remS a b).toInt = a.toInt.tmod b.toInt := by
  rw [remS_eq_srem hw, BitVec.toInt_srem]

/-- R208: the remainder by cases; the divisor 0 leaves the dividend and -1 leaves 0, as the integers' remainder does. -/
theorem tmod_eq_ite (m a b : Int) :
    a.tmod b = if b = 0 then a else if a = m ∧ b = -1 then 0 else a - a.tdiv b * b := by
  split
  case isTrue hb => rw [hb, Int.tmod_zero]
  case isFalse =>
    split
    case isTrue hover => rw [hover.2, tmod_neg_one]
    case isFalse => rw [Int.tmod_def, Int.mul_comm]

/-! ## The laws (R216) -/

theorem divU_mul_add_remU (a b : BitVec w) : divU a b * b + remU a b = a := by
  rw [remU_eq_umod]
  by_cases hb : b = 0
  · subst hb
    rw [BitVec.ofNat_eq_ofNat, BitVec.mul_zero, BitVec.zero_add, BitVec.umod_zero]
  · apply BitVec.eq_of_toNat_eq
    rw [divU_of_ne_zero a hb, BitVec.toNat_add, BitVec.toNat_mul, Nat.mod_add_mod, BitVec.toNat_udiv, BitVec.toNat_umod,
      Nat.div_add_mod', Nat.mod_eq_of_lt a.isLt]

theorem sdiv_eq_ofInt (a b : BitVec w) : a.sdiv b = BitVec.ofInt w (a.toInt.tdiv b.toInt) := by
  apply BitVec.eq_of_toInt_eq
  rw [BitVec.toInt_sdiv, BitVec.toInt_ofInt]

theorem divS_mul_add_remS (hw : 0 < w) (a b : BitVec w) : divS a b * b + remS a b = a := by
  rw [remS_eq_srem hw]
  by_cases hb : b = 0
  · subst hb
    rw [BitVec.ofNat_eq_ofNat, BitVec.mul_zero, BitVec.zero_add, BitVec.srem_zero]
  · calc divS a b * b + a.srem b
        = BitVec.ofInt w (a.toInt.tdiv b.toInt) * BitVec.ofInt w b.toInt + BitVec.ofInt w (a.toInt.tmod b.toInt) := by
          rw [divS_of_ne_zero a hb, sdiv_eq_ofInt, ← BitVec.toInt_srem, BitVec.ofInt_toInt, BitVec.ofInt_toInt]
      _ = BitVec.ofInt w (a.toInt.tdiv b.toInt * b.toInt + a.toInt.tmod b.toInt) := by
          rw [BitVec.ofInt_add, BitVec.ofInt_mul]
      _ = a := by rw [Int.tdiv_mul_add_tmod, BitVec.ofInt_toInt]

theorem natAbs_remS_lt (hw : 0 < w) (a : BitVec w) {b : BitVec w} (hb : b ≠ 0) :
    (remS a b).toInt.natAbs < b.toInt.natAbs := by
  rw [toInt_remS hw, Int.natAbs_tmod]
  exact Nat.mod_lt _ (Int.natAbs_pos.2 (hb ∘ (eq_zero_iff_toInt b).2))

/-- A remainder that is not 0 has the sign of the dividend. -/
theorem remS_eq_zero_or_neg_iff (hw : 0 < w) (a b : BitVec w) :
    (remS a b).toInt = 0 ∨ ((remS a b).toInt < 0 ↔ a.toInt < 0) := by
  have hsign := Int.sign_tmod a.toInt b.toInt
  rw [← toInt_remS hw] at hsign
  split at hsign
  case isTrue => exact .inl (Int.sign_eq_zero_iff_zero.1 hsign)
  case isFalse => exact .inr (by rw [← Int.sign_eq_neg_one_iff_neg, hsign, Int.sign_eq_neg_one_iff_neg])

theorem toNat_remU_lt (a : BitVec w) {b : BitVec w} (hb : b ≠ 0) : (remU a b).toNat < b.toNat := by
  rw [remU_eq_umod, BitVec.toNat_umod]
  exact Nat.mod_lt _ (Nat.pos_of_ne_zero (hb ∘ (eq_zero_iff_toNat b).2))

theorem divS_remS_of_overflow (hw : 0 < w) {a b : BitVec w} (ha : a.toInt = -2 ^ (w - 1)) (hb : b.toInt = -1) :
    (divS a b).toInt = -2 ^ (w - 1) ∧ remS a b = 0 := by
  constructor
  · rw [toInt_divS hw, if_neg (by rw [hb]; decide), if_pos ⟨ha, hb⟩, ha]
  · rw [eq_zero_iff_toInt, toInt_remS hw, hb, tmod_neg_one]

/-- Settles O43: each law is the one of the integers or naturals the halves, quotients and remainders are read as. -/
theorem multiplyDivideLaws : Obligations.MultiplyDivideLaws := by
  unfold Obligations.MultiplyDivideLaws
  intro w a b hw
  exact ⟨BitVec.mul_comm a b, congrArg _ (Int.mul_comm ..), congrArg _ (Int.mul_comm ..),
    toInt_highHalf_append_mul hw a b, toNat_highHalf_append_mul a b, divS_mul_add_remS hw a b, divU_mul_add_remU a b,
    natAbs_remS_lt hw a, remS_eq_zero_or_neg_iff hw a b, toNat_remU_lt a,
    by rw [divS_zero, BitVec.toNat_allOnes], by rw [divU_zero, BitVec.toNat_allOnes],
    if_pos rfl, if_pos rfl, divS_remS_of_overflow hw⟩

end Sys2Proof.Machine
end

section
/-! The multiply and divide instructions (spec/44_mul_div.md R201 to R213): each retires, with the half of the product,
the quotient or the remainder of its operands; the W forms with that of the low words, sign-extended. -/

namespace Sys2Proof.Machine

/-- Settles O40: the low half is the product modulo 2^XLEN, the high half the product divided by it. -/
theorem multiplications : Obligations.Multiplications := by
  unfold Obligations.Multiplications
  intro s rd rs1 rs2 hrd
  exact ⟨completes_of_retire rfl hrd (BitVec.toNat_mul ..),
    completes_of_retire rfl hrd (toInt_highHalf_signed s.bits_pos ..),
    completes_of_retire rfl hrd (toInt_highHalf_mixed s.bits_pos ..),
    completes_of_retire rfl hrd (toNat_highHalf_unsigned ..),
    fun _ => completes_of_retire rfl hrd (toInt_sextW_low32_mul_low32 s.thirtyTwo_le_bits ..)⟩

/-- Settles O41: each result is the quotient or remainder of the operands' integers, with R200's special cases. -/
theorem divisions : Obligations.Divisions := by
  unfold Obligations.Divisions
  intro s rd rs1 rs2 hrd a b
  have hrem : (remS (s.x rs1) (s.x rs2)).toInt =
      if b = 0 then a else if a = -2 ^ (s.bits - 1) ∧ b = -1 then 0 else a - a.tdiv b * b :=
    (toInt_remS s.bits_pos ..).trans (tmod_eq_ite _ a b)
  exact ⟨completes_of_retire rfl hrd (toInt_divS s.bits_pos ..), completes_of_retire rfl hrd (toNat_divU ..),
    completes_of_retire rfl hrd hrem, completes_of_retire rfl hrd (toNat_remU ..)⟩

/-- Settles O42: a W form's value is that of its 32-bit result, the quotient or remainder of the low words. -/
theorem wordDivisions : Obligations.WordDivisions := by
  unfold Obligations.WordDivisions
  intro s rd rs1 rs2 hrd _ a b ua ub
  have hw := s.thirtyTwo_le_bits
  have ha : (low32 (s.x rs1)).toInt = a := toInt_low32 _
  have hb : (low32 (s.x rs2)).toInt = b := toInt_low32 _
  have hua : (low32 (s.x rs1)).toNat = ua := toNat_low32 _
  have hub : (low32 (s.x rs2)).toNat = ub := toNat_low32 _
  refine ⟨completes_of_retire rfl hrd ?divw, completes_of_retire rfl hrd ?divuw,
    completes_of_retire rfl hrd ?remw, completes_of_retire rfl hrd ?remuw⟩
  case divw => rw [toInt_sextW hw, toInt_divS (by decide), ha, hb]
  case divuw => rw [toInt_sextW hw, toInt_divU (by decide), hua, hub]
  case remw => rw [toInt_sextW hw, toInt_remS (by decide), ha, hb, tmod_eq_ite (-2 ^ 31)]
  case remuw => rw [toInt_sextW hw, toInt_remU, ha, hua, hub]

end Sys2Proof.Machine
end

section
/-! The address-generation instructions (spec/45_zba.md R220 to R228): each retires, with the sum or the shift its text
gives, modulo 2^XLEN. -/

namespace Sys2Proof.Machine

variable {w : Nat}

/-- R220: in a word of at least 32 bits the zero extension keeps the number of the low word. -/
theorem toNat_zext32 (hw : 32 ≤ w) (a : BitVec w) : (zext32 a).toNat = a.toNat % 2 ^ 32 :=
  (BitVec.toNat_setWidth_of_le hw).trans (BitVec.toNat_setWidth ..)

theorem toNat_add_zext32 (hw : 32 ≤ w) (a b : BitVec w) :
    (b + zext32 a).toNat = (b.toNat + a.toNat % 2 ^ 32) % 2 ^ w := by
  rw [BitVec.toNat_add, toNat_zext32 hw]

/-- R228: what the shift moves out of the low word stays in the result, up to the word's width. -/
theorem toNat_zext32_shiftLeft (hw : 32 ≤ w) (a : BitVec w) (k : Nat) :
    (zext32 a <<< k).toNat = a.toNat % 2 ^ 32 * 2 ^ k % 2 ^ w := by
  rw [toNat_shiftLeft_eq_mul, toNat_zext32 hw]

/-- R221 to R223: the bits the shift drops do not count in the sum modulo `2 ^ w`. -/
theorem toNat_shiftAdd (k : Nat) (a b : BitVec w) :
    (shiftAdd k a b).toNat = (b.toNat + a.toNat * 2 ^ k) % 2 ^ w := by
  rw [shiftAdd, BitVec.toNat_add, toNat_shiftLeft_eq_mul, Nat.add_mod_mod]

theorem toNat_shiftAdd_zext32 (hw : 32 ≤ w) (k : Nat) (a b : BitVec w) :
    (shiftAdd k (zext32 a) b).toNat = (b.toNat + a.toNat % 2 ^ 32 * 2 ^ k) % 2 ^ w := by
  rw [toNat_shiftAdd, toNat_zext32 hw]

theorem State.bits_of_rv64 {s : State} (hx : s.cfg.xlen = .rv64) : s.bits = 64 := congrArg Xlen.bits hx

/-- Settles O44: the sum of the second operand and the first one, or its low word, times the power of 2. -/
theorem addressGeneration : Obligations.AddressGeneration := by
  unfold Obligations.AddressGeneration
  intro s rd rs1 rs2 shamt hrd low
  have hw := s.thirtyTwo_le_bits
  refine ⟨completes_of_retire rfl hrd (toNat_shiftAdd 1 ..), completes_of_retire rfl hrd (toNat_shiftAdd 2 ..),
    completes_of_retire rfl hrd (toNat_shiftAdd 3 ..), fun hx => ?_⟩
  rw [← State.bits_of_rv64 hx]
  exact ⟨completes_of_retire rfl hrd (toNat_add_zext32 hw ..),
    completes_of_retire rfl hrd (toNat_shiftAdd_zext32 hw 1 ..),
    completes_of_retire rfl hrd (toNat_shiftAdd_zext32 hw 2 ..),
    completes_of_retire rfl hrd (toNat_shiftAdd_zext32 hw 3 ..),
    completes_of_retire rfl hrd (toNat_zext32_shiftLeft hw ..)⟩

end Sys2Proof.Machine
end

section
/-! The single-bit instructions (spec/46_zbs.md R230 to R238): each retires, with the operand changed at its index
alone, or with the bit at the index as the number 0 or 1. -/

namespace Sys2Proof.Machine

variable {w : Nat}

/-- R230: the mask has only the bit at the index. -/
theorem getLsbD_bitAt {k : Nat} (hk : k < w) (idx : Nat) : (bitAt w idx).getLsbD k = decide (k = idx) := by
  calc (bitAt w idx).getLsbD k
      = (BitVec.ofNat w (1 <<< idx)).getLsbD k := rfl
    _ = (1 <<< idx).testBit k := by rw [BitVec.getLsbD_ofNat, decide_eq_true hk, Bool.true_and]
    _ = decide (idx = k) := by rw [Nat.one_shiftLeft, Nat.testBit_two_pow]
    _ = decide (k = idx) := decide_eq_decide.2 eq_comm

/-- R231, R235. -/
theorem getLsbD_setBit {k : Nat} (hk : k < w) (v : BitVec w) (idx : Nat) :
    (setBit v idx).getLsbD k = if k = idx then true else v.getLsbD k := by
  rw [setBit, BitVec.getLsbD_or, getLsbD_bitAt hk]
  split
  case isTrue h => simp [h]
  case isFalse h => simp [h]

/-- R232, R236. -/
theorem getLsbD_clearBit {k : Nat} (hk : k < w) (v : BitVec w) (idx : Nat) :
    (clearBit v idx).getLsbD k = if k = idx then false else v.getLsbD k := by
  rw [clearBit, BitVec.getLsbD_and, BitVec.getLsbD_not, decide_eq_true hk, Bool.true_and, getLsbD_bitAt hk]
  split
  case isTrue h => simp [h]
  case isFalse h => simp [h]

/-- R233, R237. -/
theorem getLsbD_invertBit {k : Nat} (hk : k < w) (v : BitVec w) (idx : Nat) :
    (invertBit v idx).getLsbD k = if k = idx then !v.getLsbD k else v.getLsbD k := by
  rw [invertBit, BitVec.getLsbD_xor, getLsbD_bitAt hk]
  split
  case isTrue h => simp [h]
  case isFalse h => simp [h]

/-- R234, R238: the extracted word is the number of the bit. -/
theorem toNat_extractBit (hw : 0 < w) (v : BitVec w) (idx : Nat) :
    (extractBit v idx).toNat = (v.getLsbD idx).toNat := by
  calc (extractBit v idx).toNat
      = (v >>> idx).toNat &&& (1#w).toNat := BitVec.toNat_and ..
    _ = v.toNat / 2 ^ idx % 2 := by rw [toNat_ushiftRight_eq_div, BitVec.toNat_one hw, Nat.and_one_is_mod]
    _ = (v.getLsbD idx).toNat := (Nat.toNat_testBit ..).symm

/-- Settles O45: the bit rules, at the second register modulo XLEN. -/
theorem singleBitRegisterForms : Obligations.SingleBitRegisterForms := by
  unfold Obligations.SingleBitRegisterForms
  intro s rd rs1 rs2 hrd index a
  exact ⟨completes_of_retire rfl hrd fun _ hk => getLsbD_setBit hk _ index,
    completes_of_retire rfl hrd fun _ hk => getLsbD_clearBit hk _ index,
    completes_of_retire rfl hrd fun _ hk => getLsbD_invertBit hk _ index,
    completes_of_retire rfl hrd (toNat_extractBit s.bits_pos _ index)⟩

/-- Settles O46: the same bit rules, at the index in the instruction. -/
theorem singleBitImmediateForms : Obligations.SingleBitImmediateForms := by
  unfold Obligations.SingleBitImmediateForms
  intro s rd rs1 shamt hrd _ a
  exact ⟨completes_of_retire rfl hrd fun _ hk => getLsbD_setBit hk _ _,
    completes_of_retire rfl hrd fun _ hk => getLsbD_clearBit hk _ _,
    completes_of_retire rfl hrd fun _ hk => getLsbD_invertBit hk _ _,
    completes_of_retire rfl hrd (toNat_extractBit s.bits_pos ..)⟩

end Sys2Proof.Machine
end

section
/-! Construction and resuming (spec/70_reset_and_hazards.md R350 to R352): a constructed state has what its parameters
give, the bytes of its memory image among them, and only a run that ended `Stopped` goes on. -/

namespace Sys2Proof.Machine

/-! ## The memory of an image -/

theorem Memory.ofImage_concat (w : Nat) (image : List Host.Cell) (cell : Host.Cell) :
    Memory.ofImage w (image ++ [cell]) = (Memory.ofImage w image).write (cell.1 % 2 ^ w) cell.2 := by
  simp only [Memory.ofImage, List.foldl_append, List.foldl_cons, List.foldl_nil]

/-- R351: a byte of an image's memory is that of the last cell at its address; one no cell gives reads as unlisted
(log 3). -/
theorem Memory.read_ofImage (w : Nat) (image : List Host.Cell) (a : Nat) :
    (Memory.ofImage w image).read a = ((image.reverse.find? fun c => c.1 % 2 ^ w = a).map (·.2)).getD unlistedByte := by
  induction image using List.reverseRecOn with
  | nil => rfl
  | append_singleton image cell ih =>
    obtain ⟨hwf, -⟩ := Memory.valid_ofImage w image
    rw [Memory.ofImage_concat, Memory.read_write hwf, ih, List.reverse_append, List.reverse_singleton,
      List.singleton_append]
    by_cases hc : cell.1 % 2 ^ w = a
    · rw [List.find?_cons_of_pos (by simpa using hc), if_pos hc.symm]
      rfl
    · rw [List.find?_cons_of_neg (by simpa using hc), if_neg (Ne.symm hc)]

/-! ## Construction -/

theorem State.construct_of_error {p : Parameters} {e : CompositeError}
    (h : buildComposite p.xlen p.nreg p.composite = .error e) : State.construct p = .error (.illFormedComposite e) := by
  unfold State.construct
  rw [h]

/-- A register the core has, other than x0, reads its slot, which is not the one construction clears. -/
theorem Hart.x_of_regs_clear0 {w n : Nat} {t : CustomErrorType} {h : Hart w n t} {regs : Vector (BitVec w) n}
    (hregs : h.regs = regs.setIfInBounds 0 0) {r : Reg} (hr : r.val < n) (h0 : r ≠ 0) : h.x r = regs[r.val] := by
  have hv : 0 ≠ r.val := fun hv => h0 (Fin.ext hv.symm)
  rw [Hart.x, if_neg h0, hregs, Vector.getElem?_setIfInBounds_ne hv, Vector.getElem?_eq_getElem hr, Option.getD_some]

/-- Settles O1: the composite builds or it does not; where it does, each field of the state is its parameter's. -/
theorem constructionFollowsParameters : Obligations.ConstructionFollowsParameters := by
  unfold Obligations.ConstructionFollowsParameters
  intro p
  split
  case h_1 e hc => exact State.construct_of_error hc
  case h_2 variants hc =>
    exact ⟨_, State.construct_of_ok hc, rfl, rfl,
      fun r hr h0 => congrArg BitVec.toNat (Hart.x_of_regs_clear0 rfl hr h0), rfl, rfl,
      fun a _ => Memory.read_ofImage _ p.image a⟩

/-! ## Resuming -/

theorem State.resume_of_stopped {s : State} (hs : s.hart.status = .stopped) (h : s.HartOf) :
    s.resume h = some (s.withHart { h with status := .running }) := by
  unfold State.resume
  rw [hs]

theorem State.resume_of_running {s : State} (hs : s.hart.status = .running) (h : s.HartOf) : s.resume h = none := by
  unfold State.resume
  rw [hs]

theorem State.resume_of_failed {s : State} {e : RunError s.bits s.cfg.customErrors} (hs : s.hart.status = .failed e)
    (h : s.HartOf) : s.resume h = none := by
  unfold State.resume
  rw [hs]

/-- Settles O3: resuming goes by the status, and its state is the given one but for that. -/
theorem onlyStoppedRunsResume : Obligations.OnlyStoppedRunsResume := by
  unfold Obligations.OnlyStoppedRunsResume
  intro s given
  exact ⟨fun hs => ⟨_, State.resume_of_stopped hs given, rfl, rfl, fun _ => rfl, fun _ => rfl⟩,
    fun hs => ⟨_, State.resume_of_stopped hs _, rfl, rfl, fun _ => rfl, fun _ => rfl⟩,
    fun _ hs => State.resume_of_failed hs given, fun hs => State.resume_of_running hs given⟩

end Sys2Proof.Machine
end

section
/-! A hook that takes a word (spec/60_exceptions.md R308 to R312): each of its effects does what it is to do, and its
outcome goes on or ends the run with what they left. -/

namespace Sys2Proof

theorem AccessSize.bytes_le_eight (size : AccessSize) : size.bytes ≤ 8 := by cases size <;> decide

end Sys2Proof

namespace Sys2Proof.Machine

/-! ## The effects of a hook -/

section Effects

variable {w n : Nat} {t : CustomErrorType}

/-- R42, log 6: a stored byte is that byte of the hook's value. -/
theorem toNat_read_store_setWidth {m : Memory} (hm : m.wf = true) (hw : 32 ≤ w) (addr : BitVec w) (v : BitVec 64)
    {k j : Nat} (hk : k ≤ 8) (hj : j < k) :
    ((m.store addr k (v.setWidth (8 * k))).read ((addr.toNat + j) % 2 ^ w)).toNat = v.toNat / 256 ^ j % 256 := by
  have hin : 8 * j + 8 ≤ 8 * k := by omega
  rw [Memory.read_store hm addr _ (le_two_pow_of_le_eight hk hw) hj, BitVec.extractLsb'_setWidth_of_le hin,
    toNat_extractByte]

/-- R310: what applying an effect does is what the effect is to do. -/
theorem effectDoes_applyEffect (hw : 32 ≤ w) (acc : Accessor) {h : Hart w n t} (hm : h.mem.wf = true) (e : HookEffect) :
    EffectDoes acc h (applyEffect acc h e) e := by
  cases e with
  | setReg r v =>
    exact ⟨fun q => Hart.x_setX h r q _, Hart.setX_pc .., fun a => congrArg (Memory.read · a) (Hart.setX_mem ..),
      Hart.setX_status ..⟩
  | setPc v => exact ⟨fun _ => rfl, rfl, fun _ => rfl, rfl⟩
  | store addr size v =>
    cases hs : accessorGrants acc .store (addr.setWidth w) size.bytes with
    | false =>
      rw [applyEffect_store_of_refused acc h v hs]
      exact ⟨fun _ => rfl, rfl, rfl, fun hg => absurd (hs.symm.trans hg) Bool.false_ne_true, fun _ _ => rfl⟩
    | true =>
      rw [applyEffect_store_of_served acc h v hs]
      exact ⟨fun _ => rfl, rfl, rfl, fun _ _ hj => toNat_read_store_setWidth hm hw _ v size.bytes_le_eight hj,
        fun _ hb => Memory.read_store_of_not_inRange hm _ (hb hs)⟩

theorem wf_applyEffect (acc : Accessor) {h : Hart w n t} (hm : h.mem.wf = true) (e : HookEffect) :
    (applyEffect acc h e).mem.wf = true := by
  cases e with
  | setReg r v => rwa [applyEffect_setReg, Hart.setX_mem]
  | setPc v => exact hm
  | store addr size v =>
    cases hs : accessorGrants acc .store (addr.setWidth w) size.bytes with
    | false => rwa [applyEffect_store_of_refused acc h v hs]
    | true =>
      rw [applyEffect_store_of_served acc h v hs]
      exact Memory.wf_store hm ..

theorem effectsLead_applyEffects (hw : 32 ≤ w) (acc : Accessor) {h : Hart w n t} (hm : h.mem.wf = true)
    (es : List HookEffect) : EffectsLead acc es h (applyEffects acc h es) := by
  induction es generalizing h with
  | nil => rfl
  | cons e es ih => exact ⟨_, effectDoes_applyEffect hw acc hm e, ih (wf_applyEffect acc hm e)⟩

/-- Only a write of the pc moves it. -/
theorem applyEffect_pc (acc : Accessor) (h : Hart w n t) {e : HookEffect} (he : ∀ v, e ≠ .setPc v) :
    (applyEffect acc h e).pc = h.pc := by
  cases e with
  | setReg r v => exact Hart.setX_pc ..
  | setPc v => exact absurd rfl (he v)
  | store addr size v =>
    cases hs : accessorGrants acc .store (addr.setWidth w) size.bytes with
    | false => rw [applyEffect_store_of_refused acc h v hs]
    | true => rw [applyEffect_store_of_served acc h v hs]

theorem applyEffects_pc (acc : Accessor) (h : Hart w n t) {es : List HookEffect}
    (hes : ∀ v, HookEffect.setPc v ∉ es) : (applyEffects acc h es).pc = h.pc := by
  induction es generalizing h with
  | nil => rfl
  | cons e es ih =>
    have he : ∀ v, e ≠ .setPc v := fun v he => hes v (he ▸ List.mem_cons_self ..)
    rw [applyEffects_cons, ih _ fun v hv => hes v (List.mem_cons_of_mem _ hv), applyEffect_pc acc h he]

end Effects

/-! ## The outcome of a hook -/

/-- R308, R311, R312: what a hook's outcome makes of the architectural part its effects left. -/
def State.afterHook (s : State) (w : InsnWord) (left : s.HartOf) : HookEnd s.cfg.customErrors → s.HartOf
  | .cont => { left with pc := left.pc + 4 }
  | .brk => { left with status := .stopped }
  | .fault k => { left with status := .failed (.executionFault s.pc (some w) none (.hostFault k)) }
  | .custom c => { left with status := .failed (.custom s.pc w c) }

theorem State.hookPath_of_done {s : State} {w : InsnWord} {effects : List HookEffect}
    {out : HookEnd s.cfg.customErrors} (h : s.hookAnswer w = .done effects out) :
    s.hookPath w = .next (s.withHart (s.afterHook w (applyEffects s.cfg.accessor s.hart effects) out)) := by
  unfold State.hookPath
  rw [h]
  cases out with
  | cont => rfl
  | brk => rfl
  | fault k => rfl
  | custom c => rfl

@[simp] theorem State.afterHook_x (s : State) (w : InsnWord) (left : s.HartOf) (out : HookEnd s.cfg.customErrors)
    (r : Reg) : (s.afterHook w left out).x r = left.x r := by
  cases out <;> rfl

@[simp] theorem State.afterHook_mem (s : State) (w : InsnWord) (left : s.HartOf) (out : HookEnd s.cfg.customErrors) :
    (s.afterHook w left out).mem = left.mem := by
  cases out <;> rfl

/-- No outcome of a hook that takes the word is an illegal instruction. -/
theorem State.afterHook_status_ne_illegal {s : State} {left : s.HartOf} (hr : left.status = .running) (w w' : InsnWord)
    (p : s.Word) (out : HookEnd s.cfg.customErrors) :
    (s.afterHook w left out).status ≠ .failed (.illegalInstruction p w') := by
  intro hf
  cases out with
  | cont => cases hr.symm.trans hf
  | brk => cases hf
  | fault k => cases hf
  | custom c => cases hf

/-- Settles O52: the step takes the hook path; its effects are applied as they are to be, and then its outcome. -/
theorem hookOutcomes : Obligations.HookOutcomes := by
  unfold Obligations.HookOutcomes
  intro s w effects out hr ha hfetch hd hm hdone
  have hrun := (applyEffects_status s.cfg.accessor s.hart effects).trans hr
  refine ⟨_, _, effectsLead_applyEffects s.thirtyTwo_le_bits s.cfg.accessor hm effects, applyEffects_pc _ _,
    (step_of_error hr (State.prepare_of_undecoded ha hfetch hd)).trans (State.hookPath_of_done hdone),
    s.afterHook_x w _ out, fun a => congrArg (Memory.read · a) (s.afterHook_mem w _ out), ?_⟩
  cases out with
  | cont => exact ⟨hrun, rfl⟩
  | brk => exact ⟨rfl, rfl⟩
  | fault k => exact ⟨rfl, rfl⟩
  | custom c => exact ⟨rfl, rfl⟩

end Sys2Proof.Machine
end

section
/-! How a step ends (spec/60_exceptions.md R301 to R309, R320 to R323): the errors of a fetch, of an instruction and of a
word nothing takes, and the two instructions that break. -/

namespace Sys2Proof.Machine

/-! ## The fetch -/

theorem State.fetch_of_refused {s : State} (h : ¬ s.served .fetch s.pc 4) : s.fetch = none := if_neg h

/-- Settles O50: each of the two ends the step before any rule runs. -/
theorem fetchErrors : Obligations.FetchErrors := by
  unfold Obligations.FetchErrors
  intro s hr
  exact ⟨fun ha => step_of_error hr (State.prepare_of_unaligned ha),
    fun ha hs => step_of_error hr (State.prepare_of_fetch_refused ha (State.fetch_of_refused hs))⟩

/-! ## Errors and breaks of instructions -/

/-- The mnemonics of 42_load_store.md, R171 to R181. -/
abbrev loadsAndStores : List Op := [.lb, .lh, .lw, .lbu, .lhu, .lwu, .ld, .sb, .sh, .sw, .sd]

/-- An instruction that accesses no memory goes on with the status as it is, or breaks. -/
theorem exec_status_of_not_loadsAndStores {i : Instr} (hi : i.op ∉ loadsAndStores) (s : State) :
    ∃ h : s.HartOf, exec i s = .next (s.withHart h) ∧ (h.status = s.hart.status ∨ h.status = .stopped) := by
  cases i
  case lb | lh | lw | lbu | lhu | lwu | ld | sb | sh | sw | sd => simp [Instr.op] at hi
  case ecall | ebreak => exact ⟨_, s.breakRun_eq, .inr rfl⟩
  case jal | jalr => exact ⟨_, s.link_eq _ _, .inl (Hart.setX_status ..)⟩
  case beq | bne | blt | bge | bltu | bgeu => exact ⟨_, s.branch_eq _ _, .inl rfl⟩
  case fence => exact ⟨_, exec_fence _ _ _ _ _ s, .inl rfl⟩
  all_goals exact ⟨_, s.retire_eq _ _, .inl (Hart.setX_status ..)⟩

/-- R320: only loads and stores fail a running run. -/
theorem loadsAndStores_of_failed {i : Instr} {s : State} {h : s.HartOf} {e : RunError s.bits s.cfg.customErrors}
    (hr : s.hart.status = .running) (he : exec i s = .next (s.withHart h)) (hf : h.status = .failed e) :
    i.op ∈ loadsAndStores := by
  by_contra hi
  obtain ⟨k, hk, hstatus⟩ := exec_status_of_not_loadsAndStores hi s
  rw [State.hart_eq_of_next (he.symm.trans hk)] at hf
  rcases hstatus with hs | hs
  · cases hf.symm.trans (hs.trans hr)
  · cases hf.symm.trans hs

/-- How an instruction can leave a running run: running, stopped by ECALL or EBREAK, or failed by an execution fault of its
own; the last two change the status alone (R305, R306, R321, R323). -/
theorem running_or_ended_of_exec {i : Instr} {s : State} {h : s.HartOf} (hr : s.hart.status = .running)
    (he : exec i s = .next (s.withHart h)) :
    h.status = .running ∨ ((i = .ecall ∨ i = .ebreak) ∧ s.withHart h = s.ended .stopped)
      ∨ ∃ kind, s.withHart h = s.ended (.failed (.executionFault s.pc (some (encode i)) (some i) kind)) := by
  cases effect_of_exec he with
  | writes => exact .inl ((Hart.setX_status ..).trans hr)
  | links => exact .inl ((Hart.setX_status ..).trans hr)
  | branches => exact .inl hr
  | stores => exact .inl hr
  | fences => exact .inl hr
  | breaks hi => exact .inr (.inl ⟨hi, rfl⟩)
  | raises kind => exact .inr (.inr ⟨kind, rfl⟩)

/-- R321, R323: an instruction that fails a running run changes the status alone, to an execution fault of its own. -/
theorem ended_of_exec_failed {i : Instr} {s : State} {h : s.HartOf} {e : RunError s.bits s.cfg.customErrors}
    (hr : s.hart.status = .running) (he : exec i s = .next (s.withHart h)) (hf : h.status = .failed e) :
    s.withHart h = s.ended (.failed e) ∧ ∃ kind, e = .executionFault s.pc (some (encode i)) (some i) kind := by
  rcases running_or_ended_of_exec hr he with hrun | ⟨-, hend⟩ | ⟨kind, hend⟩
  · cases hrun.symm.trans hf
  · cases State.hart_eq_of_next (congrArg Host.Outcome.next hend)
    cases hf
  · cases State.hart_eq_of_next (congrArg Host.Outcome.next hend)
    cases hf
    exact ⟨rfl, kind, rfl⟩

/-- Settles O54: what fails a run sets the status alone, and is no instruction without a memory access. -/
theorem instructionErrorsArePrecise : Obligations.InstructionErrorsArePrecise := by
  unfold Obligations.InstructionErrorsArePrecise
  intro i s h e hr he hf
  exact ⟨(ended_of_exec_failed hr he hf).1, loadsAndStores_of_failed hr he hf⟩

/-- Settles O55: of the ways an instruction can leave a running run, ECALL and EBREAK have the one that stops it. -/
theorem onlyEcallAndEbreakBreak : Obligations.OnlyEcallAndEbreakBreak := by
  unfold Obligations.OnlyEcallAndEbreakBreak
  intro i s h hr he
  constructor
  · intro hs
    rcases running_or_ended_of_exec hr he with hrun | ⟨hi, -⟩ | ⟨kind, hend⟩
    · cases hrun.symm.trans hs
    · exact hi
    · cases State.hart_eq_of_next (congrArg Host.Outcome.next hend)
      cases hs
  · intro hi
    rw [State.hart_eq_of_next (he.symm.trans (exec_ecall_or_ebreak hi s))]

/-! ## A word that nothing takes -/

theorem State.hookAnswer_of_none {s : State} (h : s.cfg.hook = .none) (w : InsnWord) : s.hookAnswer w = .decline := by
  unfold State.hookAnswer
  rw [h]

theorem State.hookPath_of_decline {s : State} {w : InsnWord} (h : s.hookAnswer w = .decline) :
    s.hookPath w = .next (s.ended (.failed (.illegalInstruction s.pc w))) := by
  unfold State.hookPath
  rw [h]
  rfl

/-- R309: the step of a run whose word nothing takes. -/
theorem step_of_declined {s : State} {w : InsnWord} (hr : s.hart.status = .running) (ha : s.pc.toNat % 4 = 0)
    (hf : s.fetch = some w) (hd : decodeWord s.cfg w = none) (hdecline : s.hookAnswer w = .decline) :
    step s = .next (s.ended (.failed (.illegalInstruction s.pc w))) :=
  (step_of_error hr (State.prepare_of_undecoded ha hf hd)).trans (State.hookPath_of_decline hdecline)

/-- R309: a step that fails with an illegal instruction had a word that nothing takes. -/
theorem declined_of_step_illegal {s : State} {h : s.HartOf} {p : s.Word} {w : InsnWord}
    (hr : s.hart.status = .running) (hstep : step s = .next (s.withHart h))
    (hf : h.status = .failed (.illegalInstruction p w)) :
    p = s.pc ∧ s.pc.toNat % 4 = 0 ∧ s.fetch = some w ∧ decodeWord s.cfg w = none ∧ s.hookAnswer w = .decline := by
  rcases s.prepare_cases with ⟨-, hp⟩ | ⟨-, -, hp⟩ | ⟨w', d, -, -, -, hp⟩ | ⟨w', ha, hfetch, hd, hp⟩
  · cases State.hart_eq_of_next (hstep.symm.trans ((step_of_error hr hp).trans (s.fail_eq _)))
    cases hf
  · cases State.hart_eq_of_next (hstep.symm.trans ((step_of_error hr hp).trans (s.fail_eq _)))
    cases hf
  · obtain ⟨-, kind, he⟩ := ended_of_exec_failed hr ((step_of_ok hr hp).symm.trans hstep) hf
    cases he
  · have hpath := (step_of_error hr hp).symm.trans hstep
    cases hanswer : s.hookAnswer w' with
    | decline =>
      cases State.hart_eq_of_next (hpath.symm.trans (State.hookPath_of_decline hanswer))
      cases hf
      exact ⟨rfl, ha, hfetch, hd, hanswer⟩
    | done effects out =>
      have hrun := (applyEffects_status s.cfg.accessor s.hart effects).trans hr
      rw [State.hart_eq_of_next (hpath.symm.trans (State.hookPath_of_done hanswer))] at hf
      exact absurd hf (State.afterHook_status_ne_illegal hrun w' w p out)

/-- Settles O51: of the ways a step can take only the hook path raises the error, and only where the hook declines. -/
theorem illegalExactlyWhenNothingTakesTheWord : Obligations.IllegalExactlyWhenNothingTakesTheWord := by
  unfold Obligations.IllegalExactlyWhenNothingTakesTheWord
  intro s p w hr
  refine ⟨⟨?_, ?_⟩, ?_⟩
  · rintro ⟨h, hstep, hf⟩
    obtain ⟨hp, ha, hfetch, hd, hdecline⟩ := declined_of_step_illegal hr hstep hf
    exact ⟨hp, ha, hfetch, hd, .inr hdecline⟩
  · rintro ⟨rfl, ha, hfetch, hd, hhook⟩
    have hdecline : s.hookAnswer w = .decline := hhook.elim (State.hookAnswer_of_none · w) id
    exact ⟨_, step_of_declined hr ha hfetch hd hdecline, rfl⟩
  · intro h hstep hf
    obtain ⟨rfl, ha, hfetch, hd, hdecline⟩ := declined_of_step_illegal hr hstep hf
    rw [State.hart_eq_of_next (hstep.symm.trans (step_of_declined hr ha hfetch hd hdecline))]
    rfl

end Sys2Proof.Machine
end

section
/-! Carry-less multiplication is multiplication of polynomials over GF(2) (spec/47_zbc_zbkc.md R240): bit `k` of a word is
the coefficient of `X ^ k`, XOR is the sum, and the carry-less product's polynomial is the product. The bits and the laws
of the product (R245) are those of polynomials. -/

namespace Sys2Proof.Machine

open Polynomial Finset

/-! ## Bits as elements of GF(2) -/

/-- A bit as an element of GF(2). -/
def gf2 (b : Bool) : ZMod 2 := if b then 1 else 0

@[simp] theorem gf2_false : gf2 false = 0 := rfl

theorem gf2_injective : Function.Injective gf2 := by decide

theorem gf2_xor (a b : Bool) : gf2 (a ^^ b) = gf2 a + gf2 b := by
  revert a b; decide

theorem gf2_and (a b : Bool) : gf2 (a && b) = gf2 a * gf2 b := by
  revert a b; decide

/-- An XOR over the numbers below `n` is a sum. -/
theorem gf2_foldl_xor (f : Nat → Bool) (n : Nat) :
    gf2 ((List.range n).foldl (fun acc i => acc ^^ f i) false) = ∑ i ∈ range n, gf2 (f i) := by
  induction n with
  | zero => rfl
  | succ n ih =>
    rw [List.range_succ, List.foldl_append, List.foldl_cons, List.foldl_nil, gf2_xor, ih, sum_range_succ]

/-! ## Words as polynomials -/

variable {w : Nat}

/-- The polynomial of the bits of a word below `n`. -/
noncomputable def polyBelow (a : BitVec w) (n : Nat) : (ZMod 2)[X] := ∑ i ∈ range n, C (gf2 (a.getLsbD i)) * X ^ i

/-- The polynomial of a word. -/
noncomputable def poly (a : BitVec w) : (ZMod 2)[X] := polyBelow a w

theorem coeff_polyBelow (a : BitVec w) (n k : Nat) :
    (polyBelow a n).coeff k = if k < n then gf2 (a.getLsbD k) else 0 := by
  simp only [polyBelow, finsetSum_coeff, coeff_C_mul_X_pow, sum_ite_eq, mem_range]

@[simp] theorem coeff_poly (a : BitVec w) (k : Nat) : (poly a).coeff k = gf2 (a.getLsbD k) := by
  rw [poly, coeff_polyBelow]
  split
  case isTrue => rfl
  case isFalse hk => rw [BitVec.getLsbD_of_ge a k (Nat.le_of_not_lt hk), gf2_false]

theorem poly_injective : Function.Injective (poly (w := w)) := by
  intro a b h
  refine BitVec.eq_of_getLsbD_eq fun k _ => gf2_injective ?_
  rw [← coeff_poly, h, coeff_poly]

theorem poly_xor (a b : BitVec w) : poly (a ^^^ b) = poly a + poly b := by
  ext k
  rw [coeff_add, coeff_poly, coeff_poly, coeff_poly, BitVec.getLsbD_xor, gf2_xor]

@[simp] theorem poly_zero : poly 0#w = 0 := by
  ext k
  rw [coeff_poly, coeff_zero, BitVec.getLsbD_zero, gf2_false]

theorem natDegree_poly_le (a : BitVec w) : (poly a).natDegree ≤ w - 1 := by
  refine natDegree_le_iff_coeff_eq_zero.2 fun k hk => ?_
  rw [coeff_poly, BitVec.getLsbD_of_ge a k (by omega), gf2_false]

/-- A word moved up inside twice its width loses no bit. -/
theorem poly_setWidth_shiftLeft (a : BitVec w) {k : Nat} (hk : k < w) :
    poly (a.setWidth (2 * w) <<< k) = poly a * X ^ k := by
  ext j
  rw [coeff_mul_X_pow', coeff_poly, BitVec.getLsbD_shiftLeft, BitVec.getLsbD_setWidth]
  by_cases hj : k ≤ j
  · rw [if_pos hj, coeff_poly]
    by_cases hin : j < 2 * w
    · simp [hin, Nat.not_lt.2 hj, Nat.lt_of_le_of_lt (Nat.sub_le j k) hin]
    · simp [hin, BitVec.getLsbD_of_ge a (j - k) (by omega)]
  · simp [hj, Nat.lt_of_not_le hj]

/-! ## The carry-less product -/

theorem poly_clmulBelow (a b : BitVec w) {n : Nat} (hn : n ≤ w) :
    poly (clmulBelow a b n) = poly a * polyBelow b n := by
  induction n with
  | zero => rw [clmulBelow, BitVec.ofNat_eq_ofNat, poly_zero, polyBelow, range_zero, sum_empty, mul_zero]
  | succ n ih =>
    have hterm : poly (if b.getLsbD n then a.setWidth (2 * w) <<< n else 0) =
        poly a * (C (gf2 (b.getLsbD n)) * X ^ n) := by
      cases b.getLsbD n with
      | false => simp
      | true => simpa [gf2] using poly_setWidth_shiftLeft a hn
    rw [clmulBelow, poly_xor, ih (Nat.le_of_succ_le hn), hterm, ← mul_add, polyBelow, polyBelow, sum_range_succ]

/-- R240: the polynomial of the carry-less product is the product of the polynomials. -/
theorem poly_clmul2 (a b : BitVec w) : poly (clmul2 a b) = poly a * poly b := poly_clmulBelow a b le_rfl

theorem gf2_getLsbD_clmul2 (a b : BitVec w) (k : Nat) : gf2 ((clmul2 a b).getLsbD k) = (poly a * poly b).coeff k := by
  rw [← coeff_poly, poly_clmul2]

/-- R240: the bits of the carry-less product are those the XOR over the bits of `b` gives. -/
theorem getLsbD_clmul2 (a b : BitVec w) (k : Nat) : (clmul2 a b).getLsbD k = carrylessBit a b k := by
  apply gf2_injective
  rw [gf2_getLsbD_clmul2, mul_comm, coeff_mul, Nat.sum_antidiagonal_eq_sum_range_succ_mk, carrylessBit, gf2_foldl_xor]
  exact sum_congr rfl fun i _ => by rw [coeff_poly, coeff_poly, gf2_and]

/-- R240: the product has at most 2w - 1 bits. -/
theorem getLsbD_clmul2_of_ge (hw : 0 < w) (a b : BitVec w) {k : Nat} (hk : 2 * w - 1 ≤ k) :
    (clmul2 a b).getLsbD k = false := by
  apply gf2_injective
  have hdeg : (poly a * poly b).natDegree ≤ (w - 1) + (w - 1) :=
    natDegree_mul_le_of_le (natDegree_poly_le a) (natDegree_poly_le b)
  rw [gf2_getLsbD_clmul2, coeff_eq_zero_of_natDegree_lt (by omega), gf2_false]

/-! ## The laws (R245) -/

theorem clmul2_comm (a b : BitVec w) : clmul2 a b = clmul2 b a :=
  poly_injective (by rw [poly_clmul2, poly_clmul2, mul_comm])

theorem clmul2_xor (a b c : BitVec w) : clmul2 a (b ^^^ c) = clmul2 a b ^^^ clmul2 a c :=
  poly_injective (by rw [poly_xor, poly_clmul2, poly_clmul2, poly_clmul2, poly_xor, mul_add])

/-- The polynomial of a word reversed is that of the word reflected. -/
theorem poly_reverse (hw : 0 < w) (a : BitVec w) : poly a.reverse = (poly a).reflect (w - 1) := by
  ext k
  rw [coeff_poly, coeff_reflect, coeff_poly, BitVec.getLsbD_reverse, BitVec.getMsbD]
  by_cases hk : k < w
  · rw [revAt_le (by omega), decide_eq_true hk, Bool.true_and]
  · rw [revAt_eq_self_of_lt (by omega), decide_eq_false hk, Bool.false_and, BitVec.getLsbD_of_ge a k (by omega)]

/-- Bit `k` above the lowest w - 1 of the product is the one as far below them in the product of the reversed words. -/
theorem getLsbD_clmul2_reverse (a b : BitVec w) {k : Nat} (hk : k < w) :
    (clmul2 a.reverse b.reverse).getLsbD (w - 1 - k) = (clmul2 a b).getLsbD (w - 1 + k) := by
  have hw : 0 < w := Nat.zero_lt_of_lt hk
  have hrev : (w - 1) + (w - 1) - (w - 1 - k) = w - 1 + k := by omega
  apply gf2_injective
  rw [gf2_getLsbD_clmul2, gf2_getLsbD_clmul2, poly_reverse hw, poly_reverse hw,
    ← reflect_mul _ _ (natDegree_poly_le a) (natDegree_poly_le b), coeff_reflect, revAt_le (by omega), hrev]

/-- R245: CLMULR is CLMUL of the operands reversed, reversed. -/
theorem clmulr_eq_reverse_clmul (a b : BitVec w) :
    (clmul2 a b).extractLsb' (w - 1) w = ((clmul2 a.reverse b.reverse).extractLsb' 0 w).reverse := by
  refine BitVec.eq_of_getLsbD_eq fun k hk => ?_
  have hlow : w - 1 - k < w := by omega
  rw [BitVec.getLsbD_reverse, BitVec.getMsbD, BitVec.getLsbD_extractLsb', BitVec.getLsbD_extractLsb',
    decide_eq_true hlow, Nat.zero_add, getLsbD_clmul2_reverse a b hk, Bool.true_and]

/-- R245: CLMULH is CLMULR moved down by one, since the top bit of the product is 0. -/
theorem clmulh_eq_clmulr_shift (hw : 0 < w) (a b : BitVec w) :
    (clmul2 a b).extractLsb' w w = (clmul2 a b).extractLsb' (w - 1) w >>> 1 := by
  refine BitVec.eq_of_getLsbD_eq fun k hk => ?_
  rw [BitVec.getLsbD_ushiftRight, BitVec.getLsbD_extractLsb', BitVec.getLsbD_extractLsb', decide_eq_true hk,
    Bool.true_and]
  by_cases htop : 1 + k < w
  · have hpos : w - 1 + (1 + k) = w + k := by omega
    rw [decide_eq_true htop, Bool.true_and, hpos]
  · rw [decide_eq_false htop, Bool.false_and, getLsbD_clmul2_of_ge hw a b (by omega)]

/-- R245: bit 0 of the product is the product of the bits 0. -/
theorem getLsbD_clmul2_zero (a b : BitVec w) : (clmul2 a b).getLsbD 0 = (a.getLsbD 0 && b.getLsbD 0) := by
  apply gf2_injective
  rw [gf2_getLsbD_clmul2, mul_coeff_zero, coeff_poly, coeff_poly, gf2_and]

/-- Settles O48: the laws of the products of polynomials. -/
theorem carrylessLaws : Obligations.CarrylessLaws := by
  unfold Obligations.CarrylessLaws
  intro w a b c hw
  refine ⟨clmul2_comm a b, clmul2_xor a b c, clmulr_eq_reverse_clmul a b, clmulh_eq_clmulr_shift hw a b, ?_⟩
  rw [BitVec.getLsbD_extractLsb', decide_eq_true hw, Bool.true_and, getLsbD_clmul2_zero]

/-! ## The instructions (R241 to R243) -/

/-- A word of bits of the product has them as the XOR gives them. -/
theorem getLsbD_extract_clmul2 (a b : BitVec w) (start : Nat) {k : Nat} (hk : k < w) :
    ((clmul2 a b).extractLsb' start w).getLsbD k = carrylessBit a b (start + k) := by
  rw [BitVec.getLsbD_extractLsb', decide_eq_true hk, Bool.true_and, getLsbD_clmul2]

/-- Settles O47: each instruction retires with a word of bits of the product, from 0, XLEN and XLEN - 1 on. -/
theorem carrylessMultiplications : Obligations.CarrylessMultiplications := by
  unfold Obligations.CarrylessMultiplications
  intro s rd rs1 rs2 hrd bit
  have hclmulr (k : Nat) : s.bits - 1 + k = k + s.bits - 1 := by
    have := s.bits_pos
    omega
  refine ⟨completes_of_retire rfl hrd fun k hk => ?_, completes_of_retire rfl hrd fun k hk => ?_,
    completes_of_retire rfl hrd fun k hk => ?_⟩
  · rw [getLsbD_extract_clmul2 _ _ _ hk, Nat.zero_add]
  · rw [getLsbD_extract_clmul2 _ _ _ hk, Nat.add_comm]
  · rw [getLsbD_extract_clmul2 _ _ _ hk, hclmulr]

end Sys2Proof.Machine
end
